-- ==== Sys2Proof/Word.lean ====
section
/-!
DEFINITION. The machine word (spec/00_scope.md R7 to R9): `W = 32` bits, two's complement (decision D1), and the
map `wrap` from mathematical integers to words. Every register, memory cell, bus value and operand is a `Word`.
-/
namespace Sys2Proof

/-- R7 to R9: a word is a `W`-bit value, `W = 32` (decision D1); its signed value is `BitVec.toInt`. -/
abbrev Word := BitVec 32

/-- R9: `wrap(v)` is the unique word congruent to `v` modulo `2^W`. -/
def wrap (v : Int) : Word := BitVec.ofInt 32 v

/-- R9: the least signed value of a word, `-2^(W-1)`. -/
abbrev minInt : Int := -2147483648

/-- R9: the greatest signed value of a word, `2^(W-1) - 1`. -/
abbrev maxInt : Int := 2147483647

/-- R9: the integers that are the signed value of a word. -/
abbrev FitsWord (v : Int) : Prop := minInt ≤ v ∧ v ≤ maxInt

/-- R7: the greatest memory size, `2^(W-1) - 1`, so that every address and the size itself fit in a word. -/
abbrev maxMemSize : Nat := 2147483647

end Sys2Proof
end

