-- ==== Sys2Proof/Config.lean ====
section
/-!
DEFINITION. What an implementation fixes and what the spec leaves free (spec/00_scope.md R7, spec/93). A parameter
that the spec leaves open (`MEM_SIZE`, `FLAGS_AFTER_CTL`) is held in State, where no step changes it, so that every
statement over all states covers every value of it. A value that the spec calls a draw is an opaque constant applied to
the number of the draw, so that no proof can see it.
-/
namespace Sys2Proof.Config

/-- R7, R28 (decision D10): the parameter `FLAGS_AFTER_CTL`, what JEQ, JGT, JLW, CALL and RET do to the flags. -/
inductive FlagsAfterCtl where
  | preserve  -- they leave the flags as they are (the source's statement, and the value taken)
  | any       -- the flags afterwards are an unconstrained draw
deriving DecidableEq, Repr, Inhabited

/-- R7 (decision D2): the memory size of the worked examples, used by `State.reset` only.
DESIGN CHOICE (notes/assumptions/2.md): the spec leaves `MEM_SIZE` open. -/
def exampleMemSize : Nat := 256

/-- The open single-bit values, one name each. -/
inductive BitDraw where
  | gtOverflow  -- R196: the JGT bit when the difference overflows (`CMP_OVF`)
  | lwOverflow  -- R196: the JLW bit when the difference overflows (`CMP_OVF`)
  | flagZ       -- R28, R200: Z after an instruction of ids 16-20 under `FLAGS_AFTER_CTL = any`
  | flagN       -- R28, R200: N after the same
  | memPhase    -- R35, R38: the phase bit of `MemLatch` after an instruction
  | selPhase    -- R35, R38: the phase bit of `SelLatch` after an instruction
deriving DecidableEq, Repr, Inhabited

/-- The open word values: the datapath after an instruction (R38, decision D19). -/
inductive WordDraw where
  | extBus
  | intBus
  | aluBus
  | a0
  | a1
  | demux
  | memAddr
  | selAddr
deriving DecidableEq, Repr, Inhabited

/-- A free bit: nothing constrains it. The number is `State.draws` at the moment of the draw. -/
opaque freeBit : BitDraw → Nat → Bool

/-- A free word: nothing constrains it. -/
opaque freeWord : WordDraw → Nat → Word

end Sys2Proof.Config
end

