-- ==== Sys2Proof/Syntax.lean ====
section
/-!
DEFINITION. The instructions as syntax (spec/30_encoding.md R70 to R76): registers, operands, the 21 opcodes with
their formats, and `Instr`, one constructor for each row of spec/opcode_table.json, in the table's order.
-/
namespace Sys2Proof

/-- R21 (decision D3): the six registers that have an id. -/
inductive RegId where
  | reg0
  | reg1
  | reg2
  | reg3
  | stkTOP
  | stkBOT
deriving DecidableEq, Repr, Inhabited

/-- R72, R78: a reg operand. A word outside 0..5 selects no register; it stays in the instruction under the name
`illegal`, because the spec stops such an instruction only when the operand is fetched (R132), after earlier
operands have had their checks. -/
inductive RegOperand where
  | reg (r : RegId)
  | illegal (w : Word)
deriving DecidableEq, Repr, Inhabited

/-- R17, R72: the kinds of operand. -/
inductive OperandKind where
  | reg
  | mem
  | imm
deriving DecidableEq, Repr, Inhabited

/-- R72: the eight formats. -/
inductive Format where
  | n
  | r
  | m
  | rr
  | mr
  | rm
  | ir
  | rrm
deriving DecidableEq, Repr, Inhabited

/-- R72: the operand kinds of a format, in signature order. -/
def Format.kinds : Format → List OperandKind
  | .n => []
  | .r => [.reg]
  | .m => [.mem]
  | .rr => [.reg, .reg]
  | .mr => [.mem, .reg]
  | .rm => [.reg, .mem]
  | .ir => [.imm, .reg]
  | .rrm => [.reg, .reg, .mem]

/-- R70, R72: the number of words of a format: the opcode word and one word for each operand. -/
def Format.words (f : Format) : Nat := 1 + f.kinds.length

/-- R74: the 21 opcodes. -/
inductive Opcode where
  | addRegReg
  | addMemReg
  | addRegMem
  | subRegReg
  | subMemReg
  | subRegMem
  | moveMemReg
  | moveRegMem
  | moveRegReg
  | moveImmReg
  | incReg
  | incMem
  | jmp
  | jn
  | jz
  | jnz
  | jeq
  | jgt
  | jlw
  | call
  | ret
deriving DecidableEq, Repr, Inhabited

/-- R72, R74: the format column of the opcode table. -/
def Opcode.format : Opcode → Format
  | .addRegReg => .rr
  | .addMemReg => .mr
  | .addRegMem => .rm
  | .subRegReg => .rr
  | .subMemReg => .mr
  | .subRegMem => .rm
  | .moveMemReg => .mr
  | .moveRegMem => .rm
  | .moveRegReg => .rr
  | .moveImmReg => .ir
  | .incReg => .r
  | .incMem => .m
  | .jmp => .m
  | .jn => .m
  | .jz => .m
  | .jnz => .m
  | .jeq => .rrm
  | .jgt => .rrm
  | .jlw => .rrm
  | .call => .m
  | .ret => .n

/-- R74: the instruction set. Operand names and their order are those of R72; `a` is a mem operand, `imm` an
immediate, both a whole word (R73). -/
inductive Instr where
  | addRegReg (rA rB : RegOperand)            -- id 0, `add %rA %rB`
  | addMemReg (a : Word) (rA : RegOperand)    -- id 1, `add a %rA`
  | addRegMem (rA : RegOperand) (a : Word)    -- id 2, `add %rA a`
  | subRegReg (rA rB : RegOperand)            -- id 3, `sub %rA %rB`
  | subMemReg (a : Word) (rA : RegOperand)    -- id 4, `sub a %rA`
  | subRegMem (rA : RegOperand) (a : Word)    -- id 5, `sub %rA a`
  | moveMemReg (a : Word) (rA : RegOperand)   -- id 6, `move a %rA`
  | moveRegMem (rA : RegOperand) (a : Word)   -- id 7, `move %rA a`
  | moveRegReg (rA rB : RegOperand)           -- id 8, `move %rA %rB`
  | moveImmReg (imm : Word) (rA : RegOperand) -- id 9, `move imm %rA`
  | incReg (rA : RegOperand)                  -- id 10, `inc %rA`
  | incMem (a : Word)                         -- id 11, `inc a`
  | jmp (a : Word)                            -- id 12, `jmp a`
  | jn (a : Word)                             -- id 13, `jn a`
  | jz (a : Word)                             -- id 14, `jz a`
  | jnz (a : Word)                            -- id 15, `jnz a`
  | jeq (rA rB : RegOperand) (a : Word)       -- id 16, `jeq %rA %rB a`
  | jgt (rA rB : RegOperand) (a : Word)       -- id 17, `jgt %rA %rB a`
  | jlw (rA rB : RegOperand) (a : Word)       -- id 18, `jlw %rA %rB a`
  | call (a : Word)                           -- id 19, `call a`
  | ret                                       -- id 20, `ret`
deriving DecidableEq, Repr, Inhabited

/-- The opcode of an instruction. -/
def Instr.opcode : Instr → Opcode
  | .addRegReg _ _ => .addRegReg
  | .addMemReg _ _ => .addMemReg
  | .addRegMem _ _ => .addRegMem
  | .subRegReg _ _ => .subRegReg
  | .subMemReg _ _ => .subMemReg
  | .subRegMem _ _ => .subRegMem
  | .moveMemReg _ _ => .moveMemReg
  | .moveRegMem _ _ => .moveRegMem
  | .moveRegReg _ _ => .moveRegReg
  | .moveImmReg _ _ => .moveImmReg
  | .incReg _ => .incReg
  | .incMem _ => .incMem
  | .jmp _ => .jmp
  | .jn _ => .jn
  | .jz _ => .jz
  | .jnz _ => .jnz
  | .jeq _ _ _ => .jeq
  | .jgt _ _ _ => .jgt
  | .jlw _ _ _ => .jlw
  | .call _ => .call
  | .ret => .ret

/-- The reg operands of an instruction, in signature order. -/
def Instr.regOperands : Instr → List RegOperand
  | .addRegReg rA rB => [rA, rB]
  | .addMemReg _ rA => [rA]
  | .addRegMem rA _ => [rA]
  | .subRegReg rA rB => [rA, rB]
  | .subMemReg _ rA => [rA]
  | .subRegMem rA _ => [rA]
  | .moveMemReg _ rA => [rA]
  | .moveRegMem rA _ => [rA]
  | .moveRegReg rA rB => [rA, rB]
  | .moveImmReg _ rA => [rA]
  | .incReg rA => [rA]
  | .incMem _ => []
  | .jmp _ => []
  | .jn _ => []
  | .jz _ => []
  | .jnz _ => []
  | .jeq rA rB _ => [rA, rB]
  | .jgt rA rB _ => [rA, rB]
  | .jlw rA rB _ => [rA, rB]
  | .call _ => []
  | .ret => []

end Sys2Proof
end

