-- ==== Sys2Proof/Machine/State.lean ====
section
/-!
DEFINITION. The state of the machine (spec/10_state.md R20), plain data: registers, program counter, instruction
register, flags, the memory bank, the status-selection memory, the control unit's phase and status, and the datapath.
The last two fields are not the spec's tuple: `flagsAfterCtl` is the parameter `FLAGS_AFTER_CTL` of R7, which no step
changes, and `draws` is the model's own count of the free values drawn so far.
-/
namespace Sys2Proof.Machine

/-- R20, R22, R30, R31: the registers that have an id. `x[0..3]` are reg0 to reg3, `x[4]` is StkTOP, `x[5]` is StkBOT. -/
structure Regs where
  reg0 : Word
  reg1 : Word
  reg2 : Word
  reg3 : Word
  stkTOP : Word
  stkBOT : Word
deriving DecidableEq, Repr, Inhabited

/-- R27: the two flags. -/
structure Flags where
  z : Bool
  n : Bool
deriving DecidableEq, Repr, Inhabited

/-- R50, R51: the memory bank, `size` words at the addresses 0 .. size-1. A listed pair is a cell and its word; a cell
that is not listed holds 0 (R45, R46: "zero-initialized"). The unit is the word, as R57 asks. -/
structure Memory where
  size : Nat
  cells : List (Nat × Word)
deriving DecidableEq, Repr, Inhabited

/-- R36: the status-selection memory, two cells. -/
structure Sel where
  slot0 : Word
  slot1 : Word
deriving DecidableEq, Repr, Inhabited

/-- R35, R124: the phase of a memory's address latch. -/
inductive Phase where
  | addr
  | data
deriving DecidableEq, Repr, Inhabited

/-- R35, R124: a memory's address latch. -/
structure Latch where
  phase : Phase
  addr : Word
deriving DecidableEq, Repr, Inhabited

/-- R32 to R35: the datapath. R38 leaves every component unspecified after an instruction. -/
structure Datapath where
  extBus : Word
  intBus : Word
  aluBus : Word
  a0 : Word
  a1 : Word
  demux : Word
  memLatch : Latch
  selLatch : Latch
deriving DecidableEq, Repr, Inhabited

/-- R41: the phases of the control unit. -/
inductive Fsm where
  | fetch
  | decodeExecute
  | halted
deriving DecidableEq, Repr, Inhabited

/-- R42, R232: why the machine stopped. -/
inductive Status where
  | running             -- code 0, `RUNNING`
  | haltSentinel        -- code 1, `HALT_SENTINEL`
  | haltBadOpcode       -- code 2, `HALT_BAD_OPCODE`
  | haltPcRange         -- code 3, `HALT_PC_RANGE`
  | haltOperandRange    -- code 4, `HALT_OPERAND_RANGE`
  | haltDataRange       -- code 5, `HALT_DATA_RANGE`
  | faultBadRegister    -- code 6, `FAULT_BAD_REGISTER`
  | faultStack          -- code 7, `FAULT_STACK`
deriving DecidableEq, Repr, Inhabited

/-- R232: the code of a status. -/
def Status.code : Status → Nat
  | .running => 0
  | .haltSentinel => 1
  | .haltBadOpcode => 2
  | .haltPcRange => 3
  | .haltOperandRange => 4
  | .haltDataRange => 5
  | .faultBadRegister => 6
  | .faultStack => 7

/-- R20: the machine state. -/
structure State where
  regs : Regs
  pc : Word
  ir : Word
  flags : Flags
  mem : Memory
  sel : Sel
  fsm : Fsm
  status : Status
  dp : Datapath
  flagsAfterCtl : Config.FlagsAfterCtl
  draws : Nat
deriving DecidableEq, Repr, Inhabited

/-- Why `step` has no next state. A halt of R232 is no `Fault`: it is a next state with `fsm = HALTED`. -/
inductive Fault where
  /-- Raised by `step` alone, in a state with `fsm = HALTED`: such a state has no step (R135, R136). Safe: the spec
  gives no successor. -/
  | alreadyHalted
  /-- Raised by `step` alone, in a state with `fsm = DECODE_EXECUTE`: a step is defined only at FETCH (R135), and no
  step ends in DECODE_EXECUTE. Safe: the spec gives no successor. -/
  | betweenPhases
deriving DecidableEq, Repr, Inhabited

/-- Why an instruction has no meaning. -/
inductive Refusal where
  /-- Raised by a rejected arm of `exec`: the instruction is not modelled yet. Safe. No arm is rejected. -/
  | notModelled (mnemonic : String)
deriving DecidableEq, Repr, Inhabited

/-- What a meaning answers. -/
abbrev Result := Host.Outcome State Fault Refusal

/-- R45, R47, R260: the machine when execution starts, with an empty image. `PC`, `Sel`, `fsm`, `status` and the zeroed
memory are the spec's. DESIGN CHOICE (notes/assumptions/1.md, 2.md): the registers, the flags, IR and the datapath, which
R45 leaves unspecified, are 0 here, and the memory has 256 words; `State.start` (Loader.lean) takes them as inputs. The
latches are at ADDR, as R124 says. -/
def State.reset : State where
  regs := { reg0 := 0, reg1 := 0, reg2 := 0, reg3 := 0, stkTOP := 0, stkBOT := 0 }
  pc := 0
  ir := 0
  flags := { z := false, n := false }
  mem := { size := Config.exampleMemSize, cells := [] }
  sel := { slot0 := 0, slot1 := 0 }
  fsm := .fetch
  status := .running
  dp :=
    { extBus := 0, intBus := 0, aluBus := 0, a0 := 0, a1 := 0, demux := 0
      memLatch := { phase := .addr, addr := 0 }
      selLatch := { phase := .addr, addr := 0 } }
  flagsAfterCtl := .preserve
  draws := 0

end Sys2Proof.Machine
end

