-- ==== Sys2Proof/Machine/Memory.lean ====
section
/-!
DEFINITION. The memory bank (spec/20_memory.md R50 to R52, R56): the cells as one canonical list, the range check, and
the two instruction-level primitives, the read and the write of one word.
-/
namespace Sys2Proof.Machine

/-- R45, R46: what a cell that is not listed holds. -/
def unlistedWord : Word := 0

/-- The word of cell `a`. -/
def readCells : List (Nat × Word) → Nat → Word
  | [], _ => unlistedWord
  | (b, w) :: rest, a => if a = b then w else readCells rest a

/-- One listed cell in front of a list, left out when it holds what an unlisted cell holds. -/
def consCell (a : Nat) (v : Word) (rest : List (Nat × Word)) : List (Nat × Word) :=
  if v = unlistedWord then rest else (a, v) :: rest

/-- Cell `a` set to `v`, in canonical form. -/
def writeCells : List (Nat × Word) → Nat → Word → List (Nat × Word)
  | [], a, v => consCell a v []
  | (b, w) :: rest, a, v =>
    if a < b then consCell a v ((b, w) :: rest)
    else if a = b then consCell a v rest
    else (b, w) :: writeCells rest a v

/-- R52: the addresses that exist are 0 .. size-1; the signed value of the word is compared. -/
abbrev Memory.InRange (m : Memory) (a : Word) : Prop := 0 ≤ a.toInt ∧ a.toInt < m.size

/-- R11, R56: `M[a]`. The caller has checked the range. -/
def Memory.read (m : Memory) (a : Word) : Word := readCells m.cells a.toNat

/-- R11, R56: `M[a] <- v`. The caller has checked the range. -/
def Memory.write (m : Memory) (a v : Word) : Memory := { m with cells := writeCells m.cells a.toNat v }

/-- R7: the memory sizes the spec admits. -/
abbrev Memory.SizeOk (m : Memory) : Prop := 1 ≤ m.size ∧ m.size ≤ maxMemSize

/-- The canonical form: addresses strictly rising, all of them in memory, no cell listed with the word that an
unlisted cell holds. Equal memories are then equal lists. -/
abbrev Memory.wf (m : Memory) : Prop :=
  m.cells.Pairwise (fun p q => p.1 < q.1) ∧ ∀ p ∈ m.cells, p.1 < m.size ∧ p.2 ≠ unlistedWord

/-- The words at `a`, `a+1`, ... , `n` of them. -/
def Memory.readMany (m : Memory) (a : Word) : Nat → List Word
  | 0 => []
  | n + 1 => m.read a :: m.readMany (a + 1) n

/-- The words of a list stored at `a`, `a+1`, ... ; a word whose address does not exist is dropped (R52). -/
def Memory.writeMany (m : Memory) (a : Word) : List Word → Memory
  | [] => m
  | w :: ws => (if m.InRange a then m.write a w else m).writeMany (a + 1) ws

end Sys2Proof.Machine
end

