-- ==== Sys2Proof/Machine/Ops.lean ====
section
/-!
DEFINITION. The named operations that every meaning is built of: register access (R10, R21), the arithmetic of the ALU
(R150, R180), raising a halt (R12, R231), the store of one word, the draws, the branch-free selection (R126), and the latches
at ADDR (R124).
-/
namespace Sys2Proof.Machine

/-- R10, R21: the word of a register. -/
def Regs.get (x : Regs) : RegId → Word
  | .reg0 => x.reg0
  | .reg1 => x.reg1
  | .reg2 => x.reg2
  | .reg3 => x.reg3
  | .stkTOP => x.stkTOP
  | .stkBOT => x.stkBOT

/-- R10, R21: one register written. No register is hardwired (R22, R44). -/
def Regs.set (x : Regs) (r : RegId) (v : Word) : Regs :=
  match r with
  | .reg0 => { x with reg0 := v }
  | .reg1 => { x with reg1 := v }
  | .reg2 => { x with reg2 := v }
  | .reg3 => { x with reg3 := v }
  | .stkTOP => { x with stkTOP := v }
  | .stkBOT => { x with stkBOT := v }

/-- R10: `x[r]`. -/
def State.x (s : State) (r : RegId) : Word := s.regs.get r

/-- R10: `x[r] <- v`. -/
def State.setX (s : State) (r : RegId) (v : Word) : State := { s with regs := s.regs.set r v }

/-- R10: `PC <- target`. -/
def State.setPc (s : State) (target : Word) : State := { s with pc := target }

/-- R11: `M[a] <- v`, after the range check. -/
def State.store (s : State) (a v : Word) : State := { s with mem := s.mem.write a v }

/-- R150: ADD computes `wrap(a + b)` on signed values. -/
def addWrap (a b : Word) : Word := wrap (a.toInt + b.toInt)

/-- R150: SUB computes `wrap(a - b)`, first minus second. -/
def subWrap (a b : Word) : Word := wrap (a.toInt - b.toInt)

/-- R180: INC computes `wrap(v + 1)`. -/
def incWrap (v : Word) : Word := wrap (v.toInt + 1)

/-- R12, R231: `raise Halt(r)`. `fsm` and `status` are set, everything done before stays, nothing after it happens.
This is the machine's one exception entry: no register is saved and control goes nowhere (R232, R235). Nothing returns
from it (R236), so there is no return operation beside it. -/
def State.halt (s : State) (r : Status) : State := { s with fsm := .halted, status := r }

/-- `raise Halt(r)` as the end of a meaning. -/
def raiseHalt (r : Status) (s : State) : Result := .next (s.halt r)

/-- The model's own count of the free values drawn, advanced. -/
def State.countDraw (s : State) : State := { s with draws := s.draws + 1 }

/-- One free bit (R196, R200), and the state with the count of draws advanced. -/
def drawBit (what : Config.BitDraw) (s : State) (k : Bool → State → Result) : Result :=
  k (Config.freeBit what s.draws) s.countDraw

/-- R36: cell `b` of the status-selection memory. -/
def Sel.read (m : Sel) (b : Bool) : Word := if b then m.slot1 else m.slot0

/-- R126: `PC <- Select(b, PC, t)`. Both slots are written, then the slot whose address is the bit is read into PC. -/
def State.selectPc (s : State) (b : Bool) (t : Word) : State :=
  let sel : Sel := { slot0 := s.pc, slot1 := t }
  { s with sel := sel, pc := sel.read b }

/-- R211, R214: `min(StkBOT, MEM_SIZE)`, on signed values. -/
def State.stackLimit (s : State) : Int := min (s.x .stkBOT).toInt s.mem.size

/-- R211, R214: a stack access at the integer `a` is allowed. -/
abbrev State.StackOk (s : State) (a : Int) : Prop := 0 ≤ a ∧ a < s.stackLimit

/-- R211, R212: the push of CALL. `StkTOP - 1` is computed on mathematical integers; outside the bound the machine
halts before any write. -/
def pushWord (v : Word) (s : State) (k : State → Result) : Result :=
  if s.StackOk ((s.x .stkTOP).toInt - 1) then
    let top := wrap ((s.x .stkTOP).toInt - 1)
    k ((s.setX .stkTOP top).store top v)
  else raiseHalt .faultStack s

/-- R214, R215: the pop of RET. The word at StkTOP is handed on and StkTOP is incremented; outside the bound the
machine halts with nothing changed. -/
def popWord (s : State) (k : Word → State → Result) : Result :=
  if s.StackOk (s.x .stkTOP).toInt then
    k (s.mem.read (s.x .stkTOP)) (s.setX .stkTOP (incWrap (s.x .stkTOP)))
  else raiseHalt .faultStack s

/-! ### The latches of the memories -/

/-- R124: a latch at ADDR, where every latch starts. -/
def Latch.atAddr (l : Latch) : Latch := { l with phase := .addr }

/-- R124, R126: both latches at ADDR. -/
def Datapath.latchesAtAddr (d : Datapath) : Datapath :=
  { d with memLatch := d.memLatch.atAddr, selLatch := d.selLatch.atAddr }

/-- R124, R126: both latches at ADDR. -/
def State.latchesAtAddr (s : State) : State := { s with dp := s.dp.latchesAtAddr }

end Sys2Proof.Machine
end

