-- ==== Sys2Proof/Machine/Flags.lean ====
section
/-!
DEFINITION. The flags (spec/10_state.md R27 to R29) and the comparison bits of the compare-jumps (spec/44_jump.md R196).
-/
namespace Sys2Proof.Machine

/-- R27: the flags of a result: `Z = (v == 0)`, `N = (v < 0)` signed. -/
def flagsOf (v : Word) : Flags := { z := decide (v.toInt = 0), n := decide (v.toInt < 0) }

/-- The flags register written. -/
def State.withFlags (s : State) (f : Flags) : State := { s with flags := f }

/-- R13, R27: `SetFlags(v)`. -/
def State.setFlags (s : State) (v : Word) : State := s.withFlags (flagsOf v)

/-- R29 (decision D21): the flags register as two bits, bit 0 = Z and bit 1 = N. No instruction reads it whole. -/
def Flags.bits (f : Flags) : BitVec 2 := (BitVec.ofBool f.n).append (BitVec.ofBool f.z)

/-- R28, R200: `FlagsAfterCtl()`, the last act of JEQ, JGT, JLW, CALL and RET. Under `any` the flags are a draw. -/
def flagsAfterCtl (s : State) : Result :=
  match s.flagsAfterCtl with
  | .preserve => .next s
  | .any =>
    drawBit .flagZ s fun z s =>
    drawBit .flagN s fun n s =>
    .next (s.withFlags { z := z, n := n })

/-- R196: `eq(a, b)`, exact. -/
def eqBit (a b : Word) : Bool := decide (a.toInt = b.toInt)

/-- R196: `gt(a, b)`, exact when the difference fits in a word, otherwise a draw (`CMP_OVF`, decision D9). -/
def gtBit (a b : Word) (s : State) (k : Bool → State → Result) : Result :=
  if FitsWord (a.toInt - b.toInt) then k (decide (b.toInt < a.toInt)) s else drawBit .gtOverflow s k

/-- R196: `lw(a, b)`, exact when the difference fits in a word, otherwise a draw (`CMP_OVF`, decision D9). -/
def lwBit (a b : Word) (s : State) (k : Bool → State → Result) : Result :=
  if FitsWord (a.toInt - b.toInt) then k (decide (a.toInt < b.toInt)) s else drawBit .lwOverflow s k

end Sys2Proof.Machine
end

