-- ==== Sys2Proof/WellFormed.lean ====
section
/-!
DEFINITION. Which instructions are well formed (spec/30_encoding.md R78): every reg operand selects a register. Any
word is legal as a mem operand or an immediate; a mem operand is checked only when it is used (R52, R78), so it is no
matter of well-formedness.
-/
namespace Sys2Proof

/-- R78: a reg operand is one of the ids 0..5. -/
def RegOperand.legal : RegOperand → Bool
  | .reg _ => true
  | .illegal _ => false

/-- R78: the check of a whole instruction. -/
def Instr.wellFormed (i : Instr) : Bool := i.regOperands.all RegOperand.legal

/-- R78 as a proposition. -/
abbrev WellFormed (i : Instr) : Prop := i.wellFormed = true

end Sys2Proof
end

