-- ==== Sys2Proof/Decode.lean ====
section
/-!
DEFINITION. Decoding and encoding (spec/30_encoding.md R70 to R78). An instruction is one opcode word and one whole
word for each operand, in signature order. `decode` is total on any list of words and rejects by name; `encode` is
written from the same table.
-/
namespace Sys2Proof

/-- R21, R96 (decision D3): the id of a register, as a word. -/
def RegId.word : RegId → Word
  | .reg0 => 0
  | .reg1 => 1
  | .reg2 => 2
  | .reg3 => 3
  | .stkTOP => 4
  | .stkBOT => 5

/-- R21, R23: the register that a word selects, if any. -/
def RegId.ofWord (w : Word) : Option RegId :=
  match w.toNat with
  | 0 => some .reg0
  | 1 => some .reg1
  | 2 => some .reg2
  | 3 => some .reg3
  | 4 => some .stkTOP
  | 5 => some .stkBOT
  | _ => none

/-- R72, R78: the reg operand that a word is. -/
def RegOperand.ofWord (w : Word) : RegOperand :=
  match RegId.ofWord w with
  | some r => .reg r
  | none => .illegal w

/-- The word of a reg operand. -/
def RegOperand.word : RegOperand → Word
  | .reg r => r.word
  | .illegal w => w

/-- R74, R75: the opcode id, as a word. The order is part of the executable format. -/
def Opcode.word : Opcode → Word
  | .addRegReg => 0
  | .addMemReg => 1
  | .addRegMem => 2
  | .subRegReg => 3
  | .subMemReg => 4
  | .subRegMem => 5
  | .moveMemReg => 6
  | .moveRegMem => 7
  | .moveRegReg => 8
  | .moveImmReg => 9
  | .incReg => 10
  | .incMem => 11
  | .jmp => 12
  | .jn => 13
  | .jz => 14
  | .jnz => 15
  | .jeq => 16
  | .jgt => 17
  | .jlw => 18
  | .call => 19
  | .ret => 20

/-- R74, R77: the opcode that a word is, none outside 0..20. The whole word is compared. -/
def Opcode.ofWord (w : Word) : Option Opcode :=
  match w.toNat with
  | 0 => some .addRegReg
  | 1 => some .addMemReg
  | 2 => some .addRegMem
  | 3 => some .subRegReg
  | 4 => some .subMemReg
  | 5 => some .subRegMem
  | 6 => some .moveMemReg
  | 7 => some .moveRegMem
  | 8 => some .moveRegReg
  | 9 => some .moveImmReg
  | 10 => some .incReg
  | 11 => some .incMem
  | 12 => some .jmp
  | 13 => some .jn
  | 14 => some .jz
  | 15 => some .jnz
  | 16 => some .jeq
  | 17 => some .jgt
  | 18 => some .jlw
  | 19 => some .call
  | 20 => some .ret
  | _ => none

/-- R77, R81: the end-of-program sentinel, special only as an opcode word. -/
def sentinelWord : Word := wrap (-1)

/-- Why a list of words is no instruction. -/
inductive DecodeError where
  | sentinel               -- R77: the opcode word is `-1`
  | badOpcode (w : Word)   -- R77: the opcode word is not in 0..20 and not `-1`
  | missingWord            -- R70, R76: the list ends before the instruction does
deriving DecidableEq, Repr, Inhabited

/-- The operand words of format `R` and `M`. -/
def takeOne (mk : Word → Instr) : List Word → Except DecodeError Instr
  | a :: _ => .ok (mk a)
  | [] => .error .missingWord

/-- The operand words of the three-word formats. -/
def takeTwo (mk : Word → Word → Instr) : List Word → Except DecodeError Instr
  | a :: b :: _ => .ok (mk a b)
  | [_] => .error .missingWord
  | [] => .error .missingWord

/-- The operand words of format `RRM`. -/
def takeThree (mk : Word → Word → Word → Instr) : List Word → Except DecodeError Instr
  | a :: b :: c :: _ => .ok (mk a b c)
  | [_, _] => .error .missingWord
  | [_] => .error .missingWord
  | [] => .error .missingWord

/-- R72, R73: the operands of an opcode, one whole word each, in signature order. -/
def decodeOperands : Opcode → List Word → Except DecodeError Instr
  | .addRegReg => takeTwo fun rA rB => .addRegReg (.ofWord rA) (.ofWord rB)
  | .addMemReg => takeTwo fun a rA => .addMemReg a (.ofWord rA)
  | .addRegMem => takeTwo fun rA a => .addRegMem (.ofWord rA) a
  | .subRegReg => takeTwo fun rA rB => .subRegReg (.ofWord rA) (.ofWord rB)
  | .subMemReg => takeTwo fun a rA => .subMemReg a (.ofWord rA)
  | .subRegMem => takeTwo fun rA a => .subRegMem (.ofWord rA) a
  | .moveMemReg => takeTwo fun a rA => .moveMemReg a (.ofWord rA)
  | .moveRegMem => takeTwo fun rA a => .moveRegMem (.ofWord rA) a
  | .moveRegReg => takeTwo fun rA rB => .moveRegReg (.ofWord rA) (.ofWord rB)
  | .moveImmReg => takeTwo fun imm rA => .moveImmReg imm (.ofWord rA)
  | .incReg => takeOne fun rA => .incReg (.ofWord rA)
  | .incMem => takeOne .incMem
  | .jmp => takeOne .jmp
  | .jn => takeOne .jn
  | .jz => takeOne .jz
  | .jnz => takeOne .jnz
  | .jeq => takeThree fun rA rB a => .jeq (.ofWord rA) (.ofWord rB) a
  | .jgt => takeThree fun rA rB a => .jgt (.ofWord rA) (.ofWord rB) a
  | .jlw => takeThree fun rA rB a => .jlw (.ofWord rA) (.ofWord rB) a
  | .call => takeOne .call
  | .ret => fun _ => .ok .ret

/-- R70, R74, R77: the instruction at the front of a list of words. Words after it are not looked at. -/
def decode : List Word → Except DecodeError Instr
  | [] => .error .missingWord
  | op :: operands =>
    if op = sentinelWord then .error .sentinel
    else
      match Opcode.ofWord op with
      | some o => decodeOperands o operands
      | none => .error (.badOpcode op)

/-- R72, R73: the operand words of an instruction. -/
def Instr.operandWords : Instr → List Word
  | .addRegReg rA rB => [rA.word, rB.word]
  | .addMemReg a rA => [a, rA.word]
  | .addRegMem rA a => [rA.word, a]
  | .subRegReg rA rB => [rA.word, rB.word]
  | .subMemReg a rA => [a, rA.word]
  | .subRegMem rA a => [rA.word, a]
  | .moveMemReg a rA => [a, rA.word]
  | .moveRegMem rA a => [rA.word, a]
  | .moveRegReg rA rB => [rA.word, rB.word]
  | .moveImmReg imm rA => [imm, rA.word]
  | .incReg rA => [rA.word]
  | .incMem a => [a]
  | .jmp a => [a]
  | .jn a => [a]
  | .jz a => [a]
  | .jnz a => [a]
  | .jeq rA rB a => [rA.word, rB.word, a]
  | .jgt rA rB a => [rA.word, rB.word, a]
  | .jlw rA rB a => [rA.word, rB.word, a]
  | .call a => [a]
  | .ret => []

/-- R70, R72: the words of an instruction. -/
def encode (i : Instr) : List Word := i.opcode.word :: i.operandWords

/-- The longest instruction has four words (R70). -/
def maxWords : Nat := 4

/-- The words of a bit string numbered as spec/opcode_table.json numbers it: word `k` is bits `32k+31 .. 32k`, and
every bit from `nbits` up is 0. A word is one memory cell, so no byte order enters (R57). -/
def tableWords (nbits w : Nat) : List Word :=
  (List.range maxWords).map fun k => BitVec.ofNat 32 (w % 2 ^ nbits / 2 ^ (32 * k))

/-- The instruction that the decoder reads from the instruction whose bits are `w`, `nbits` of them. -/
def decodeTableWord (nbits w : Nat) : Option Instr :=
  match decode (tableWords nbits w) with
  | .ok i => some i
  | .error _ => none

end Sys2Proof
end

