-- ==== Sys2Proof/Machine/Operands.lean ====
section
/-!
DEFINITION. Fetching the operand words of an instruction (spec/40_datapath_cycle.md R131, R132, R138). `exec` is given
the decoded operands; what is left of `FetchWord` and `FetchReg` is the range check of the operand's address, the
advance of PC by one, and the checks of the operand itself, in signature order. Each either goes on or halts, and a
halt keeps what was done before it.
-/
namespace Sys2Proof.Machine

/-- R131: `FetchWord()`. Halts with `HALT_OPERAND_RANGE` when the operand word is not in memory; PC then stays. -/
def fetchWord (s : State) (k : State → Result) : Result :=
  if s.mem.InRange s.pc then k (s.setPc (s.pc + 1)) else raiseHalt .haltOperandRange s

/-- R34, R125: the demultiplexer set to a register id. -/
def State.setDemux (s : State) (w : Word) : State := { s with dp := { s.dp with demux := w } }

/-- R132: `FetchReg()`. Halts with `FAULT_BAD_REGISTER` when the word selects no register; PC is then past it. -/
def fetchReg (o : RegOperand) (s : State) (k : RegId → State → Result) : Result :=
  fetchWord s fun s =>
    match o with
    | .reg r => k r (s.setDemux r.word)
    | .illegal _ => raiseHalt .faultBadRegister s

/-- R52, R138: a mem operand of a data instruction: its word is fetched and its address checked at once. -/
def fetchAddr (a : Word) (s : State) (k : State → Result) : Result :=
  fetchWord s fun s =>
    if s.mem.InRange a then k s else raiseHalt .haltDataRange s

/-- R138: a mem operand that is read, as in `v <- MemRead(a, 1)` right after its word is fetched. -/
def fetchCell (a : Word) (s : State) (k : Word → State → Result) : Result :=
  fetchAddr a s fun s => k (s.mem.read a) s

end Sys2Proof.Machine
end

