-- ==== Sys2Proof/Machine/AddSub.lean ====
section
/-!
DEFINITION. ADD and SUB, ids 0 to 5 (spec/41_add_sub.md R150 to R158). Each meaning starts with PC at the first operand
word, as the spec's pseudocode does, and follows it line by line.
-/
namespace Sys2Proof.Machine

/-- R151: the end of a form whose destination is a register: `x[r] <- res; SetFlags(res)`. -/
def State.writeReg (s : State) (r : RegId) (res : Word) : State := (s.setX r res).setFlags res

/-- R151: the end of a form whose destination is a memory cell: `MemWrite(a, 1, res); SetFlags(res)`. -/
def State.writeCell (s : State) (a res : Word) : State := (s.store a res).setFlags res

/-- R152: `regB <- regA + regB`. -/
def execAddRegReg (rA rB : RegOperand) (s : State) : Result :=
  fetchReg rA s fun rA s =>
  fetchReg rB s fun rB s =>
  .next (s.writeReg rB (addWrap (s.x rA) (s.x rB)))

/-- R153: `regA <- mem[a] + regA`. -/
def execAddMemReg (a : Word) (rA : RegOperand) (s : State) : Result :=
  fetchCell a s fun v s =>
  fetchReg rA s fun rA s =>
  .next (s.writeReg rA (addWrap v (s.x rA)))

/-- R154: `mem[a] <- regA + mem[a]`. -/
def execAddRegMem (rA : RegOperand) (a : Word) (s : State) : Result :=
  fetchReg rA s fun rA s =>
  fetchCell a s fun v s =>
  .next (s.writeCell a (addWrap (s.x rA) v))

/-- R155: `regB <- regA - regB`. -/
def execSubRegReg (rA rB : RegOperand) (s : State) : Result :=
  fetchReg rA s fun rA s =>
  fetchReg rB s fun rB s =>
  .next (s.writeReg rB (subWrap (s.x rA) (s.x rB)))

/-- R156: `regA <- mem[a] - regA`. -/
def execSubMemReg (a : Word) (rA : RegOperand) (s : State) : Result :=
  fetchCell a s fun v s =>
  fetchReg rA s fun rA s =>
  .next (s.writeReg rA (subWrap v (s.x rA)))

/-- R157: `mem[a] <- regA - mem[a]`. -/
def execSubRegMem (rA : RegOperand) (a : Word) (s : State) : Result :=
  fetchReg rA s fun rA s =>
  fetchCell a s fun v s =>
  .next (s.writeCell a (subWrap (s.x rA) v))

end Sys2Proof.Machine
end

