-- ==== Sys2Proof/Machine/CallRet.lean ====
section
/-!
DEFINITION. CALL and RET, ids 19 and 20 (spec/45_call_ret.md R210 to R217).
-/
namespace Sys2Proof.Machine

/-- R212: the address after the operand is pushed, then `PC <- t`. -/
def execCall (t : Word) (s : State) : Result :=
  fetchWord s fun s =>
  pushWord s.pc s fun s =>
  flagsAfterCtl (s.setPc t)

/-- R215: the popped word goes to PC. -/
def execRet (s : State) : Result :=
  popWord s fun ra s =>
  flagsAfterCtl (s.setPc ra)

end Sys2Proof.Machine
end

