-- ==== Sys2Proof/Machine/Inc.lean ====
section
/-!
DEFINITION. INC, ids 10 and 11 (spec/43_inc.md R180 to R183).
-/
namespace Sys2Proof.Machine

/-- R181: `regA <- regA + 1`. -/
def execIncReg (rA : RegOperand) (s : State) : Result :=
  fetchReg rA s fun rA s =>
  .next (s.writeReg rA (incWrap (s.x rA)))

/-- R182: `mem[a] <- mem[a] + 1`. -/
def execIncMem (a : Word) (s : State) : Result :=
  fetchCell a s fun v s =>
  .next (s.writeCell a (incWrap v))

end Sys2Proof.Machine
end

