-- ==== Sys2Proof/Machine/Jump.lean ====
section
/-!
DEFINITION. Jumps, ids 12 to 18 (spec/44_jump.md R190 to R200). The mem operand is the target itself and is not checked
(R191). Every conditional jump goes through the status-selection memory (R190); after the target word is fetched, PC is
the fall-through address.
-/
namespace Sys2Proof.Machine

/-- R192: `PC <- t`. -/
def execJmp (t : Word) (s : State) : Result :=
  fetchWord s fun s =>
  .next (s.setPc t)

/-- R193: taken iff N is set. -/
def execJn (t : Word) (s : State) : Result :=
  fetchWord s fun s =>
  .next (s.selectPc s.flags.n t)

/-- R194: taken iff Z is set. -/
def execJz (t : Word) (s : State) : Result :=
  fetchWord s fun s =>
  .next (s.selectPc s.flags.z t)

/-- R195: taken iff Z is clear. -/
def execJnz (t : Word) (s : State) : Result :=
  fetchWord s fun s =>
  .next (s.selectPc (!s.flags.z) t)

/-- R197: taken iff the registers are equal. -/
def execJeq (rA rB : RegOperand) (t : Word) (s : State) : Result :=
  fetchReg rA s fun rA s =>
  fetchReg rB s fun rB s =>
  fetchWord s fun s =>
  flagsAfterCtl (s.selectPc (eqBit (s.x rA) (s.x rB)) t)

/-- R198: taken iff the first register is greater; a draw when the difference overflows. -/
def execJgt (rA rB : RegOperand) (t : Word) (s : State) : Result :=
  fetchReg rA s fun rA s =>
  fetchReg rB s fun rB s =>
  fetchWord s fun s =>
  gtBit (s.x rA) (s.x rB) s fun c s =>
  flagsAfterCtl (s.selectPc c t)

/-- R199: taken iff the first register is lower; a draw when the difference overflows. -/
def execJlw (rA rB : RegOperand) (t : Word) (s : State) : Result :=
  fetchReg rA s fun rA s =>
  fetchReg rB s fun rB s =>
  fetchWord s fun s =>
  lwBit (s.x rA) (s.x rB) s fun c s =>
  flagsAfterCtl (s.selectPc c t)

end Sys2Proof.Machine
end

