-- ==== Sys2Proof/Machine/Move.lean ====
section
/-!
DEFINITION. MOVE, ids 6 to 9 (spec/42_move.md R170 to R175). A whole word is copied, unchanged; no flag is written.
-/
namespace Sys2Proof.Machine

/-- R171: `regA <- mem[a]`. -/
def execMoveMemReg (a : Word) (rA : RegOperand) (s : State) : Result :=
  fetchCell a s fun v s =>
  fetchReg rA s fun rA s =>
  .next (s.setX rA v)

/-- R172: `mem[a] <- regA`. -/
def execMoveRegMem (rA : RegOperand) (a : Word) (s : State) : Result :=
  fetchReg rA s fun rA s =>
  fetchAddr a s fun s =>
  .next (s.store a (s.x rA))

/-- R173: `regB <- regA`. -/
def execMoveRegReg (rA rB : RegOperand) (s : State) : Result :=
  fetchReg rA s fun rA s =>
  fetchReg rB s fun rB s =>
  .next (s.setX rB (s.x rA))

/-- R174, R175: `regA <- imm`, the operand word unchanged. -/
def execMoveImmReg (imm : Word) (rA : RegOperand) (s : State) : Result :=
  fetchWord s fun s =>
  fetchReg rA s fun rA s =>
  .next (s.setX rA imm)

end Sys2Proof.Machine
end

