-- ==== Sys2Proof/Machine/Dispatch.lean ====
section
/-!
DEFINITION. The dispatch of a decoded instruction to its meaning (spec/30_encoding.md R74, spec/40_datapath_cycle.md R133).
-/
namespace Sys2Proof.Machine

def exec (i : Instr) (s : State) : Host.Outcome State Fault Refusal :=
  match i with
  | .addRegReg rA rB => Sys2Proof.Machine.execAddRegReg rA rB s
  | .addMemReg a rA => Sys2Proof.Machine.execAddMemReg a rA s
  | .addRegMem rA a => Sys2Proof.Machine.execAddRegMem rA a s
  | .subRegReg rA rB => Sys2Proof.Machine.execSubRegReg rA rB s
  | .subMemReg a rA => Sys2Proof.Machine.execSubMemReg a rA s
  | .subRegMem rA a => Sys2Proof.Machine.execSubRegMem rA a s
  | .moveMemReg a rA => Sys2Proof.Machine.execMoveMemReg a rA s
  | .moveRegMem rA a => Sys2Proof.Machine.execMoveRegMem rA a s
  | .moveRegReg rA rB => Sys2Proof.Machine.execMoveRegReg rA rB s
  | .moveImmReg imm rA => Sys2Proof.Machine.execMoveImmReg imm rA s
  | .incReg rA => Sys2Proof.Machine.execIncReg rA s
  | .incMem a => Sys2Proof.Machine.execIncMem a s
  | .jmp a => Sys2Proof.Machine.execJmp a s
  | .jn a => Sys2Proof.Machine.execJn a s
  | .jz a => Sys2Proof.Machine.execJz a s
  | .jnz a => Sys2Proof.Machine.execJnz a s
  | .jeq rA rB a => Sys2Proof.Machine.execJeq rA rB a s
  | .jgt rA rB a => Sys2Proof.Machine.execJgt rA rB a s
  | .jlw rA rB a => Sys2Proof.Machine.execJlw rA rB a s
  | .call a => Sys2Proof.Machine.execCall a s
  | .ret => Sys2Proof.Machine.execRet s

end Sys2Proof.Machine
end

