-- ==== Sys2Proof/Machine/Cycle.lean ====
section
/-!
DEFINITION. The control unit's cycle (spec/40_datapath_cycle.md R130, R133 to R135): fetch, decode and dispatch, and what
is left after an instruction.
-/
namespace Sys2Proof.Machine

/-- R26, R130: the opcode word in IR, PC advanced by one, DECODE_EXECUTE next. -/
def State.fetched (s : State) : State :=
  { s with ir := s.mem.read s.pc, pc := s.pc + 1, fsm := .decodeExecute }

/-- R130: `Fetch()`. Halts with `HALT_PC_RANGE`, PC and IR unchanged, when PC is not in memory. -/
def fetchOpcode (s : State) (k : State → Result) : Result :=
  if s.mem.InRange s.pc then k s.fetched else raiseHalt .haltPcRange s

/-- R70, R139: the words the decoder is given after the opcode has been fetched: the opcode from IR and the words that
PC goes on to. An operand word that does not exist is read here as 0 or whatever lies there; the meaning halts with
`HALT_OPERAND_RANGE` at that operand before it uses it (R131). -/
def State.instrWords (s : State) : List Word := s.ir :: s.mem.readMany s.pc (maxWords - 1)

/-- R133: `DecodeExecute()`, up to the return to FETCH. The arm `missingWord` is never reached: `instrWords` has the
length of the longest instruction. -/
def decodeExecute (s : State) : Result :=
  match decode s.instrWords with
  | .ok i => exec i s
  | .error .sentinel => raiseHalt .haltSentinel s
  | .error (.badOpcode _) => raiseHalt .haltBadOpcode s
  | .error .missingWord => raiseHalt .haltOperandRange s

/-- R38 (decision D19): the datapath after an instruction, unspecified, so drawn afresh. -/
def freeDatapath (k : Nat) : Datapath :=
  { extBus := Config.freeWord .extBus k
    intBus := Config.freeWord .intBus k
    aluBus := Config.freeWord .aluBus k
    a0 := Config.freeWord .a0 k
    a1 := Config.freeWord .a1 k
    demux := Config.freeWord .demux k
    memLatch := { phase := if Config.freeBit .memPhase k then .data else .addr, addr := Config.freeWord .memAddr k }
    selLatch := { phase := if Config.freeBit .selPhase k then .data else .addr, addr := Config.freeWord .selAddr k } }

/-- R133, R134: the control unit goes back to FETCH after a handler that has not halted. -/
def Fsm.afterHandler : Fsm → Fsm
  | .fetch => .fetch
  | .decodeExecute => .fetch
  | .halted => .halted

/-- R38, R133, R134: the end of an instruction step. -/
def State.settle (s : State) : State :=
  { s with fsm := s.fsm.afterHandler, dp := freeDatapath s.draws, draws := s.draws + 1 }

/-- `settle` on the outcome of a handler. -/
def settleResult : Result → Result
  | .next s => .next s.settle
  | .fault r => .fault r
  | .refused r => .refused r

/-- R135: `Fetch(); DecodeExecute()`, as one transition. -/
def runInstr (s : State) : Result := settleResult (fetchOpcode s decodeExecute)

end Sys2Proof.Machine
end

