-- ==== Sys2Proof/Machine/Step.lean ====
section
/-!
DEFINITION. One step of the machine (spec/40_datapath_cycle.md R135, R136), and the placing of an instruction where the
next step fetches it.
-/
namespace Sys2Proof.Machine

/-- R135, R136: a step is defined only at FETCH; HALTED is final. -/
def step (s : State) : Host.Outcome State Fault Refusal :=
  match s.fsm with
  | .fetch => runInstr s
  | .decodeExecute => .fault .betweenPhases
  | .halted => .fault .alreadyHalted

/-- The instruction whose bits are `w` stored at PC, four words, those above `nbits` zero. Nothing else changes. -/
def State.withFetchWord (s : State) (nbits w : Nat) : State :=
  { s with mem := s.mem.writeMany s.pc (tableWords nbits w) }

end Sys2Proof.Machine
end

