-- ==== Sys2Proof/Machine/Datapath.lean ====
section
/-!
DEFINITION. The datapath at the register-transfer level (spec/40_datapath_cycle.md R120 to R128): buses, register
transfers, the ALU, the two-call memory protocol, the demultiplexer and the status-selection memory, each as a
micro-operation on the state. The instruction-level meanings do not use this file (R38, decision D19): it says what a
micro-sequence is built from, and R128 says when one implements an instruction. The source gives no sequence; the ones
at the end of this file are the model's own (notes/assumptions/13.md).
-/
namespace Sys2Proof.Machine

/-- R33: the two system buses and the ALU's private bus. -/
inductive Bus where
  | ext
  | int
  | alu
deriving DecidableEq, Repr, Inhabited

/-- R121: the one-word registers wired to the buses. -/
inductive StorageReg where
  | x (r : RegId)
  | pc
  | ir
deriving DecidableEq, Repr, Inhabited

/-- R121: the buses a register is wired to. The source does not say which (spec/91 N2), so an operation is given
them; a register wired to one bus has both the same. -/
structure Wiring where
  ext : Bus
  int : Bus
deriving DecidableEq, Repr, Inhabited

/-- R32: the ALU's two internal registers. -/
inductive AluReg where
  | a0
  | a1
deriving DecidableEq, Repr, Inhabited

/-- R120 to R126: the micro-operations. -/
inductive MicroOp where
  | put (b : Bus) (v : Word)                           -- R120
  | store (w : Wiring) (q : StorageReg)                -- R121
  | read (w : Wiring) (q : StorageReg)                 -- R121
  | internalStore (w : Wiring) (q : StorageReg)        -- R121
  | internalRead (w : Wiring) (q : StorageReg)         -- R121
  | setFlags (b : Bus)                                 -- R122
  | aluAdd                                             -- R123
  | aluSub                                             -- R123
  | aluInc                                             -- R123
  | aluStore (i : AluReg) (b : Bus)                    -- R123
  | aluRead (i : AluReg) (b : Bus)                     -- R123
  | aluInternalStore (i : AluReg)                      -- R123
  | aluInternalRead (i : AluReg)                       -- R123
  | memRead (reason : Status)                          -- R124
  | memStore (reason : Status)                         -- R124
  | demuxStore (b : Bus)                               -- R125
  | demuxRegRead (w : Wiring)                          -- R125
  | demuxRegStore (w : Wiring)                         -- R125
  | demuxRegInternalRead (w : Wiring)                  -- R121, R125
  | demuxRegInternalStore (w : Wiring)                 -- R121, R125
  | selRead (reason : Status)                          -- R126
  | selStore (reason : Status)                         -- R126
deriving DecidableEq, Repr, Inhabited

/-- R120: `get(bus)`. -/
def State.get (s : State) : Bus → Word
  | .ext => s.dp.extBus
  | .int => s.dp.intBus
  | .alu => s.dp.aluBus

/-- R120: `put(bus, v)`. -/
def State.put (s : State) (b : Bus) (v : Word) : State :=
  match b with
  | .ext => { s with dp := { s.dp with extBus := v } }
  | .int => { s with dp := { s.dp with intBus := v } }
  | .alu => { s with dp := { s.dp with aluBus := v } }

/-- The word of a storage register. -/
def State.getReg (s : State) : StorageReg → Word
  | .x r => s.x r
  | .pc => s.pc
  | .ir => s.ir

/-- A storage register written. -/
def State.putReg (s : State) (q : StorageReg) (v : Word) : State :=
  match q with
  | .x r => s.setX r v
  | .pc => s.setPc v
  | .ir => { s with ir := v }

/-- The word of an ALU register. -/
def State.getAlu (s : State) : AluReg → Word
  | .a0 => s.dp.a0
  | .a1 => s.dp.a1

/-- An ALU register written. -/
def State.putAlu (s : State) (i : AluReg) (v : Word) : State :=
  match i with
  | .a0 => { s with dp := { s.dp with a0 := v } }
  | .a1 => { s with dp := { s.dp with a1 := v } }

/-- R124: the main memory's latch written. -/
def State.setMemLatch (s : State) (l : Latch) : State := { s with dp := { s.dp with memLatch := l } }

/-- R124, R126: the status-selection memory's latch written. -/
def State.setSelLatch (s : State) (l : Latch) : State := { s with dp := { s.dp with selLatch := l } }

/-- R124: one call of `read` on the main memory. The first call of a pair takes the address from the external bus,
the second puts the cell's word on it. -/
def State.memRead (s : State) (reason : Status) : State :=
  match s.dp.memLatch.phase with
  | .addr => s.setMemLatch { phase := .data, addr := s.get .ext }
  | .data =>
    if s.mem.InRange s.dp.memLatch.addr then
      (s.put .ext (s.mem.read s.dp.memLatch.addr)).setMemLatch { s.dp.memLatch with phase := .addr }
    else s.halt reason

/-- R124: one call of `store` on the main memory. -/
def State.memStore (s : State) (reason : Status) : State :=
  match s.dp.memLatch.phase with
  | .addr => s.setMemLatch { phase := .data, addr := s.get .ext }
  | .data =>
    if s.mem.InRange s.dp.memLatch.addr then
      (s.store s.dp.memLatch.addr (s.get .ext)).setMemLatch { s.dp.memLatch with phase := .addr }
    else s.halt reason

/-- R54, R126: the two addresses of the status-selection memory, as a bit. -/
def selIndex (a : Word) : Option Bool :=
  match a.toNat with
  | 0 => some false
  | 1 => some true
  | _ => none

/-- R36: one cell of the status-selection memory written. -/
def Sel.write (m : Sel) (b : Bool) (v : Word) : Sel :=
  if b then { m with slot1 := v } else { m with slot0 := v }

/-- R124, R126: one call of `read` on the status-selection memory. -/
def State.selRead (s : State) (reason : Status) : State :=
  match s.dp.selLatch.phase with
  | .addr => s.setSelLatch { phase := .data, addr := s.get .ext }
  | .data =>
    match selIndex s.dp.selLatch.addr with
    | some b => (s.put .ext (s.sel.read b)).setSelLatch { s.dp.selLatch with phase := .addr }
    | none => s.halt reason

/-- R124, R126: one call of `store` on the status-selection memory. -/
def State.selStore (s : State) (reason : Status) : State :=
  match s.dp.selLatch.phase with
  | .addr => s.setSelLatch { phase := .data, addr := s.get .ext }
  | .data =>
    match selIndex s.dp.selLatch.addr with
    | some b =>
      let s' := { s with sel := s.sel.write b (s.get .ext) }
      s'.setSelLatch { s.dp.selLatch with phase := .addr }
    | none => s.halt reason

/-- R23, R125: the register that the demultiplexer selects; an index outside 0..5 selects nothing and halts. -/
def State.withDemuxReg (s : State) (k : RegId → State) : State :=
  match RegId.ofWord s.dp.demux with
  | some r => k r
  | none => s.halt .faultBadRegister

/-- R120 to R126: what a micro-operation does in a machine that has not halted. -/
def MicroOp.act (s : State) : MicroOp → State
  | .put b v => s.put b v
  | .store w q => s.putReg q (s.get w.ext)
  | .read w q => s.put w.ext (s.getReg q)
  | .internalStore w q => s.putReg q (s.get w.int)
  | .internalRead w q => s.put w.int (s.getReg q)
  | .setFlags b => s.setFlags (s.get b)
  | .aluAdd => s.putAlu .a1 (addWrap s.dp.a0 s.dp.a1)
  | .aluSub => s.putAlu .a1 (subWrap s.dp.a0 s.dp.a1)
  | .aluInc => s.putAlu .a1 (incWrap s.dp.a1)
  | .aluStore i b => s.putAlu i (s.get b)
  | .aluRead i b => s.put b (s.getAlu i)
  | .aluInternalStore i => s.putAlu i (s.get .alu)
  | .aluInternalRead i => s.put .alu (s.getAlu i)
  | .memRead reason => s.memRead reason
  | .memStore reason => s.memStore reason
  | .demuxStore b => s.setDemux (s.get b)
  | .demuxRegRead w => s.withDemuxReg fun r => s.put w.ext (s.x r)
  | .demuxRegStore w => s.withDemuxReg fun r => s.setX r (s.get w.ext)
  | .demuxRegInternalRead w => s.withDemuxReg fun r => s.put w.int (s.x r)
  | .demuxRegInternalStore w => s.withDemuxReg fun r => s.setX r (s.get w.int)
  | .selRead reason => s.selRead reason
  | .selStore reason => s.selStore reason

/-- R231: nothing happens after a halt. -/
def MicroOp.run (s : State) (op : MicroOp) : State :=
  match s.fsm with
  | .halted => s
  | .fetch => op.act s
  | .decodeExecute => op.act s

/-- R127: the micro-operations of a sequence, in its order. -/
def runMicroOps (ops : List MicroOp) (s : State) : State := ops.foldl MicroOp.run s

/-- R55, R124: which call of the two-call protocol is open on a memory. -/
inductive OpenCall where
  | none
  | read
  | store
deriving DecidableEq, Repr, Inhabited

/-- R124: the phase of a latch on which this call is open. -/
def OpenCall.phase : OpenCall → Phase
  | .none => .addr
  | .read => .data
  | .store => .data

/-- R55: a call of `read` closes an open `read` and opens one when none is open. -/
def OpenCall.onRead : OpenCall → Option OpenCall
  | .none => some .read
  | .read => some .none
  | .store => Option.none

/-- R55: the same for `store`. -/
def OpenCall.onStore : OpenCall → Option OpenCall
  | .none => some .store
  | .read => Option.none
  | .store => some .none

/-- R55: every memory call of a sequence is one of a pair, none left open. -/
def wellPaired (mem sel : OpenCall) : List MicroOp → Bool
  | [] => mem == .none && sel == .none
  | .memRead _ :: ops => match mem.onRead with
    | some m => wellPaired m sel ops
    | Option.none => false
  | .memStore _ :: ops => match mem.onStore with
    | some m => wellPaired m sel ops
    | Option.none => false
  | .selRead _ :: ops => match sel.onRead with
    | some m => wellPaired mem m ops
    | Option.none => false
  | .selStore _ :: ops => match sel.onStore with
    | some m => wellPaired mem m ops
    | Option.none => false
  | _ :: ops => wellPaired mem sel ops

/-- R124, R128, U3: a micro-sequence run from the state before an instruction, both latches at ADDR. Every paired sequence
has a meaning from every state; a mis-paired one has none. DESIGN CHOICE (notes/assumptions/18.md): R124 starts a latch
at ADDR, and R38 and U7 leave its phase open after an instruction; the sequence starts at ADDR whatever that phase is,
because from ADDR paired sequences come back to ADDR, and DATA could be left only by a pair that was never closed. -/
def runMicro (ops : List MicroOp) (s : State) : Option State :=
  if wellPaired .none .none ops then some (runMicroOps ops s.latchesAtAddr) else none

/-- A register wired to the external bus alone. -/
def onExt : Wiring := { ext := .ext, int := .ext }

/-- R56: the pair of calls that collapses into `MemRead`: the address is on the external bus before, the word after. -/
def memReadSeq (reason : Status) : List MicroOp := [.memRead reason, .memRead reason]

/-- R56: the pair of calls that collapses into `MemWrite(a, 1, v)`. -/
def memWriteSeq (reason : Status) (a v : Word) : List MicroOp :=
  [.put .ext a, .memStore reason, .put .ext v, .memStore reason]

/-- R126: `PC <- Select(b, PC, t)` through the status-selection memory, with no host conditional. DESIGN CHOICE
(notes/assumptions/13.md): the spec names no transfer that brings a flag bit onto a bus, and the model has no
micro-operation that reads `Z` or `N` onto one; the bit `b`, and the target `t`, are parameters of the sequence that `put`
places on the external bus. -/
def selectSeq (b : Bool) (t : Word) : List MicroOp :=
  [.put .ext 0, .selStore .haltDataRange, .read onExt .pc, .selStore .haltDataRange,
   .put .ext 1, .selStore .haltDataRange, .put .ext t, .selStore .haltDataRange,
   .put .ext (BitVec.ofNat 32 b.toNat), .selRead .haltDataRange, .selRead .haltDataRange, .store onExt .pc]

/-- R131: the word at PC put on the external bus, kept in `A0`, and PC advanced through the ALU. -/
def fetchWordSeq : List MicroOp :=
  [.read onExt .pc] ++ memReadSeq .haltOperandRange ++ [.aluStore .a0 .ext, .read onExt .pc, .aluStore .a1 .ext, .aluInc,
    .aluRead .a1 .ext, .store onExt .pc]

/-- R132, R125: the register that the fetched word selects, put on the external bus. -/
def fetchRegSeq : List MicroOp :=
  fetchWordSeq ++ [.aluRead .a0 .ext, .demuxStore .ext, .demuxRegRead onExt]

/-- R128, R152: a micro-sequence for ADD_REG_REG after its opcode word has been fetched. The first register's word waits
on the internal bus while the second operand is fetched. -/
def addRegRegSeq : List MicroOp :=
  fetchRegSeq ++ [.aluStore .a0 .ext, .aluRead .a0 .int] ++ fetchRegSeq ++
    [.aluStore .a1 .ext, .aluStore .a0 .int, .aluAdd, .aluRead .a1 .ext, .demuxRegStore onExt, .setFlags .ext]

end Sys2Proof.Machine
end

