-- ==== Sys2Proof/Machine/Assembler.lean ====
section
/-!
DEFINITION. The two-pass assembler (spec/30_encoding.md R90 to R116), a total function from source lines and the memory
size to an executable word list or a named failure. Text is a list of characters.
-/
namespace Sys2Proof.Machine

/-- A line or a name of the source text. -/
abbrev Text := List Char

/-- R97, R112, R115: why an assembly fails. -/
inductive AsmError where
  | parse (line : Nat) (raw : Text)   -- R97: the 1-based raw line number and the raw text
  | link (symbol : Text)              -- R112, R115: the symbol named
deriving DecidableEq, Repr, Inhabited

/-- R116: a token of the object program. -/
inductive Token where
  | number (v : Int)       -- an opcode id or an immediate
  | address (name : Text)  -- `&name`
  | register (name : Text) -- `%name`
deriving DecidableEq, Repr, Inhabited

/-- R90, R97: a source line with its 1-based number, its raw text and its trimmed text. -/
structure Line where
  number : Nat
  raw : Text
  body : Text
deriving DecidableEq, Repr, Inhabited

/-- R116: the tables of passes 1 and 2. -/
structure Object where
  vars : List Text
  labels : List (Text × Nat)
  program : List Token
deriving DecidableEq, Repr, Inhabited

/-- R90: white space at the ends of a line. PRESUMED (notes/assumptions/15.md): the six ASCII white space characters. -/
def isSpace (c : Char) : Bool :=
  c = ' ' || c = '\t' || c = '\n' || c = '\r' || c = Char.ofNat 11 || c = Char.ofNat 12

/-- R90: a line without its leading and trailing white space. -/
def trim (t : Text) : Text := ((t.dropWhile isSpace).reverse.dropWhile isSpace).reverse

/-- R90: a trimmed line that is dropped: empty, or a comment. -/
def isBlank : Text → Bool
  | [] => true
  | c :: _ => c = ';'

/-- R91: ASCII letters. -/
def isLetter (c : Char) : Bool := ('a' ≤ c && c ≤ 'z') || ('A' ≤ c && c ≤ 'Z')

/-- R91, R94: ASCII digits. -/
def isDigit (c : Char) : Bool := '0' ≤ c && c ≤ '9'

/-- R91: the pattern `[A-Za-z][A-Za-z0-9]*`. -/
def isIdent : Text → Bool
  | [] => false
  | c :: cs => isLetter c && cs.all fun d => isLetter d || isDigit d

/-- R90: the lines numbered from `n`, trimmed. -/
def numberLines (n : Nat) : List Text → List Line
  | [] => []
  | t :: ts => { number := n, raw := t, body := trim t } :: numberLines (n + 1) ts

/-- R90: the lines the assembler works over. -/
def sourceLines (lines : List Text) : List Line := (numberLines 1 lines).filter fun l => !isBlank l.body

/-- R91, R92: pass 1. The leading bare identifiers are variable declarations. -/
def pass1 : List Line → List Text × List Line
  | [] => ([], [])
  | l :: ls =>
    if isIdent l.body then
      let (vars, rest) := pass1 ls
      (l.body :: vars, rest)
    else ([], l :: ls)

/-- R93: the name of a label line, an identifier followed at once by `:` and nothing else. -/
def labelName (t : Text) : Option Text :=
  match t.reverse with
  | ':' :: r => if isIdent r.reverse then some r.reverse else none
  | _ => none

/-- R94: what separates the tokens of an instruction line. -/
def isTokenSpace (c : Char) : Bool := c = ' ' || c = '\t'

/-- R94: a line split on runs of spaces and tabs; `cur` is the token being read, in reverse. -/
def splitTokens (cur : Text) : Text → List Text
  | [] => if cur.isEmpty then [] else [cur.reverse]
  | c :: cs =>
    if isTokenSpace c then
      if cur.isEmpty then splitTokens [] cs else cur.reverse :: splitTokens [] cs
    else splitTokens (c :: cur) cs

/-- The value of a digit. -/
def digitValue (c : Char) : Nat := c.toNat - '0'.toNat

/-- The value of a run of decimal digits. -/
def decimalValue (ds : Text) : Nat := ds.foldl (fun n c => 10 * n + digitValue c) 0

/-- One or more decimal digits. -/
def unsignedLiteral (t : Text) : Option Int :=
  if !t.isEmpty && t.all isDigit then some (decimalValue t) else none

/-- R94 (decision D13): `-?[0-9]+`. -/
def signedLiteral : Text → Option Int
  | '-' :: t => (unsignedLiteral t).map fun v => -v
  | t => unsignedLiteral t

/-- R94: an operand token with its kind. -/
def classify (t : Text) : Option (OperandKind × Token) :=
  match t with
  | '%' :: name => if isIdent name then some (.reg, .register name) else none
  | _ =>
    if isIdent t then some (.mem, .address t)
    else
      match signedLiteral t with
      | some v => if FitsWord v then some (.imm, .number v) else none
      | none => none

/-- R94: the operand tokens of a line, none when one of them is no token. -/
def classifyAll : List Text → Option (List (OperandKind × Token))
  | [] => some []
  | t :: ts =>
    match classify t, classifyAll ts with
    | some o, some os => some (o :: os)
    | some _, none => none
    | none, _ => none

/-- R95 (decision D12): the mnemonic of an opcode. -/
def mnemonicText : Opcode → Text
  | .addRegReg => ['a', 'd', 'd']
  | .addMemReg => ['a', 'd', 'd']
  | .addRegMem => ['a', 'd', 'd']
  | .subRegReg => ['s', 'u', 'b']
  | .subMemReg => ['s', 'u', 'b']
  | .subRegMem => ['s', 'u', 'b']
  | .moveMemReg => ['m', 'o', 'v', 'e']
  | .moveRegMem => ['m', 'o', 'v', 'e']
  | .moveRegReg => ['m', 'o', 'v', 'e']
  | .moveImmReg => ['m', 'o', 'v', 'e']
  | .incReg => ['i', 'n', 'c']
  | .incMem => ['i', 'n', 'c']
  | .jmp => ['j', 'm', 'p']
  | .jn => ['j', 'n']
  | .jz => ['j', 'z']
  | .jnz => ['j', 'n', 'z']
  | .jeq => ['j', 'e', 'q']
  | .jgt => ['j', 'g', 't']
  | .jlw => ['j', 'l', 'w']
  | .call => ['c', 'a', 'l', 'l']
  | .ret => ['r', 'e', 't']

/-- R74: the opcodes in the table's order. -/
def allOpcodes : List Opcode :=
  [.addRegReg, .addMemReg, .addRegMem, .subRegReg, .subMemReg, .subRegMem, .moveMemReg, .moveRegMem, .moveRegReg,
   .moveImmReg, .incReg, .incMem, .jmp, .jn, .jz, .jnz, .jeq, .jgt, .jlw, .call, .ret]

/-- R95: the opcode of a mnemonic with operands of the given kinds. -/
def matchSignature (m : Text) (kinds : List OperandKind) : Option Opcode :=
  allOpcodes.find? fun o => decide (mnemonicText o = m) && decide (o.format.kinds = kinds)

/-- R94: the tokens that an instruction line emits: the opcode id, then the operands. -/
def instrTokens (t : Text) : Option (List Token) :=
  match splitTokens [] t with
  | [] => none
  | m :: operands =>
    match classifyAll operands with
    | none => none
    | some os =>
      match matchSignature m (os.map Prod.fst) with
      | none => none
      | some o => some (.number o.word.toInt :: os.map Prod.snd)

/-- R93, R94, R97: pass 2, with `offset` object-program words emitted so far. -/
def pass2 (offset : Nat) : List Line → Except AsmError (List (Text × Nat) × List Token)
  | [] => .ok ([], [])
  | l :: ls =>
    match labelName l.body with
    | some name =>
      match pass2 offset ls with
      | .ok (labels, program) => .ok ((name, offset) :: labels, program)
      | .error e => .error e
    | none =>
      match instrTokens l.body with
      | none => .error (.parse l.number l.raw)
      | some toks =>
        match pass2 (offset + toks.length) ls with
        | .ok (labels, program) => .ok (labels, toks ++ program)
        | .error e => .error e

/-- R91, R93, R94: passes 1 and 2. -/
def parse (lines : List Text) : Except AsmError Object :=
  let (vars, rest) := pass1 (sourceLines lines)
  match pass2 0 rest with
  | .ok (labels, program) => .ok { vars := vars, labels := labels, program := program }
  | .error e => .error e

/-- R99, R110: the length of the prologue. -/
def prologueLength : Nat := 6

/-- The place of a name in a list. -/
def indexOf (name : Text) : List Text → Option Nat
  | [] => none
  | n :: ns => if n = name then some 0 else (indexOf name ns).map (· + 1)

/-- The offset recorded for a label. -/
def labelOffset (name : Text) : List (Text × Nat) → Option Nat
  | [] => none
  | (n, k) :: rest => if n = name then some k else labelOffset name rest

/-- R98, R99: the address of a name: variable `i` at `memSize - 1 - i`, a label at its offset plus the prologue. -/
def addressOf (memSize : Nat) (ob : Object) (name : Text) : Option Int :=
  match indexOf name ob.vars with
  | some i => some ((memSize : Int) - 1 - i)
  | none => (labelOffset name ob.labels).map fun k => ((k + prologueLength : Nat) : Int)

/-- R96 (decisions D3, D4): the register of a name. -/
def regNamed (name : Text) : Option RegId :=
  if name = ['r', 'e', 'g', '0'] then some .reg0
  else if name = ['r', 'e', 'g', '1'] then some .reg1
  else if name = ['r', 'e', 'g', '2'] then some .reg2
  else if name = ['r', 'e', 'g', '3'] then some .reg3
  else if name = ['S', 't', 'k', 'T', 'O', 'P'] then some .stkTOP
  else if name = ['S', 't', 'k', 'B', 'O', 'T'] then some .stkBOT
  else none

/-- R111: one token resolved. -/
def resolve (memSize : Nat) (ob : Object) : Token → Except AsmError Int
  | .number v => .ok v
  | .address name =>
    match addressOf memSize ob name with
    | some a => .ok a
    | none => .error (.link name)
  | .register name =>
    match regNamed name with
    | some r => .ok r.word.toInt
    | none => .error (.link name)

/-- R111, R112: the tokens resolved in order; the first that has no meaning fails the link. -/
def resolveAll (memSize : Nat) (ob : Object) : List Token → Except AsmError (List Int)
  | [] => .ok []
  | t :: ts =>
    match resolve memSize ob t with
    | .error e => .error e
    | .ok v =>
      match resolveAll memSize ob ts with
      | .ok vs => .ok (v :: vs)
      | .error e => .error e

/-- R112 (decision D14): the first name that stands twice in a list. -/
def firstRepeated : List Text → Option Text
  | [] => none
  | n :: ns => if n ∈ ns then some n else firstRepeated ns

/-- R112 (decision D14): a name declared twice, or both as a variable and as a label. -/
def clashingName (ob : Object) : Option Text :=
  match firstRepeated ob.vars with
  | some n => some n
  | none =>
    match firstRepeated (ob.labels.map Prod.fst) with
    | some n => some n
    | none => ob.vars.find? fun n => decide (n ∈ ob.labels.map Prod.fst)

/-- R110: the prologue, `move S %StkBOT` then `move S %StkTOP` with `S = MEM_SIZE - nv`. -/
def prologue (stack : Int) : List Int := [9, stack, 5, 9, stack, 4]

/-- R115: the first variable for which the memory has no cell, when `nv > MEM_SIZE`. That it is this one that the failure
names is a DESIGN CHOICE (notes/assumptions/14.md). -/
def unplacedVariable (memSize : Nat) (ob : Object) : Option Text := ob.vars[memSize]?

/-- R111, R112, R115: linking. Every failure names a symbol (R266). -/
def link (memSize : Nat) (ob : Object) : Except AsmError (List Int) :=
  match clashingName ob with
  | some n => .error (.link n)
  | none =>
    match unplacedVariable memSize ob with
    | some n => .error (.link n)
    | none =>
      match resolveAll memSize ob ob.program with
      | .ok body => .ok (prologue ((memSize : Int) - ob.vars.length) ++ body ++ [-1])
      | .error e => .error e

/-- R113: `assemble(lines, MEM_SIZE)`. -/
def assemble (lines : List Text) (memSize : Nat) : Except AsmError (List Int) :=
  match parse lines with
  | .ok ob => link memSize ob
  | .error e => .error e

end Sys2Proof.Machine
end

