-- ==== Sys2Proof/Machine/Executable.lean ====
section
/-!
DEFINITION. The executable format (spec/30_encoding.md R71, R80, R81): newline-separated decimal integers, one for each
memory word, with no header, checksum or length field. Reading and writing files is out of scope (spec/00_scope.md R5).
-/
namespace Sys2Proof.Machine

/-- The character of a digit below 10. -/
def digitChar (n : Nat) : Char := Char.ofNat ('0'.toNat + n)

/-- The decimal digits of a number, most significant first; `fuel` bounds the number of digits. -/
def decimalDigits : Nat → Nat → Text
  | 0, _ => []
  | fuel + 1, n => if n < 10 then [digitChar n] else decimalDigits fuel (n / 10) ++ [digitChar (n % 10)]

/-- R71: a decimal integer. -/
def renderInt (v : Int) : Text :=
  if v < 0 then '-' :: decimalDigits (v.natAbs + 1) v.natAbs else decimalDigits (v.natAbs + 1) v.natAbs

/-- R71, R80: an executable as text. -/
def renderExecutable : List Int → Text
  | [] => []
  | [v] => renderInt v
  | v :: w :: vs => renderInt v ++ '\n' :: renderExecutable (w :: vs)

/-- A text split at its newlines; `cur` is the line being read, in reverse. -/
def splitLines (cur : Text) : Text → List Text
  | [] => [cur.reverse]
  | c :: cs => if c = '\n' then cur.reverse :: splitLines [] cs else splitLines (c :: cur) cs

/-- The integers of the lines, none when a line is no decimal integer. -/
def readInts : List Text → Option (List Int)
  | [] => some []
  | t :: ts =>
    match signedLiteral t, readInts ts with
    | some v, some vs => some (v :: vs)
    | some _, none => none
    | none, _ => none

/-- R71, R80: the words of an executable's text. The empty text is the executable of no words. -/
def readExecutable (t : Text) : Option (List Int) := if t.isEmpty then some [] else readInts (splitLines [] t)

end Sys2Proof.Machine
end

