-- ==== Sys2Proof/Machine/Loader.lean ====
section
/-!
DEFINITION. Reset and loading (spec/70_reset_and_hazards.md R260, R261, spec/10_state.md R45): the loader's admission of an
image, and the start state it builds, with every value that the spec leaves unspecified as an input.
-/
namespace Sys2Proof.Machine

/-- R45 (decision D5): the start values that the spec leaves unspecified, free inputs of the start state. The phases of
the latches are not among them: R124 gives them, and `State.start` takes the rest of `dp`. -/
structure StartValues where
  regs : Regs
  flags : Flags
  ir : Word
  dp : Datapath
  draws : Nat
deriving DecidableEq, Repr, Inhabited

/-- R261 (decision D17): why the loader refuses an image; no run starts. -/
inductive LoadError where
  | memSize             -- R7: `MEM_SIZE` is not in 1 .. 2^(W-1) - 1
  | tooLong             -- R261: the image has more words than the memory
  | wordRange (v : Int) -- R261: a word of the image is not a `W`-bit value
deriving DecidableEq, Repr, Inhabited

/-- R261: the first word of an image that is no word. -/
def firstOutOfRange : List Int → Option Int
  | [] => none
  | v :: vs => if FitsWord v then firstOutOfRange vs else some v

/-- R45, R260: the cells of an image placed at `a`, `a+1`, ... , in canonical form. -/
def imageCells (a : Nat) : List Int → List (Nat × Word)
  | [] => []
  | v :: vs => if wrap v = 0 then imageCells (a + 1) vs else (a, wrap v) :: imageCells (a + 1) vs

/-- R45, R260: the state before the first fetch. R124: each latch starts at ADDR, whatever `v.dp` holds there. DEDUCED
(notes/assumptions/1.md): R45's "datapath state: unspecified" does not cover the phase that R124 gives. -/
def State.start (memSize : Nat) (ctl : Config.FlagsAfterCtl) (v : StartValues) (image : List Int) : State where
  regs := v.regs
  pc := 0
  ir := v.ir
  flags := v.flags
  mem := { size := memSize, cells := imageCells 0 image }
  sel := { slot0 := 0, slot1 := 0 }
  fsm := .fetch
  status := .running
  dp := v.dp.latchesAtAddr
  flagsAfterCtl := ctl
  draws := v.draws

/-- R260, R261: `Load(image)`. -/
def load (memSize : Nat) (ctl : Config.FlagsAfterCtl) (v : StartValues) (image : List Int) : Except LoadError State :=
  if ¬ (1 ≤ memSize ∧ memSize ≤ maxMemSize) then .error .memSize
  else if memSize < image.length then .error .tooLong
  else
    match firstOutOfRange image with
    | some w => .error (.wordRange w)
    | none => .ok (State.start memSize ctl v image)

end Sys2Proof.Machine
end

