-- ==== Sys2Proof/Safety.lean ====
section
/-!
DEFINITION. What counts as a run, its end and a safe run (spec/40_datapath_cycle.md R136, R137, spec/60 R233, R239,
spec/70 R267), and the predicates on states that claims use.
-/
namespace Sys2Proof.Machine

/-- R137: the states of a run that starts in `s`: `s` itself and what steps lead to. A prefix of it is a run that the
host has stopped between two steps (R239). -/
inductive Reaches (s : State) : State → Prop where
  | refl : Reaches s s
  | step (t u : State) : Reaches s t → step t = .next u → Reaches s u

/-- R267: a state at which a run has ended. -/
def Ended (s : State) : Prop := s.fsm = .halted

/-- R233, R267: a run has ended normally. -/
def EndedNormally (s : State) : Prop := Ended s ∧ s.status = .haltSentinel

/-- R233: a run has ended abnormally. -/
def EndedAbnormally (s : State) : Prop := Ended s ∧ s.status ≠ .haltSentinel

/-- R267, R275: the run from `s` ends. -/
def Terminates (s : State) : Prop := ∃ t, Reaches s t ∧ Ended t

/-- R233: no state of the run from `s` has ended abnormally. -/
def SafeRun (s : State) : Prop := ∀ t, Reaches s t → ¬ EndedAbnormally t

/-- R24: the next `n` words at PC, the operand words of an instruction, are in memory. -/
def State.OperandsInMemory (s : State) (n : Nat) : Prop :=
  0 ≤ s.pc.toInt ∧ s.pc.toInt + n ≤ s.mem.size ∧ s.mem.size ≤ maxMemSize

/-- The invariant of the machine between two steps: the size is one that R7 admits, the memory is in canonical form, no
state is left in DECODE_EXECUTE (R134), and the status says RUNNING exactly while the machine has not halted (R42). -/
structure State.Inv (s : State) : Prop where
  size_ok : s.mem.SizeOk
  mem_wf : s.mem.wf
  between_steps : s.fsm ≠ .decodeExecute
  status_running_iff : s.status = .running ↔ s.fsm ≠ .halted

/-- R20, R26, R36, R38: two states agree on all that an instruction can observe: everything but IR, the
status-selection cells and the datapath. -/
structure State.SameVisible (s t : State) : Prop where
  regs : s.regs = t.regs
  pc : s.pc = t.pc
  flags : s.flags = t.flags
  mem : s.mem = t.mem
  fsm : s.fsm = t.fsm
  status : s.status = t.status
  flagsAfterCtl : s.flagsAfterCtl = t.flagsAfterCtl
  draws : s.draws = t.draws

/-- R20: two states agree on everything but the datapath. -/
structure State.SameArch (s t : State) : Prop where
  visible : s.SameVisible t
  ir : s.ir = t.ir
  sel : s.sel = t.sel

/-! ### What a completed instruction leaves as it was -/

/-- What no instruction but a halt or a new parameter could change: IR, the phase, the status, the parameter and the
memory size. -/
structure State.SameCore (s t : State) : Prop where
  ir : t.ir = s.ir
  fsm : t.fsm = s.fsm
  status : t.status = s.status
  flagsAfterCtl : t.flagsAfterCtl = s.flagsAfterCtl
  size : t.mem.size = s.mem.size

/-- The same, and the status-selection cells and the count of draws. -/
structure State.SameRest (s t : State) : Prop where
  core : s.SameCore t
  sel : t.sel = s.sel
  draws : t.draws = s.draws

/-- Every register is as it was. -/
def State.SameRegisters (s t : State) : Prop := ∀ q, t.x q = s.x q

/-- Every memory cell reads as it did. -/
def State.SameMemory (s t : State) : Prop := ∀ b, t.mem.read b = s.mem.read b

/-- From `s` to `t`, an instruction with `operands` operand words has written the word `v` to register `r`, gone on to
the fall-through address, and left every other register, all of memory and the rest of the state as they were. The
flags are said apart. -/
structure RegisterWritten (s t : State) (operands : Nat) (r : RegId) (v : Word) : Prop where
  pc : t.pc = s.pc + BitVec.ofNat 32 operands
  result : t.x r = v
  others : ∀ q, q ≠ r → t.x q = s.x q
  memory : s.SameMemory t
  rest : s.SameRest t

/-- The same for a word stored to the cell at `a`. -/
structure CellWritten (s t : State) (operands : Nat) (a v : Word) : Prop where
  pc : t.pc = s.pc + BitVec.ofNat 32 operands
  result : t.mem.read a = v
  others : ∀ b, b ≠ a → t.mem.read b = s.mem.read b
  registers : s.SameRegisters t
  rest : s.SameRest t

/-- R27: the flags of `t` are those of the result `v`. -/
def FlagsFrom (t : State) (v : Word) : Prop := (t.flags.z = true ↔ v = 0) ∧ (t.flags.n = true ↔ v.toInt < 0)

/-- R12, R231, R235: from `s` to `t`, an instruction has fetched `operands` operand words and then raised `Halt(r)`;
nothing else has happened. -/
structure HaltTaken (s t : State) (operands : Nat) (r : Status) : Prop where
  fsm : t.fsm = .halted
  status : t.status = r
  pc : t.pc = s.pc + BitVec.ofNat 32 operands
  ir : t.ir = s.ir
  flags : t.flags = s.flags
  registers : s.SameRegisters t
  memory : s.SameMemory t
  size : t.mem.size = s.mem.size
  sel : t.sel = s.sel
  flagsAfterCtl : t.flagsAfterCtl = s.flagsAfterCtl
  draws : t.draws = s.draws

/-- A control transfer to `target` that changes no register and no memory cell. -/
structure Transferred (s t : State) (target : Word) : Prop where
  pc : t.pc = target
  registers : s.SameRegisters t
  memory : s.SameMemory t
  core : s.SameCore t

/-- R130, R191: the step from `t` halts with `HALT_PC_RANGE`, PC, IR, registers, memory and flags unchanged. -/
def HaltsAtFetch (t : State) : Prop :=
  ∃ u, step t = .next u ∧ u.fsm = .halted ∧ u.status = .haltPcRange ∧ u.pc = t.pc ∧ u.ir = t.ir ∧ t.SameRegisters u ∧
    u.mem = t.mem ∧ u.flags = t.flags

/-- A push to the cell `StkTOP - 1` is inside the stack bound (R211). -/
abbrev State.PushAllowed (s : State) : Prop :=
  0 ≤ (s.x .stkTOP).toInt - 1 ∧ (s.x .stkTOP).toInt - 1 < min (s.x .stkBOT).toInt s.mem.size

/-- A pop of the cell `StkTOP` is inside the stack bound (R214). -/
abbrev State.PopAllowed (s : State) : Prop :=
  0 ≤ (s.x .stkTOP).toInt ∧ (s.x .stkTOP).toInt < min (s.x .stkBOT).toInt s.mem.size

/-! ### What an instruction names, read from its syntax -/

/-- R74: the register that the effect column writes, as an operand names it. CALL and RET write StkTOP unnamed. -/
def destination : Instr → Option RegOperand
  | .addRegReg _ rB => some rB
  | .addMemReg _ rA => some rA
  | .addRegMem _ _ => none
  | .subRegReg _ rB => some rB
  | .subMemReg _ rA => some rA
  | .subRegMem _ _ => none
  | .moveMemReg _ rA => some rA
  | .moveRegMem _ _ => none
  | .moveRegReg _ rB => some rB
  | .moveImmReg _ rA => some rA
  | .incReg rA => some rA
  | .incMem _ => none
  | .jmp _ => none
  | .jn _ => none
  | .jz _ => none
  | .jnz _ => none
  | .jeq _ _ _ => none
  | .jgt _ _ _ => none
  | .jlw _ _ _ => none
  | .call _ => none
  | .ret => none

/-- R53: the cell that an instruction stores to. -/
def storeAddress (s : State) : Instr → Option Word
  | .addRegReg _ _ => none
  | .addMemReg _ _ => none
  | .addRegMem _ a => some a
  | .subRegReg _ _ => none
  | .subMemReg _ _ => none
  | .subRegMem _ a => some a
  | .moveMemReg _ _ => none
  | .moveRegMem _ a => some a
  | .moveRegReg _ _ => none
  | .moveImmReg _ _ => none
  | .incReg _ => none
  | .incMem a => some a
  | .jmp _ => none
  | .jn _ => none
  | .jz _ => none
  | .jnz _ => none
  | .jeq _ _ _ => none
  | .jgt _ _ _ => none
  | .jlw _ _ _ => none
  | .call _ => some (wrap ((s.x .stkTOP).toInt - 1))
  | .ret => none

/-- R28: the eight opcodes that write the flags from their result. -/
def flagWriters : List Opcode :=
  [.addRegReg, .addMemReg, .addRegMem, .subRegReg, .subMemReg, .subRegMem, .incReg, .incMem]

/-- R28, R200: the opcodes whose flags `FLAGS_AFTER_CTL` rules. -/
def ctlFlagOpcodes : List Opcode := [.jeq, .jgt, .jlw, .call, .ret]

/-- R25: the opcodes that transfer control. -/
def controlOpcodes : List Opcode := [.jmp, .jn, .jz, .jnz, .jeq, .jgt, .jlw, .call, .ret]

end Sys2Proof.Machine
end

