-- ==== Sys2Proof/Certificates/Slice0/Obligations.lean ====
section
/-!
DEFINITION. The statements for the provers. Each says what a rule of the spec says of the machine; none rests on a value
that the model chose, unless its docstring says so.
-/
open Sys2Proof Sys2Proof.Machine

/-! ## Encoding -/

/-- R72, R74: words written out from the spec's encodings, at least one for each family and each format. -/
def Obligations.SpecWordsDecodeAsTheTableSays : Prop :=
  decode [0, 0, 1] = .ok (.addRegReg (.reg .reg0) (.reg .reg1)) ∧
  decode [1, 255, 2] = .ok (.addMemReg 255 (.reg .reg2)) ∧
  decode [5, 3, 100] = .ok (.subRegMem (.reg .reg3) 100) ∧
  decode [7, 0, 255] = .ok (.moveRegMem (.reg .reg0) 255) ∧
  decode [9, -1, 2] = .ok (.moveImmReg (-1) (.reg .reg2)) ∧
  decode [10, 4] = .ok (.incReg (.reg .stkTOP)) ∧
  decode [12, 26] = .ok (.jmp 26) ∧
  decode [17, 1, 0, 19] = .ok (.jgt (.reg .reg1) (.reg .reg0) 19) ∧
  decode [19, 15] = .ok (.call 15) ∧
  decode [20] = .ok .ret

/-- R70, R72, R73: every well-formed instruction is read back from its words, whatever stands after them. -/
def Obligations.DecodeReadsBackEveryEncodedInstruction : Prop :=
  ∀ (i : Instr) (rest : List Word), WellFormed i → decode (encode i ++ rest) = .ok i

/-- R70, R72: words that decode are the words of the instruction they decode to, so no two instructions share words. -/
def Obligations.DecodedWordsAreTheEncoding : Prop :=
  ∀ (ws : List Word) (i : Instr), decode ws = .ok i → ∃ rest, ws = encode i ++ rest

/-! ## The cycle -/

/-- R130, R133, R135: when the words at PC decode to `i`, the step is `exec i` at the state after the opcode fetch,
followed by the return to FETCH and the datapath left free (notes/assumptions/5.md). -/
def Obligations.StepRunsTheDecodedInstruction : Prop :=
  ∀ (s : State) (i : Instr), s.fsm = .fetch → s.mem.InRange s.pc →
    decode (s.mem.readMany s.pc maxWords) = .ok i →
    step s = settleResult (exec i s.fetched) ∧
    (∀ t, exec i s.fetched = .next t → step s = .next t.settle)

/-- R130: the opcode fetch. -/
def Obligations.OpcodeFetch : Prop :=
  ∀ (s : State) (k : State → Result),
    (¬ s.mem.InRange s.pc → ∃ t, fetchOpcode s k = .next t ∧ HaltTaken s t 0 .haltPcRange) ∧
    (s.mem.InRange s.pc → s.mem.SizeOk →
      ∃ u, fetchOpcode s k = k u ∧ u.ir = s.mem.read s.pc ∧ u.pc = s.pc + 1 ∧ u.pc.toInt = s.pc.toInt + 1 ∧
        u.fsm = .decodeExecute ∧ u.regs = s.regs ∧ u.mem = s.mem ∧ u.flags = s.flags ∧ u.status = s.status ∧
        u.sel = s.sel ∧ u.flagsAfterCtl = s.flagsAfterCtl ∧ u.draws = s.draws)

/-- R131: the operand word fetch. -/
def Obligations.OperandWordFetch : Prop :=
  ∀ (s : State) (k : State → Result),
    (¬ s.mem.InRange s.pc → ∃ t, fetchWord s k = .next t ∧ HaltTaken s t 0 .haltOperandRange) ∧
    (s.mem.InRange s.pc → fetchWord s k = k { s with pc := s.pc + 1 })

/-- R132: the register operand fetch, for every word that can stand there. -/
def Obligations.RegisterOperandFetch : Prop :=
  ∀ (s : State) (w : Word) (k : RegId → State → Result),
    (¬ s.mem.InRange s.pc → ∃ t, fetchReg (.ofWord w) s k = .next t ∧ HaltTaken s t 0 .haltOperandRange) ∧
    (s.mem.InRange s.pc → (w.toInt < 0 ∨ 5 < w.toInt) →
      ∃ t, fetchReg (.ofWord w) s k = .next t ∧ HaltTaken s t 1 .faultBadRegister) ∧
    (s.mem.InRange s.pc → 0 ≤ w.toInt → w.toInt ≤ 5 →
      ∃ r : RegId, r.word = w ∧
        fetchReg (.ofWord w) s k = k r { s with pc := s.pc + 1, dp := { s.dp with demux := w } })

/-- R77, R133: an opcode word `-1` halts with `HALT_SENTINEL`, any other word outside 0..20 with `HALT_BAD_OPCODE`, PC
just past the word and no operand fetched; a word of 0..20 runs an instruction with that opcode id. The datapath that
the step leaves is a free value (notes/assumptions/5.md). -/
def Obligations.OpcodeDispatch : Prop :=
  ∀ s : State, s.fsm = .fetch → s.mem.InRange s.pc →
    (s.mem.read s.pc = wrap (-1) →
      ∃ t, step s = .next t ∧ t.fsm = .halted ∧ t.status = .haltSentinel ∧ t.pc = s.pc + 1 ∧
        t.ir = s.mem.read s.pc ∧ t.flags = s.flags ∧ s.SameRegisters t ∧ t.mem = s.mem) ∧
    (s.mem.read s.pc ≠ wrap (-1) → ((s.mem.read s.pc).toInt < 0 ∨ 20 < (s.mem.read s.pc).toInt) →
      ∃ t, step s = .next t ∧ t.fsm = .halted ∧ t.status = .haltBadOpcode ∧ t.pc = s.pc + 1 ∧
        t.ir = s.mem.read s.pc ∧ t.flags = s.flags ∧ s.SameRegisters t ∧ t.mem = s.mem) ∧
    (0 ≤ (s.mem.read s.pc).toInt → (s.mem.read s.pc).toInt ≤ 20 →
      ∃ i : Instr, i.opcode.word = s.mem.read s.pc ∧ decode (s.mem.readMany s.pc maxWords) = .ok i ∧
        step s = settleResult (exec i s.fetched) ∧
        (∀ t, exec i s.fetched = .next t → t.fsm ≠ .halted → ∃ u, step s = .next u ∧ u.fsm = .fetch))

/-- R134, R135: a step from FETCH always has a next state, which is at FETCH or halted. -/
def Obligations.RunningMachineAlwaysSteps : Prop :=
  ∀ s : State, s.fsm = .fetch → ∃ t, step s = .next t ∧ (t.fsm = .fetch ∨ t.fsm = .halted)

/-- R136: HALTED is final. -/
def Obligations.HaltedIsFinal : Prop :=
  ∀ s : State, s.fsm = .halted → (∀ t, step s ≠ .next t) ∧ (∀ t, Reaches s t → t = s)

/-! ## ADD, SUB, MOVE, INC -/

/-- R152, R155: the register forms of ADD and SUB, for every pair of registers, the same one twice too. -/
def Obligations.AddSubRegRegResult : Prop :=
  ∀ (s : State) (a b : RegId), s.OperandsInMemory 2 →
    (∃ t, exec (.addRegReg (.reg a) (.reg b)) s = .next t ∧
      RegisterWritten s t 2 b (wrap ((s.x a).toInt + (s.x b).toInt)) ∧
      FlagsFrom t (wrap ((s.x a).toInt + (s.x b).toInt))) ∧
    (∃ t, exec (.subRegReg (.reg a) (.reg b)) s = .next t ∧
      RegisterWritten s t 2 b (wrap ((s.x a).toInt - (s.x b).toInt)) ∧
      FlagsFrom t (wrap ((s.x a).toInt - (s.x b).toInt)))

/-- R153, R156: the memory-to-register forms of ADD and SUB. -/
def Obligations.AddSubMemRegResult : Prop :=
  ∀ (s : State) (a : Word) (r : RegId), s.OperandsInMemory 2 → s.mem.InRange a →
    (∃ t, exec (.addMemReg a (.reg r)) s = .next t ∧
      RegisterWritten s t 2 r (wrap ((s.mem.read a).toInt + (s.x r).toInt)) ∧
      FlagsFrom t (wrap ((s.mem.read a).toInt + (s.x r).toInt))) ∧
    (∃ t, exec (.subMemReg a (.reg r)) s = .next t ∧
      RegisterWritten s t 2 r (wrap ((s.mem.read a).toInt - (s.x r).toInt)) ∧
      FlagsFrom t (wrap ((s.mem.read a).toInt - (s.x r).toInt)))

/-- R154, R157: the register-to-memory forms of ADD and SUB; the store is to the cell `a`. -/
def Obligations.AddSubRegMemResult : Prop :=
  ∀ (s : State) (r : RegId) (a : Word), s.OperandsInMemory 2 → s.mem.InRange a → s.mem.wf →
    (∃ t, exec (.addRegMem (.reg r) a) s = .next t ∧
      CellWritten s t 2 a (wrap ((s.x r).toInt + (s.mem.read a).toInt)) ∧
      FlagsFrom t (wrap ((s.x r).toInt + (s.mem.read a).toInt))) ∧
    (∃ t, exec (.subRegMem (.reg r) a) s = .next t ∧
      CellWritten s t 2 a (wrap ((s.x r).toInt - (s.mem.read a).toInt)) ∧
      FlagsFrom t (wrap ((s.x r).toInt - (s.mem.read a).toInt)))

/-- R171, R173, R174: the MOVEs into a register; the flags stay. -/
def Obligations.MoveToRegisterResult : Prop :=
  ∀ (s : State) (a imm : Word) (q r : RegId), s.OperandsInMemory 2 →
    (s.mem.InRange a → ∃ t, exec (.moveMemReg a (.reg r)) s = .next t ∧
      RegisterWritten s t 2 r (s.mem.read a) ∧ t.flags = s.flags) ∧
    (∃ t, exec (.moveRegReg (.reg q) (.reg r)) s = .next t ∧
      RegisterWritten s t 2 r (s.x q) ∧ t.flags = s.flags) ∧
    (∃ t, exec (.moveImmReg imm (.reg r)) s = .next t ∧
      RegisterWritten s t 2 r imm ∧ t.flags = s.flags)

/-- R172: the MOVE into memory; the store is to the cell `a`, the flags stay. -/
def Obligations.MoveToMemoryResult : Prop :=
  ∀ (s : State) (r : RegId) (a : Word), s.OperandsInMemory 2 → s.mem.InRange a → s.mem.wf →
    ∃ t, exec (.moveRegMem (.reg r) a) s = .next t ∧ CellWritten s t 2 a (s.x r) ∧ t.flags = s.flags

/-- R181: INC of a register. -/
def Obligations.IncRegResult : Prop :=
  ∀ (s : State) (r : RegId), s.OperandsInMemory 1 →
    ∃ t, exec (.incReg (.reg r)) s = .next t ∧
      RegisterWritten s t 1 r (wrap ((s.x r).toInt + 1)) ∧ FlagsFrom t (wrap ((s.x r).toInt + 1))

/-- R182: INC of a memory cell; the store is to the cell `a`. -/
def Obligations.IncMemResult : Prop :=
  ∀ (s : State) (a : Word), s.OperandsInMemory 1 → s.mem.InRange a → s.mem.wf →
    ∃ t, exec (.incMem a) s = .next t ∧
      CellWritten s t 1 a (wrap ((s.mem.read a).toInt + 1)) ∧ FlagsFrom t (wrap ((s.mem.read a).toInt + 1))

/-- R27: `SetFlags`. -/
def Obligations.SetFlagsOfEveryWord : Prop :=
  ∀ (s : State) (v : Word),
    ((s.setFlags v).flags.z = true ↔ v = 0) ∧ ((s.setFlags v).flags.n = true ↔ v.toInt < 0) ∧
    ¬((s.setFlags v).flags.z = true ∧ (s.setFlags v).flags.n = true)

/-- R158: the corner results, each row as (first, second, result, Z, N). -/
def Obligations.ArithmeticCorners : Prop :=
  (∀ row ∈ [(maxInt, (1 : Int), minInt, false, true), (minInt, minInt, 0, true, false), (-1, 1, 0, true, false),
      (maxInt, maxInt, -2, false, true)],
    addWrap (wrap row.1) (wrap row.2.1) = wrap row.2.2.1 ∧
    flagsOf (addWrap (wrap row.1) (wrap row.2.1)) = { z := row.2.2.2.1, n := row.2.2.2.2 }) ∧
  (∀ row ∈ [(minInt, (1 : Int), maxInt, false, false), (0, minInt, minInt, false, true), (0, 1, -1, false, true)],
    subWrap (wrap row.1) (wrap row.2.1) = wrap row.2.2.1 ∧
    flagsOf (subWrap (wrap row.1) (wrap row.2.1)) = { z := row.2.2.2.1, n := row.2.2.2.2 }) ∧
  (∀ v : Word, subWrap v v = wrap 0 ∧ flagsOf (subWrap v v) = { z := true, n := false })

/-! ## Jumps -/

/-- R192: JMP, to any target; the status-selection memory is not used, the flags stay. -/
def Obligations.JmpResult : Prop :=
  ∀ (s : State) (a : Word), s.OperandsInMemory 1 →
    ∃ t, exec (.jmp a) s = .next t ∧ Transferred s t a ∧ t.flags = s.flags ∧ t.sel = s.sel ∧ t.draws = s.draws

/-- R190, R193, R194, R195: JN, JZ and JNZ, to any target; both status-selection cells are written, the flags stay.
That JNZ writes the cells in this order is the model's reading (notes/assumptions/17.md). -/
def Obligations.FlagJumpResult : Prop :=
  ∀ (s : State) (a : Word), s.OperandsInMemory 1 →
    (∃ t, exec (.jn a) s = .next t ∧ Transferred s t (if s.flags.n = true then a else s.pc + 1) ∧
      t.flags = s.flags ∧ t.sel = { slot0 := s.pc + 1, slot1 := a } ∧ t.draws = s.draws) ∧
    (∃ t, exec (.jz a) s = .next t ∧ Transferred s t (if s.flags.z = true then a else s.pc + 1) ∧
      t.flags = s.flags ∧ t.sel = { slot0 := s.pc + 1, slot1 := a } ∧ t.draws = s.draws) ∧
    (∃ t, exec (.jnz a) s = .next t ∧ Transferred s t (if s.flags.z = true then s.pc + 1 else a) ∧
      t.flags = s.flags ∧ t.sel = { slot0 := s.pc + 1, slot1 := a } ∧ t.draws = s.draws)

/-- R196, R197: JEQ, exact for all words, to any target. -/
def Obligations.JeqResult : Prop :=
  ∀ (s : State) (q r : RegId) (a : Word), s.OperandsInMemory 3 →
    ∃ t, exec (.jeq (.reg q) (.reg r) a) s = .next t ∧
      Transferred s t (if s.x q = s.x r then a else s.pc + 3) ∧ t.sel = { slot0 := s.pc + 3, slot1 := a } ∧
      (s.flagsAfterCtl = .preserve → t.flags = s.flags)

/-- R196, R198, R199: JGT and JLW where the difference of the registers fits in a word, to any target. -/
def Obligations.OrderJumpResult : Prop :=
  ∀ (s : State) (q r : RegId) (a : Word), s.OperandsInMemory 3 → FitsWord ((s.x q).toInt - (s.x r).toInt) →
    (∃ t, exec (.jgt (.reg q) (.reg r) a) s = .next t ∧
      Transferred s t (if (s.x r).toInt < (s.x q).toInt then a else s.pc + 3) ∧
      t.sel = { slot0 := s.pc + 3, slot1 := a } ∧ (s.flagsAfterCtl = .preserve → t.flags = s.flags)) ∧
    (∃ t, exec (.jlw (.reg q) (.reg r) a) s = .next t ∧
      Transferred s t (if (s.x q).toInt < (s.x r).toInt then a else s.pc + 3) ∧
      t.sel = { slot0 := s.pc + 3, slot1 := a } ∧ (s.flagsAfterCtl = .preserve → t.flags = s.flags))

/-- R196: JGT and JLW where the difference overflows: each completes, at the target or at the fall-through address;
which one is a free value (notes/assumptions/4.md). -/
def Obligations.OrderJumpOverflow : Prop :=
  ∀ (s : State) (q r : RegId) (a : Word), s.OperandsInMemory 3 → ¬ FitsWord ((s.x q).toInt - (s.x r).toInt) →
    (∃ t target, exec (.jgt (.reg q) (.reg r) a) s = .next t ∧ (target = a ∨ target = s.pc + 3) ∧
      Transferred s t target ∧ (s.flagsAfterCtl = .preserve → t.flags = s.flags)) ∧
    (∃ t target, exec (.jlw (.reg q) (.reg r) a) s = .next t ∧ (target = a ∨ target = s.pc + 3) ∧
      Transferred s t target ∧ (s.flagsAfterCtl = .preserve → t.flags = s.flags))

/-- R191: every jump, CALL and RET accepts any target, and the step completes; where PC is then outside memory, the next
step halts with `HALT_PC_RANGE`. A jump that is not taken goes on to the fall-through address, whatever its target is.
Each row of the list is a jump, when it must be taken and when it must not; JGT and JLW may go either way where the
difference overflows. -/
def Obligations.TargetsAreCheckedAtTheNextFetch : Prop :=
  ∀ (s : State) (q r : RegId) (a : Word), s.fsm = .fetch → s.mem.InRange s.pc →
    (∀ row ∈ [(Instr.jmp a, True, False), (.jn a, s.flags.n = true, s.flags.n = false),
        (.jz a, s.flags.z = true, s.flags.z = false), (.jnz a, s.flags.z = false, s.flags.z = true),
        (.jeq (.reg q) (.reg r) a, s.x q = s.x r, s.x q ≠ s.x r),
        (.jgt (.reg q) (.reg r) a, FitsWord ((s.x q).toInt - (s.x r).toInt) ∧ (s.x r).toInt < (s.x q).toInt,
          FitsWord ((s.x q).toInt - (s.x r).toInt) ∧ (s.x q).toInt ≤ (s.x r).toInt),
        (.jlw (.reg q) (.reg r) a, FitsWord ((s.x q).toInt - (s.x r).toInt) ∧ (s.x q).toInt < (s.x r).toInt,
          FitsWord ((s.x q).toInt - (s.x r).toInt) ∧ (s.x r).toInt ≤ (s.x q).toInt)],
      decode (s.mem.readMany s.pc maxWords) = .ok row.1 → s.fetched.OperandsInMemory row.1.operandWords.length →
      ∃ t, step s = .next t ∧ t.fsm = .fetch ∧ (row.2.1 → t.pc = a) ∧
        (row.2.2 → t.pc = s.pc + 1 + BitVec.ofNat 32 row.1.operandWords.length) ∧
        (t.pc = a ∨ t.pc = s.pc + 1 + BitVec.ofNat 32 row.1.operandWords.length) ∧
        (¬ s.mem.InRange t.pc → HaltsAtFetch t)) ∧
    (decode (s.mem.readMany s.pc maxWords) = .ok (.call a) → s.fetched.OperandsInMemory 1 → s.mem.wf → s.PushAllowed →
      ∃ t, step s = .next t ∧ t.fsm = .fetch ∧ t.pc = a ∧
        t.mem.read (wrap ((s.x .stkTOP).toInt - 1)) = s.pc + 1 + 1 ∧ (¬ s.mem.InRange a → HaltsAtFetch t)) ∧
    (decode (s.mem.readMany s.pc maxWords) = .ok .ret → s.PopAllowed →
      ∃ t, step s = .next t ∧ t.fsm = .fetch ∧ t.pc = s.mem.read (s.x .stkTOP) ∧
        (¬ s.mem.InRange (s.mem.read (s.x .stkTOP)) → HaltsAtFetch t))

/-! ## CALL and RET -/

/-- R211, R212: CALL where the push is allowed: StkTOP goes down by one, the return address is stored there, PC is the
target, whatever it is. -/
def Obligations.CallResult : Prop :=
  ∀ (s : State) (a : Word), s.OperandsInMemory 1 → s.mem.wf → s.PushAllowed →
    ∃ t, exec (.call a) s = .next t ∧ t.pc = a ∧
      t.x .stkTOP = wrap ((s.x .stkTOP).toInt - 1) ∧ (∀ q, q ≠ .stkTOP → t.x q = s.x q) ∧
      t.mem.read (wrap ((s.x .stkTOP).toInt - 1)) = s.pc + 1 ∧
      (∀ b, b ≠ wrap ((s.x .stkTOP).toInt - 1) → t.mem.read b = s.mem.read b) ∧
      s.SameCore t ∧ t.sel = s.sel ∧ (s.flagsAfterCtl = .preserve → t.flags = s.flags)

/-- R214, R215: RET where the pop is allowed. -/
def Obligations.RetResult : Prop :=
  ∀ s : State, s.PopAllowed →
    ∃ t, exec .ret s = .next t ∧ t.pc = s.mem.read (s.x .stkTOP) ∧
      t.x .stkTOP = wrap ((s.x .stkTOP).toInt + 1) ∧ (∀ q, q ≠ .stkTOP → t.x q = s.x q) ∧
      s.SameMemory t ∧ s.SameCore t ∧ t.sel = s.sel ∧ (s.flagsAfterCtl = .preserve → t.flags = s.flags)

/-- R211: the push goes to `StkTOP - 1` and is allowed iff that lies in `[0, min(StkBOT, MEM_SIZE))`; otherwise CALL halts
with `FAULT_STACK` before any write, StkTOP unchanged. -/
def Obligations.PushBound : Prop :=
  ∀ (s : State) (a : Word), s.OperandsInMemory 1 → s.mem.wf →
    (s.PushAllowed →
      ∃ t, exec (.call a) s = .next t ∧ (t.x .stkTOP).toInt = (s.x .stkTOP).toInt - 1 ∧
        t.mem.read (t.x .stkTOP) = s.pc + 1 ∧ t.status = s.status) ∧
    (¬ s.PushAllowed →
      ∃ t, exec (.call a) s = .next t ∧ HaltTaken s t 1 .faultStack)

/-- R214: the pop reads `M[StkTOP]` and is allowed iff StkTOP lies in `[0, min(StkBOT, MEM_SIZE))`; otherwise RET halts with
`FAULT_STACK` and changes nothing. An empty stack faults. -/
def Obligations.PopBound : Prop :=
  ∀ s : State,
    (s.PopAllowed →
      ∃ t, exec .ret s = .next t ∧ t.pc = s.mem.read (s.x .stkTOP) ∧ t.status = s.status) ∧
    (¬ s.PopAllowed →
      ∃ t, exec .ret s = .next t ∧ HaltTaken s t 0 .faultStack) ∧
    (s.x .stkTOP = s.x .stkBOT → ∃ t, exec .ret s = .next t ∧ HaltTaken s t 0 .faultStack)

/-- R213: a RET returns to the word after the CALL's operand and restores StkTOP, from every state `u` in which StkTOP and
the word it points to are what the CALL left and the pop does not fault. -/
def Obligations.RetUndoesCall : Prop :=
  ∀ (s t u : State) (a : Word), s.OperandsInMemory 1 → s.mem.wf → exec (.call a) s = .next t → t.fsm ≠ .halted →
    u.x .stkTOP = t.x .stkTOP → u.mem.read (u.x .stkTOP) = t.mem.read (t.x .stkTOP) → u.PopAllowed →
    ∃ v, exec .ret u = .next v ∧ v.pc = s.pc + 1 ∧ v.x .stkTOP = s.x .stkTOP

/-! ## Halts inside an instruction -/

/-- R131, R234: when the first operand word is not in memory, every instruction that has one halts there with
`HALT_OPERAND_RANGE`, whatever its operands are. -/
def Obligations.FirstOperandMissingHalts : Prop :=
  ∀ (s : State) (i : Instr), i.opcode ≠ .ret → ¬ s.mem.InRange s.pc →
    ∃ t, exec i s = .next t ∧ HaltTaken s t 0 .haltOperandRange

/-- R132, R234: an illegal first reg operand halts with `FAULT_BAD_REGISTER` just past its word, before anything that
comes after it is looked at. -/
def Obligations.FirstRegisterIllegalHalts : Prop :=
  ∀ (s : State) (w a : Word) (o : RegOperand), s.mem.InRange s.pc →
    ∀ i ∈ [Instr.addRegReg (.illegal w) o, .addRegMem (.illegal w) a, .subRegReg (.illegal w) o,
        .subRegMem (.illegal w) a, .moveRegMem (.illegal w) a, .moveRegReg (.illegal w) o, .incReg (.illegal w),
        .jeq (.illegal w) o a, .jgt (.illegal w) o a, .jlw (.illegal w) o a],
      ∃ t, exec i s = .next t ∧ HaltTaken s t 1 .faultBadRegister

/-- R132, R234: an illegal second reg operand, after a legal first operand, halts with `FAULT_BAD_REGISTER` past both. -/
def Obligations.SecondRegisterIllegalHalts : Prop :=
  ∀ (s : State) (w a imm : Word) (r : RegId), s.OperandsInMemory 2 →
    (∀ i ∈ [Instr.addRegReg (.reg r) (.illegal w), .subRegReg (.reg r) (.illegal w), .moveRegReg (.reg r) (.illegal w),
        .moveImmReg imm (.illegal w), .jeq (.reg r) (.illegal w) a, .jgt (.reg r) (.illegal w) a,
        .jlw (.reg r) (.illegal w) a],
      ∃ t, exec i s = .next t ∧ HaltTaken s t 2 .faultBadRegister) ∧
    (s.mem.InRange a →
      ∀ i ∈ [Instr.addMemReg a (.illegal w), .subMemReg a (.illegal w), .moveMemReg a (.illegal w)],
        ∃ t, exec i s = .next t ∧ HaltTaken s t 2 .faultBadRegister)

/-- R52, R138: a data address outside memory halts with `HALT_DATA_RANGE` as soon as its word is fetched: before the
register operand in the MR forms, after it in the RM forms; nothing is written. -/
def Obligations.DataAddressOutOfRangeHalts : Prop :=
  ∀ (s : State) (a : Word) (o : RegOperand) (r : RegId), ¬ s.mem.InRange a →
    (s.OperandsInMemory 1 → ∀ i ∈ [Instr.addMemReg a o, .subMemReg a o, .moveMemReg a o, .incMem a],
      ∃ t, exec i s = .next t ∧ HaltTaken s t 1 .haltDataRange) ∧
    (s.OperandsInMemory 2 → ∀ i ∈ [Instr.addRegMem (.reg r) a, .subRegMem (.reg r) a, .moveRegMem (.reg r) a],
      ∃ t, exec i s = .next t ∧ HaltTaken s t 2 .haltDataRange)

/-- R24, R131: an instruction that runs out of memory after its first operand halts with `HALT_OPERAND_RANGE`, PC at the
first missing word, nothing written. -/
def Obligations.LaterOperandMissingHalts : Prop :=
  ∀ (s : State) (a imm : Word) (q r : RegId) (o : RegOperand), s.mem.SizeOk →
    (0 ≤ s.pc.toInt → s.pc.toInt + 1 = s.mem.size →
      (∀ i ∈ [Instr.addRegReg (.reg q) o, .subRegReg (.reg q) o, .moveRegReg (.reg q) o, .addRegMem (.reg q) a,
          .subRegMem (.reg q) a, .moveRegMem (.reg q) a, .moveImmReg imm o, .jeq (.reg q) o a, .jgt (.reg q) o a,
          .jlw (.reg q) o a],
        ∃ t, exec i s = .next t ∧ HaltTaken s t 1 .haltOperandRange) ∧
      (s.mem.InRange a → ∀ i ∈ [Instr.addMemReg a o, .subMemReg a o, .moveMemReg a o],
        ∃ t, exec i s = .next t ∧ HaltTaken s t 1 .haltOperandRange)) ∧
    (0 ≤ s.pc.toInt → s.pc.toInt + 2 = s.mem.size →
      ∀ i ∈ [Instr.jeq (.reg q) (.reg r) a, .jgt (.reg q) (.reg r) a, .jlw (.reg q) (.reg r) a],
        ∃ t, exec i s = .next t ∧ HaltTaken s t 2 .haltOperandRange)

/-! ## Whole-machine rules -/

/-- R28: an instruction that is not one of the eight flag writers leaves the flags as they were, JEQ, JGT, JLW, CALL and
RET under `FLAGS_AFTER_CTL = preserve`. -/
def Obligations.OnlyFlagWritersChangeTheFlags : Prop :=
  ∀ (s t : State) (i : Instr), exec i s = .next t → i.opcode ∉ flagWriters →
    (i.opcode ∈ ctlFlagOpcodes → s.flagsAfterCtl = .preserve) → t.flags = s.flags

/-- R25: only the control-transfer opcodes take PC anywhere but to the fall-through address. -/
def Obligations.OtherInstructionsFallThrough : Prop :=
  ∀ (s t : State) (i : Instr), exec i s = .next t → s.fsm = .decodeExecute → t.fsm ≠ .halted →
    i.opcode ∉ controlOpcodes → t.pc = s.pc + BitVec.ofNat 32 i.operandWords.length

/-- R31, R74: a register changes only as the destination that a reg operand names, but for StkTOP, which CALL and RET
move; so nothing changes StkBOT implicitly. -/
def Obligations.RegistersChangeOnlyAsNamed : Prop :=
  ∀ (s t : State) (i : Instr) (r : RegId), exec i s = .next t → destination i ≠ some (.reg r) →
    (r = .stkTOP → i.opcode ≠ .call ∧ i.opcode ≠ .ret) → t.x r = s.x r

/-- R53: a cell changes only where the instruction stores. -/
def Obligations.MemoryChangesOnlyWhereStored : Prop :=
  ∀ (s t : State) (i : Instr) (b : Word), s.mem.wf → exec i s = .next t → storeAddress s i ≠ some b →
    t.mem.read b = s.mem.read b

/-- R7, R50: no step changes the memory size or the parameter `FLAGS_AFTER_CTL`. -/
def Obligations.StepKeepsTheParameters : Prop :=
  ∀ s t : State, step s = .next t → t.mem.size = s.mem.size ∧ t.flagsAfterCtl = s.flagsAfterCtl

/-- R42, R52, R134: every step keeps the invariant. The canonical form of the memory is the model's own
(notes/assumptions/6.md). -/
def Obligations.StepKeepsInvariant : Prop := ∀ s t : State, s.Inv → step s = .next t → t.Inv

/-- R45, R260: the reset state meets the invariant. Its memory size is the model's choice (notes/assumptions/2.md). -/
def Obligations.ResetMeetsInvariant : Prop := State.reset.Inv

/-- R27: under `FLAGS_AFTER_CTL = preserve`, no step makes both flags 1 that were not both 1. -/
def Obligations.StepNeverSetsBothFlags : Prop :=
  ∀ s t : State, s.flagsAfterCtl = .preserve → ¬(s.flags.z = true ∧ s.flags.n = true) → step s = .next t →
    ¬(t.flags.z = true ∧ t.flags.n = true)

/-- R26, R36, R38: IR, the status-selection cells and the datapath are never observed: two states that agree on
everything else step to states that agree on everything else, or both have no step. That both runs get the same drawn
bits is the model's choice of a draw as a constant of its counter (notes/assumptions/4.md), where R196 gives each run any
outcome; that a state with no step answers a fault is notes/assumptions/9.md. -/
def Obligations.HiddenStateIsNeverObserved : Prop :=
  ∀ s t : State, s.SameVisible t →
    (∀ s', step s = .next s' → ∃ t', step t = .next t' ∧ s'.SameVisible t') ∧
    (∀ r, step s = .fault r → step t = .fault r)

/-- R65, R272: an instruction never fetches a word that it writes itself. For each of the five instructions that store,
to any cell, a word of the instruction itself among them: the step stores what the words at PC before the step say, goes
where they say, and changes no other cell. -/
def Obligations.StoringInstructionsNeverSeeTheirOwnStore : Prop :=
  ∀ (s : State) (r : RegId) (a : Word), s.fsm = .fetch → s.mem.wf → s.mem.SizeOk → 0 ≤ s.pc.toInt →
    (s.pc.toInt + 2 < s.mem.size → s.mem.InRange a → s.mem.read (s.pc + 1) = r.word → s.mem.read (s.pc + 2) = a →
      ∀ row ∈ [((2 : Word), wrap ((s.x r).toInt + (s.mem.read a).toInt)),
          (5, wrap ((s.x r).toInt - (s.mem.read a).toInt)), (7, s.x r)],
        s.mem.read s.pc = row.1 →
        ∃ t, step s = .next t ∧ t.fsm = .fetch ∧ t.pc = s.pc + 3 ∧ t.mem.read a = row.2 ∧
          ∀ b, b ≠ a → t.mem.read b = s.mem.read b) ∧
    (s.pc.toInt + 1 < s.mem.size → s.mem.InRange a → s.mem.read s.pc = 11 → s.mem.read (s.pc + 1) = a →
      ∃ t, step s = .next t ∧ t.fsm = .fetch ∧ t.pc = s.pc + 2 ∧ t.mem.read a = wrap ((s.mem.read a).toInt + 1) ∧
        ∀ b, b ≠ a → t.mem.read b = s.mem.read b) ∧
    (s.pc.toInt + 1 < s.mem.size → s.PushAllowed → s.mem.read s.pc = 19 → s.mem.read (s.pc + 1) = a →
      ∃ t, step s = .next t ∧ t.fsm = .fetch ∧ t.pc = a ∧
        t.mem.read (wrap ((s.x .stkTOP).toInt - 1)) = s.pc + 2 ∧
        ∀ b, b ≠ wrap ((s.x .stkTOP).toInt - 1) → t.mem.read b = s.mem.read b)

/-- R79: three zero words double reg0 and set the flags. -/
def Obligations.ZeroWordsDoubleReg0 : Prop :=
  ∀ s : State, s.fsm = .fetch → s.mem.SizeOk → 0 ≤ s.pc.toInt → s.pc.toInt + 2 < s.mem.size →
    s.mem.read s.pc = 0 → s.mem.read (s.pc + 1) = 0 → s.mem.read (s.pc + 2) = 0 →
    ∃ t, step s = .next t ∧ t.fsm = .fetch ∧ t.pc = s.pc + 3 ∧
      t.x .reg0 = wrap ((s.x .reg0).toInt + (s.x .reg0).toInt) ∧ FlagsFrom t (t.x .reg0) ∧
      (∀ q, q ≠ .reg0 → t.x q = s.x q) ∧ t.mem = s.mem

/-! ## Loading -/

/-- R260: what the loader builds, for every choice of the values that R45 leaves unspecified. R124: each latch starts at
ADDR; that R45 does not leave this phase open is the model's reading (notes/assumptions/1.md). -/
def Obligations.LoadedStartState : Prop :=
  ∀ (n : Nat) (ctl : Config.FlagsAfterCtl) (v : StartValues) (image : List Int) (s : State),
    load n ctl v image = .ok s →
    s.pc = 0 ∧ s.fsm = .fetch ∧ s.status = .running ∧ s.mem.size = n ∧ s.sel = { slot0 := 0, slot1 := 0 } ∧
    s.regs = v.regs ∧ s.flags = v.flags ∧ s.ir = v.ir ∧
    s.dp.memLatch = { phase := .addr, addr := v.dp.memLatch.addr } ∧
    s.dp.selLatch = { phase := .addr, addr := v.dp.selLatch.addr } ∧
    s.dp = { v.dp with memLatch := s.dp.memLatch, selLatch := s.dp.selLatch } ∧
    (∀ a : Word, a.toNat < image.length → ∀ w, image[a.toNat]? = some w → s.mem.read a = wrap w) ∧
    (∀ a : Word, image.length ≤ a.toNat → s.mem.read a = 0)

/-- R261: the image is admitted exactly if it fits and its words are words, for a memory size that R7 admits. -/
def Obligations.LoaderAdmission : Prop :=
  ∀ (n : Nat) (ctl : Config.FlagsAfterCtl) (v : StartValues) (image : List Int), 1 ≤ n → n ≤ maxMemSize →
    ((∃ s, load n ctl v image = .ok s) ↔
      image.length ≤ n ∧ ∀ w ∈ image, -(2 : Int) ^ 31 ≤ w ∧ w ≤ 2 ^ 31 - 1)

/-! ## The datapath -/

/-- R123: the ALU operations on its own registers and its transfers. -/
def Obligations.AluOperations : Prop :=
  ∀ (s : State) (b : Bus) (i : AluReg),
    (MicroOp.aluAdd.act s).getAlu .a1 = wrap ((s.getAlu .a0).toInt + (s.getAlu .a1).toInt) ∧
    (MicroOp.aluSub.act s).getAlu .a1 = wrap ((s.getAlu .a0).toInt - (s.getAlu .a1).toInt) ∧
    (MicroOp.aluInc.act s).getAlu .a1 = wrap ((s.getAlu .a1).toInt + 1) ∧
    (∀ op ∈ [MicroOp.aluAdd, .aluSub, .aluInc], ∀ c, (op.act s).get c = s.get c ∧
      (op.act s).getAlu .a0 = s.getAlu .a0) ∧
    ((MicroOp.aluStore i b).act s).getAlu i = s.get b ∧ ((MicroOp.aluRead i b).act s).get b = s.getAlu i ∧
    ((MicroOp.aluInternalStore i).act s).getAlu i = s.get .alu ∧
    ((MicroOp.aluInternalRead i).act s).get .alu = s.getAlu i

/-- R56, R124: the two-call protocol collapses into `MemRead` and `MemWrite`, and halts with the caller's reason, nothing
written, outside memory. The sequences are the model's own (notes/assumptions/13.md); that they start with the latches at
ADDR, whatever an instruction left in them, is notes/assumptions/18.md. -/
def Obligations.TwoCallProtocolCollapses : Prop :=
  ∀ (s : State) (reason : Status) (a v : Word), s.fsm = .decodeExecute →
    (s.mem.InRange (s.get .ext) →
      ∃ t, runMicro (memReadSeq reason) s = some t ∧ t.get .ext = s.mem.read (s.get .ext) ∧ s.SameArch t ∧
        t.dp.memLatch.phase = .addr) ∧
    (¬ s.mem.InRange (s.get .ext) →
      ∃ t, runMicro (memReadSeq reason) s = some t ∧ HaltTaken s t 0 reason) ∧
    (s.mem.InRange a →
      ∃ t, runMicro (memWriteSeq reason a v) s = some t ∧ (s.store a v).SameArch t ∧ t.dp.memLatch.phase = .addr) ∧
    (¬ s.mem.InRange a →
      ∃ t, runMicro (memWriteSeq reason a v) s = some t ∧ HaltTaken s t 0 reason)

/-- R126: the selection through the status-selection memory's own protocol is `Select`, for either bit. The sequence is the
model's own, and so is that it takes the bit as a parameter (notes/assumptions/13.md); it starts with the latches at ADDR
(notes/assumptions/18.md). -/
def Obligations.SelectThroughTheMemoryProtocol : Prop :=
  ∀ (s : State) (b : Bool) (t : Word), s.fsm = .decodeExecute →
    ∃ u, runMicro (selectSeq b t) s = some u ∧ (s.selectPc b t).SameArch u

/-- R128, R152: the micro-sequence `addRegRegSeq` implements ADD_REG_REG, its halts included. The sequence is the
model's own (notes/assumptions/13.md) and starts with the latches at ADDR (notes/assumptions/18.md); its halt at an
illegal register word rests on notes/assumptions/19.md. -/
def Obligations.MicroSequenceImplementsAddRegReg : Prop :=
  ∀ s : State, s.fsm = .decodeExecute →
    ∃ t u, runMicro addRegRegSeq s = some u ∧
      exec (.addRegReg (.ofWord (s.mem.read s.pc)) (.ofWord (s.mem.read (s.pc + 1)))) s = .next t ∧ t.SameArch u

/-! ## The assembler -/

/-- R110, R111: an executable is the prologue, one word for each token of the object program, and the sentinel: a number
is its own word, a name's word is its address, a register's word is its id. -/
def Obligations.ExecutableShape : Prop :=
  ∀ (lines : List Text) (n : Nat) (image : List Int), assemble lines n = .ok image →
    ∃ ob body, parse lines = .ok ob ∧ ob.vars.length ≤ n ∧ body.length = ob.program.length ∧
      image = [9, (n : Int) - ob.vars.length, 5, 9, (n : Int) - ob.vars.length, 4] ++ body ++ [-1] ∧
      ∀ (k : Nat) (tok : Token), ob.program[k]? = some tok → ∃ v, body[k]? = some v ∧
        (∀ x, tok = .number x → v = x) ∧
        (∀ name, tok = .address name → addressOf n ob name = some v) ∧
        (∀ name, tok = .register name → ∃ r, regNamed name = some r ∧ v = r.word.toInt)

/-- R98: in a program that links, variable `i` has the address `MEM_SIZE - 1 - i`, and two variables never alias. -/
def Obligations.VariableAddresses : Prop :=
  ∀ (lines : List Text) (n : Nat) (image : List Int) (ob : Object), assemble lines n = .ok image →
    parse lines = .ok ob →
    (∀ (i : Nat) (name : Text), ob.vars[i]? = some name → addressOf n ob name = some ((n : Int) - 1 - i)) ∧
    (∀ a ∈ ob.vars, ∀ b ∈ ob.vars, a ≠ b → addressOf n ob a ≠ addressOf n ob b)

/-- R99: in a program that links, a label recorded at offset `k` has the address `k + 6`. -/
def Obligations.LabelAddresses : Prop :=
  ∀ (lines : List Text) (n : Nat) (image : List Int) (ob : Object), assemble lines n = .ok image →
    parse lines = .ok ob → ∀ (name : Text) (k : Nat), (name, k) ∈ ob.labels → addressOf n ob name = some ((k : Int) + 6)

/-- R112: a name declared twice, or as a variable and a label, never links. -/
def Obligations.ClashingNamesNeverLink : Prop :=
  ∀ (lines : List Text) (n : Nat) (image : List Int) (ob : Object), assemble lines n = .ok image →
    parse lines = .ok ob →
    ob.vars.Nodup ∧ (ob.labels.map Prod.fst).Nodup ∧ ∀ v ∈ ob.vars, v ∉ ob.labels.map Prod.fst

/-- R92: `ret` as the first line after the variable declarations declares a variable of that name. -/
def Obligations.LeadingRetDeclaresAVariable : Prop :=
  ∀ (vars rest : List Text) (ob : Object), (∀ v ∈ vars, isIdent v = true) →
    parse (vars ++ ['r', 'e', 't'] :: rest) = .ok ob → ['r', 'e', 't'] ∈ ob.vars

/-- R94, R95, R111: an executable is the words of well-formed instructions, as the decoder reads them, and the
sentinel. -/
def Obligations.ExecutablesAreInstructions : Prop :=
  ∀ (lines : List Text) (n : Nat) (image : List Int), assemble lines n = .ok image →
    ∃ is : List Instr, (∀ i ∈ is, WellFormed i) ∧ image.map wrap = is.flatMap encode ++ [sentinelWord]

/-- R110, R261, R263: an assembled image that fits is admitted, and after its prologue both stack pointers are
`MEM_SIZE - nv` and PC is 6, whatever the start values. The invariant's canonical memory form is the model's own
(notes/assumptions/6.md). -/
def Obligations.PrologueSetsTheStackPointers : Prop :=
  ∀ (lines : List Text) (n : Nat) (image : List Int) (ob : Object) (ctl : Config.FlagsAfterCtl) (v : StartValues),
    assemble lines n = .ok image → parse lines = .ok ob → image.length ≤ n → n ≤ maxMemSize →
    ∃ s t u, load n ctl v image = .ok s ∧ s.Inv ∧ step s = .next t ∧ step t = .next u ∧ u.fsm = .fetch ∧ u.pc = 6 ∧
      (u.x .stkBOT).toInt = (n : Int) - ob.vars.length ∧ (u.x .stkTOP).toInt = (n : Int) - ob.vars.length ∧
      u.mem = s.mem ∧ u.flags = v.flags

/-- R71, R80: the text of an executable is read back as its words. The edges of the format are the model's choice
(notes/assumptions/16.md). -/
def Obligations.ExecutableTextIsReadBack : Prop :=
  ∀ image : List Int, readExecutable (renderExecutable image) = some image
end

