-- ==== Sys2Proof/Laws/Arith.lean ====
section
/-!
SUPPORT. The wrap-around arithmetic as bit-vector arithmetic, the flags of a result, and words against their ids.
-/
namespace Sys2Proof.Machine

theorem wrap_toInt (w : Word) : wrap w.toInt = w := BitVec.ofInt_toInt

theorem toInt_wrap_of_fits {v : Int} (h : FitsWord v) : (wrap v).toInt = v := by
  unfold wrap
  rw [BitVec.toInt_ofInt]
  have h1 := h.1
  have h2 := h.2
  simp only [minInt, maxInt] at h1 h2
  simp only [Int.bmod_def]
  omega

theorem fits_toInt (w : Word) : FitsWord w.toInt := by
  have h1 := BitVec.toInt_lt (x := w)
  have h2 := BitVec.le_toInt (x := w)
  constructor <;> simp only [minInt, maxInt] <;> omega

@[simp] theorem addWrap_eq (a b : Word) : addWrap a b = a + b := by
  unfold addWrap wrap
  rw [BitVec.ofInt_add, BitVec.ofInt_toInt, BitVec.ofInt_toInt]

@[simp] theorem subWrap_eq (a b : Word) : subWrap a b = a - b := by
  unfold subWrap wrap
  rw [Int.sub_eq_add_neg, BitVec.ofInt_add, BitVec.ofInt_neg, BitVec.ofInt_toInt, BitVec.ofInt_toInt, BitVec.sub_eq_add_neg]

@[simp] theorem incWrap_eq (v : Word) : incWrap v = v + 1 := by
  unfold incWrap wrap
  rw [BitVec.ofInt_add, BitVec.ofInt_toInt]
  rfl

theorem toInt_add_one {a : Word} (h : a.toInt < maxInt) : (a + 1).toInt = a.toInt + 1 := by
  rw [← incWrap_eq]
  exact toInt_wrap_of_fits ⟨by have := (fits_toInt a).1; omega, by omega⟩

@[simp] theorem flagsOf_z (v : Word) : (flagsOf v).z = decide (v.toInt = 0) := rfl

@[simp] theorem flagsOf_n (v : Word) : (flagsOf v).n = decide (v.toInt < 0) := rfl

/-- R27: no result sets both flags. -/
theorem flagsOf_not_both (v : Word) : ¬((flagsOf v).z = true ∧ (flagsOf v).n = true) := by
  simp only [flagsOf_z, flagsOf_n, decide_eq_true_eq]
  omega

theorem toInt_inj {a b : Word} : a.toInt = b.toInt ↔ a = b := BitVec.toInt_inj

@[simp] theorem eqBit_eq (a b : Word) : eqBit a b = decide (a = b) := by
  unfold eqBit
  simp only [toInt_inj]

@[simp] theorem RegId.ofWord_word (r : RegId) : RegId.ofWord r.word = some r := by cases r <;> rfl

theorem RegId.word_of_ofWord {w : Word} {r : RegId} (h : RegId.ofWord w = some r) : r.word = w := by
  unfold RegId.ofWord at h
  apply BitVec.eq_of_toNat_eq
  split at h <;> first | (cases h; next e => rw [e]; rfl) | cases h

@[simp] theorem RegOperand.ofWord_regWord (r : RegId) : RegOperand.ofWord r.word = .reg r := by
  simp [RegOperand.ofWord]

@[simp] theorem RegOperand.word_ofWord (w : Word) : (RegOperand.ofWord w).word = w := by
  unfold RegOperand.ofWord
  split
  · next h => exact RegId.word_of_ofWord h
  · rfl

/-- A legal operand is what its word decodes to. -/
theorem RegOperand.ofWord_word {o : RegOperand} (h : o.legal = true) : RegOperand.ofWord o.word = o := by
  cases o with
  | reg r => exact RegOperand.ofWord_regWord r
  | illegal w => cases h

@[simp] theorem Opcode.ofWord_word (o : Opcode) : Opcode.ofWord o.word = some o := by cases o <;> rfl

theorem Opcode.word_of_ofWord {w : Word} {o : Opcode} (h : Opcode.ofWord w = some o) : o.word = w := by
  unfold Opcode.ofWord at h
  apply BitVec.eq_of_toNat_eq
  split at h <;> first | (cases h; next e => rw [e]; rfl) | cases h

theorem Opcode.word_ne_sentinel (o : Opcode) : o.word ≠ sentinelWord := by cases o <;> decide

/-- R77: the opcode words are 0..20. -/
theorem Opcode.ofWord_isSome_iff (w : Word) : (Opcode.ofWord w).isSome = true ↔ 0 ≤ w.toInt ∧ w.toInt ≤ 20 := by
  constructor
  · intro h
    obtain ⟨o, ho⟩ := Option.isSome_iff_exists.1 h
    have := Opcode.word_of_ofWord ho
    subst this
    cases o <;> decide
  · intro h
    have hn : w.toNat ≤ 20 := by
      have := BitVec.toInt_eq_toNat_cond w
      split at this <;> omega
    have hw : w = BitVec.ofNat 32 w.toNat := by simp
    rw [hw]
    generalize w.toNat = n at hn
    interval_cases n <;> rfl

end Sys2Proof.Machine
end

