-- ==== Sys2Proof/Laws/Assembler.lean ====
section
/-!
SUPPORT. The assembler's passes and its link, taken apart: what each says when it succeeds. And the decimal digits of
the executable's text.
-/
namespace Sys2Proof.Machine

/-! ### The passes -/

theorem assemble_ok {lines : List Text} {n : Nat} {image : List Int} (h : assemble lines n = .ok image) :
    ∃ ob, parse lines = .ok ob ∧ link n ob = .ok image := by
  unfold assemble at h
  split at h
  · next ob e => exact ⟨ob, e, h⟩
  · cases h

theorem parse_ok {lines : List Text} {ob : Object} (h : parse lines = .ok ob) :
    ob.vars = (pass1 (sourceLines lines)).1 ∧ pass2 0 (pass1 (sourceLines lines)).2 = .ok (ob.labels, ob.program) := by
  unfold parse at h
  generalize pass1 (sourceLines lines) = p at *
  obtain ⟨vs, r⟩ := p
  simp only at h
  split at h
  · next e =>
    cases h
    exact ⟨rfl, e⟩
  · cases h

/-- R93, R94: a line is a label or an instruction. -/
theorem pass2_cons {k : Nat} {l : Line} {ls : List Line} {r : List (Text × Nat) × List Token}
    (h : pass2 k (l :: ls) = .ok r) :
    (∃ name labels program, labelName l.body = some name ∧ pass2 k ls = .ok (labels, program) ∧
      r = ((name, k) :: labels, program)) ∨
    (∃ toks labels program, instrTokens l.body = some toks ∧ pass2 (k + toks.length) ls = .ok (labels, program) ∧
      r = (labels, toks ++ program)) := by
  simp only [pass2] at h
  split at h
  · next name e =>
    split at h
    · next a b e2 =>
      cases h
      exact .inl ⟨_, _, _, e, e2, rfl⟩
    · cases h
  · split at h
    · cases h
    · next toks e =>
      split at h
      · next a b e2 =>
        cases h
        exact .inr ⟨_, _, _, e, e2, rfl⟩
      · cases h

/-- R94, R95: what an instruction line emits. -/
theorem instrTokens_ok {t : Text} {toks : List Token} (h : instrTokens t = some toks) :
    ∃ (o : Opcode) (os : List (OperandKind × Token)) (ts : List Text), classifyAll ts = some os ∧
      os.map Prod.fst = o.format.kinds ∧ toks = .number o.word.toInt :: os.map Prod.snd := by
  unfold instrTokens at h
  split at h
  · cases h
  · next m ops _ =>
    split at h
    · cases h
    · next os hos =>
      split at h
      · cases h
      · next o ho =>
        cases h
        unfold matchSignature at ho
        have := List.find?_some ho
        simp at this
        exact ⟨o, os, ops, hos, this.2.symm, rfl⟩

/-- R94: an operand token has the form of its kind. -/
def KindOf (o : OperandKind × Token) : Prop :=
  (o.1 = .reg ∧ ∃ n, o.2 = .register n) ∨ (o.1 = .mem ∧ ∃ n, o.2 = .address n) ∨
    (o.1 = .imm ∧ ∃ v, o.2 = .number v ∧ FitsWord v)

theorem classify_kind {t : Text} {o : OperandKind × Token} (h : classify t = some o) : KindOf o := by
  unfold classify at h
  split at h
  · split at h
    · cases h
      exact .inl ⟨rfl, _, rfl⟩
    · cases h
  · split at h
    · cases h
      exact .inr (.inl ⟨rfl, _, rfl⟩)
    · split at h
      · split at h
        · next hf =>
          cases h
          exact .inr (.inr ⟨rfl, _, rfl, hf⟩)
        · cases h
      · cases h

theorem classifyAll_kind {ts : List Text} {os : List (OperandKind × Token)} (h : classifyAll ts = some os) :
    ∀ o ∈ os, KindOf o := by
  induction ts generalizing os with
  | nil =>
    simp [classifyAll] at h
    subst h
    simp
  | cons t ts ih =>
    simp only [classifyAll] at h
    split at h
    · next e1 e2 =>
      cases h
      intro o ho
      rcases List.mem_cons.1 ho with rfl | ho
      · exact classify_kind e1
      · exact ih e2 o ho
    · cases h
    · cases h

/-! ### Identifiers and lines -/

theorem isSpace_of_ident {c : Char} (h : (isLetter c || isDigit c) = true) : isSpace c = false := by
  simp only [isLetter, isDigit, Bool.or_eq_true, Bool.and_eq_true, decide_eq_true_eq, Char.le_def,
    UInt32.le_iff_toNat_le] at h
  simp only [isSpace, Bool.or_eq_false_iff, decide_eq_false_iff_not]
  refine ⟨⟨⟨⟨⟨?_, ?_⟩, ?_⟩, ?_⟩, ?_⟩, ?_⟩ <;> rintro rfl <;> revert h <;> decide

theorem isIdent_chars {t : Text} (h : isIdent t = true) : ∀ c ∈ t, (isLetter c || isDigit c) = true := by
  cases t with
  | nil => cases h
  | cons c cs =>
    simp [isIdent] at h
    intro d hd
    rcases List.mem_cons.1 hd with rfl | hd
    · simp [h.1]
    · simpa using h.2 d hd

theorem dropWhile_of_none {p : Char → Bool} {l : List Char} (h : ∀ c ∈ l, p c = false) : l.dropWhile p = l := by
  cases l with
  | nil => rfl
  | cons a l => rw [List.dropWhile_cons, if_neg (by simp [h a])]

theorem trim_of_isIdent {t : Text} (h : isIdent t = true) : trim t = t := by
  have hh : ∀ c ∈ t, isSpace c = false := fun c hc => isSpace_of_ident (isIdent_chars h c hc)
  unfold trim
  rw [dropWhile_of_none hh, dropWhile_of_none fun c hc => hh c (List.mem_reverse.1 hc), List.reverse_reverse]

theorem isBlank_of_isIdent {t : Text} (h : isIdent t = true) : isBlank t = false := by
  cases t with
  | nil => cases h
  | cons c cs =>
    simp only [isBlank, decide_eq_false_iff_not]
    rintro rfl
    simp [isIdent] at h
    exact absurd h.1 (by decide)

/-! ### Linking -/

/-- R115: every variable has a cell exactly if `nv <= MEM_SIZE`. -/
theorem unplacedVariable_eq_none {n : Nat} {ob : Object} : unplacedVariable n ob = none ↔ ob.vars.length ≤ n :=
  List.getElem?_eq_none_iff

theorem link_ok {n : Nat} {ob : Object} {image : List Int} (h : link n ob = .ok image) :
    clashingName ob = none ∧ ob.vars.length ≤ n ∧
      ∃ body, resolveAll n ob ob.program = .ok body ∧
        image = prologue ((n : Int) - ob.vars.length) ++ body ++ [-1] := by
  unfold link at h
  split at h
  · cases h
  · next hc =>
    split at h
    · cases h
    · next hl =>
      split at h
      · next body e =>
        cases h
        exact ⟨hc, unplacedVariable_eq_none.1 hl, body, e, rfl⟩
      · cases h

theorem resolveAll_cons {n : Nat} {ob : Object} {t : Token} {ts : List Token} {vs : List Int} :
    resolveAll n ob (t :: ts) = .ok vs ↔
      ∃ v ws, resolve n ob t = .ok v ∧ resolveAll n ob ts = .ok ws ∧ vs = v :: ws := by
  simp only [resolveAll]
  cases resolve n ob t with
  | error e => simp
  | ok v =>
    cases resolveAll n ob ts with
    | error e => simp
    | ok ws => simp [eq_comm]

theorem resolveAll_length {n : Nat} {ob : Object} {ts : List Token} {vs : List Int}
    (h : resolveAll n ob ts = .ok vs) : vs.length = ts.length := by
  induction ts generalizing vs with
  | nil =>
    cases h
    rfl
  | cons t ts ih =>
    obtain ⟨v, ws, -, h2, rfl⟩ := resolveAll_cons.1 h
    simp [ih h2]

theorem resolveAll_append {n : Nat} {ob : Object} {a b : List Token} {vs : List Int}
    (h : resolveAll n ob (a ++ b) = .ok vs) :
    ∃ x y, resolveAll n ob a = .ok x ∧ resolveAll n ob b = .ok y ∧ vs = x ++ y := by
  induction a generalizing vs with
  | nil => exact ⟨[], vs, rfl, h, rfl⟩
  | cons t a ih =>
    obtain ⟨v, ws, h1, h2, rfl⟩ := resolveAll_cons.1 h
    obtain ⟨x, y, hx, hy, rfl⟩ := ih h2
    exact ⟨v :: x, y, resolveAll_cons.2 ⟨v, x, h1, hx, rfl⟩, hy, rfl⟩

theorem resolve_register {n : Nat} {ob : Object} {name : Text} {v : Int} (h : resolve n ob (.register name) = .ok v) :
    ∃ r : RegId, v = r.word.toInt := by
  simp only [resolve] at h
  split at h
  · next r e =>
    cases h
    exact ⟨r, rfl⟩
  · cases h

theorem firstRepeated_none {l : List Text} (h : firstRepeated l = none) : l.Nodup := by
  induction l with
  | nil => simp
  | cons a l ih =>
    simp only [firstRepeated] at h
    split at h
    · cases h
    · next hn => exact List.nodup_cons.2 ⟨hn, ih h⟩

/-- R112: everything that "no name clashes" says. -/
theorem clashingName_none {ob : Object} (h : clashingName ob = none) :
    firstRepeated ob.vars = none ∧ firstRepeated (ob.labels.map Prod.fst) = none ∧
      (ob.vars.find? fun n => decide (n ∈ ob.labels.map Prod.fst)) = none := by
  unfold clashingName at h
  split at h
  · cases h
  · next h1 =>
    split at h
    · cases h
    · next h2 => exact ⟨h1, h2, h⟩

theorem indexOf_of_getElem? {l : List Text} (hd : l.Nodup) {i : Nat} {x : Text} (h : l[i]? = some x) :
    indexOf x l = some i := by
  induction l generalizing i with
  | nil => simp at h
  | cons a l ih =>
    simp only [indexOf]
    cases i with
    | zero =>
      simp at h
      simp [h]
    | succ i =>
      simp at h
      rw [if_neg, ih (List.nodup_cons.1 hd).2 h]
      · rfl
      · rintro rfl
        exact (List.nodup_cons.1 hd).1 (List.mem_of_getElem? h)

theorem indexOf_eq_none {l : List Text} {x : Text} : indexOf x l = none ↔ x ∉ l := by
  induction l with
  | nil => simp [indexOf]
  | cons a l ih =>
    simp only [indexOf]
    split
    · next e => simp [e]
    · next e =>
      simp [ih]
      exact fun _ e' => e e'.symm

theorem indexOf_lt {l : List Text} {x : Text} {i : Nat} (h : indexOf x l = some i) : i < l.length := by
  induction l generalizing i with
  | nil => simp [indexOf] at h
  | cons a l ih =>
    simp only [indexOf] at h
    split at h
    · cases h
      simp
    · obtain ⟨j, hj, rfl⟩ := Option.map_eq_some_iff.1 h
      simpa using ih hj

theorem labelOffset_of_mem {l : List (Text × Nat)} (hd : (l.map Prod.fst).Nodup) {x : Text} {k : Nat}
    (h : (x, k) ∈ l) : labelOffset x l = some k := by
  induction l with
  | nil => simp at h
  | cons a l ih =>
    obtain ⟨a, b⟩ := a
    simp only [labelOffset]
    simp at hd
    rcases List.mem_cons.1 h with e | h
    · cases e
      simp
    · rw [if_neg, ih hd.2 h]
      rintro rfl
      exact hd.1 k h

theorem mem_of_labelOffset {l : List (Text × Nat)} {x : Text} {k : Nat} (h : labelOffset x l = some k) :
    (x, k) ∈ l := by
  induction l with
  | nil => simp [labelOffset] at h
  | cons a l ih =>
    obtain ⟨a, b⟩ := a
    simp only [labelOffset] at h
    split at h
    · next e =>
      cases h
      simp [e]
    · simp [ih h]

/-! ### Decimal text -/

theorem digitChar_isDigit : ∀ n < 10, isDigit (digitChar n) = true ∧ digitValue (digitChar n) = n := by decide

theorem decimalDigits_isDigit (fuel n : Nat) : ∀ c ∈ decimalDigits fuel n, isDigit c = true := by
  induction fuel generalizing n with
  | zero => simp [decimalDigits]
  | succ f ih =>
    intro c hc
    simp only [decimalDigits] at hc
    split at hc
    · next h =>
      simp at hc
      subst hc
      exact (digitChar_isDigit n h).1
    · rcases List.mem_append.1 hc with hc | hc
      · exact ih _ c hc
      · simp at hc
        subst hc
        exact (digitChar_isDigit _ (Nat.mod_lt _ (by omega))).1

theorem decimalValue_decimalDigits {fuel n : Nat} (h : n < fuel) :
    decimalValue (decimalDigits fuel n) = n ∧ decimalDigits fuel n ≠ [] := by
  induction fuel generalizing n with
  | zero => omega
  | succ f ih =>
    simp only [decimalDigits]
    split
    · next h' => exact ⟨by simp [decimalValue, (digitChar_isDigit n h').2], by simp⟩
    · next h' =>
      have e := (ih (n := n / 10) (by omega)).1
      refine ⟨?_, by simp⟩
      unfold decimalValue at e ⊢
      rw [List.foldl_append, e]
      simp only [List.foldl]
      rw [(digitChar_isDigit _ (Nat.mod_lt _ (by omega))).2]
      omega

end Sys2Proof.Machine
end

