-- ==== Sys2Proof/Laws/Datapath.lean ====
section
/-!
SUPPORT. Running micro-operations: one at a time, past a halt, and the two calls of a memory pair as one update.
-/
namespace Sys2Proof.Machine

theorem MicroOp.run_of_running {s : State} (h : s.fsm ≠ .halted) (op : MicroOp) : op.run s = op.act s := by
  unfold MicroOp.run
  cases e : s.fsm <;> simp_all

theorem MicroOp.run_of_halted {s : State} (h : s.fsm = .halted) (op : MicroOp) : op.run s = s := by
  unfold MicroOp.run
  rw [h]

theorem runMicroOps_nil (s : State) : runMicroOps [] s = s := rfl

theorem runMicroOps_cons {s : State} (h : s.fsm = .decodeExecute) (op : MicroOp) (ops : List MicroOp) :
    runMicroOps (op :: ops) s = runMicroOps ops (op.act s) := by
  show runMicroOps ops (op.run s) = _
  rw [MicroOp.run_of_running (by rw [h]; simp)]

theorem runMicroOps_append (a b : List MicroOp) (s : State) :
    runMicroOps (a ++ b) s = runMicroOps b (runMicroOps a s) := List.foldl_append

/-- R231: nothing happens after a halt. -/
theorem runMicroOps_of_halted {s : State} (h : s.fsm = .halted) (ops : List MicroOp) : runMicroOps ops s = s := by
  induction ops with
  | nil => rfl
  | cons o os ih =>
    show runMicroOps os (o.run s) = s
    rw [MicroOp.run_of_halted h, ih]

/-- R124: the two calls of a `read` as one update. -/
def afterReadPair (reason : Status) (s : State) : State :=
  if s.mem.InRange (s.get .ext) then
    (s.put .ext (s.mem.read (s.get .ext))).setMemLatch { phase := .addr, addr := s.get .ext }
  else (s.setMemLatch { phase := .data, addr := s.get .ext }).halt reason

theorem runMicroOps_memReadSeq {s : State} (reason : Status) (hf : s.fsm = .decodeExecute)
    (hp : s.dp.memLatch.phase = .addr) : runMicroOps (memReadSeq reason) s = afterReadPair reason s := by
  have e : MicroOp.act s (.memRead reason) = s.setMemLatch { phase := .data, addr := s.get .ext } := by
    simp only [MicroOp.act, State.memRead, hp]
  unfold memReadSeq
  rw [runMicroOps_cons hf, e, runMicroOps_cons (by exact hf), runMicroOps_nil]
  rfl

/-- R124: the two calls of a `store`, with the transfers that feed them, as one update. -/
def afterWritePair (reason : Status) (a v : Word) (s : State) : State :=
  if s.mem.InRange a then ((s.put .ext v).store a v).setMemLatch { phase := .addr, addr := a }
  else ((s.put .ext v).setMemLatch { phase := .data, addr := a }).halt reason

theorem runMicroOps_memWriteSeq {s : State} (reason : Status) (a v : Word) (hf : s.fsm = .decodeExecute)
    (hp : s.dp.memLatch.phase = .addr) : runMicroOps (memWriteSeq reason a v) s = afterWritePair reason a v s := by
  have e : MicroOp.act (MicroOp.act s (.put .ext a)) (.memStore reason) =
      (s.put .ext a).setMemLatch { phase := .data, addr := a } := by
    simp only [MicroOp.act, State.memStore]
    rw [show (s.put .ext a).dp.memLatch.phase = s.dp.memLatch.phase from rfl, hp]
    rfl
  unfold memWriteSeq
  rw [runMicroOps_cons hf, runMicroOps_cons (by exact hf), e, runMicroOps_cons (by exact hf),
    runMicroOps_cons (by exact hf), runMicroOps_nil]
  rfl

/-- R121, R125: the four transfers of the register that Demux selects are that register's own. -/
theorem MicroOp.act_demuxReg {s : State} {r : RegId} (h : RegId.ofWord s.dp.demux = some r) (w : Wiring) :
    MicroOp.act s (.demuxRegRead w) = MicroOp.act s (.read w (.x r)) ∧
    MicroOp.act s (.demuxRegStore w) = MicroOp.act s (.store w (.x r)) ∧
    MicroOp.act s (.demuxRegInternalRead w) = MicroOp.act s (.internalRead w (.x r)) ∧
    MicroOp.act s (.demuxRegInternalStore w) = MicroOp.act s (.internalStore w (.x r)) := by
  simp only [MicroOp.act, State.withDemuxReg, h]
  exact ⟨rfl, rfl, rfl, rfl⟩

/-- R55, U3: a paired sequence is run, from every state. -/
theorem runMicro_of_wellPaired {ops : List MicroOp} (h : wellPaired .none .none ops = true) (s : State) :
    runMicro ops s = some (runMicroOps ops s.latchesAtAddr) := if_pos h

/-- R124: the other phase. -/
def Phase.turned : Phase → Phase
  | .addr => .data
  | .data => .addr

theorem State.latches_put (s : State) (b : Bus) (v : Word) :
    (s.put b v).dp.memLatch = s.dp.memLatch ∧ (s.put b v).dp.selLatch = s.dp.selLatch := by cases b <;> exact ⟨rfl, rfl⟩

theorem State.latches_putReg (s : State) (q : StorageReg) (v : Word) : (s.putReg q v).dp = s.dp := by cases q <;> rfl

theorem State.latches_putAlu (s : State) (i : AluReg) (v : Word) :
    (s.putAlu i v).dp.memLatch = s.dp.memLatch ∧ (s.putAlu i v).dp.selLatch = s.dp.selLatch := by cases i <;> exact ⟨rfl, rfl⟩

/-- R124: what one call on the main memory does to the latches, unless it halts: its own phase is turned over. -/
theorem State.phases_memCall (s : State) (reason : Status) (t : State)
    (h : t = s.memRead reason ∨ t = s.memStore reason) : t.fsm = .halted ∨
    t.dp.memLatch.phase = s.dp.memLatch.phase.turned ∧ t.dp.selLatch = s.dp.selLatch := by
  rcases h with rfl | rfl
  · unfold State.memRead
    cases hp : s.dp.memLatch.phase
    · exact .inr ⟨rfl, rfl⟩
    · dsimp only
      split
      · exact .inr ⟨rfl, (s.latches_put ..).2⟩
      · exact .inl rfl
  · unfold State.memStore
    cases hp : s.dp.memLatch.phase
    · exact .inr ⟨rfl, rfl⟩
    · dsimp only
      split
      · exact .inr ⟨rfl, rfl⟩
      · exact .inl rfl

/-- R124, R126: the same for the status-selection memory. -/
theorem State.phases_selCall (s : State) (reason : Status) (t : State)
    (h : t = s.selRead reason ∨ t = s.selStore reason) : t.fsm = .halted ∨
    t.dp.selLatch.phase = s.dp.selLatch.phase.turned ∧ t.dp.memLatch = s.dp.memLatch := by
  rcases h with rfl | rfl
  · unfold State.selRead
    cases hp : s.dp.selLatch.phase
    · exact .inr ⟨rfl, rfl⟩
    · dsimp only
      split
      · exact .inr ⟨rfl, (s.latches_put ..).1⟩
      · exact .inl rfl
  · unfold State.selStore
    cases hp : s.dp.selLatch.phase
    · exact .inr ⟨rfl, rfl⟩
    · dsimp only
      split
      · exact .inr ⟨rfl, rfl⟩
      · exact .inl rfl

theorem State.latches_withDemuxReg (s : State) (k : RegId → State)
    (h : ∀ r, (k r).dp.memLatch = s.dp.memLatch ∧ (k r).dp.selLatch = s.dp.selLatch) :
    (s.withDemuxReg k).dp.memLatch = s.dp.memLatch ∧ (s.withDemuxReg k).dp.selLatch = s.dp.selLatch := by
  unfold State.withDemuxReg
  split
  · exact h _
  · exact ⟨rfl, rfl⟩

/-- R55: an open call that is closed or opened turns the phase that stands for it over. -/
theorem OpenCall.phase_on {c d : OpenCall} (h : c.onRead = some d ∨ c.onStore = some d) : d.phase = c.phase.turned := by
  cases c <;> cases d <;> simp_all [OpenCall.onRead, OpenCall.onStore, OpenCall.phase, Phase.turned]

/-- R55, R124: from latches that stand as the open calls say, a paired sequence ends with both latches at ADDR, unless it
halts. -/
theorem runMicroOps_closes {ops : List MicroOp} : ∀ {m n : OpenCall} {s : State}, wellPaired m n ops = true →
    s.dp.memLatch.phase = m.phase → s.dp.selLatch.phase = n.phase →
    (runMicroOps ops s).fsm = .halted ∨
      (runMicroOps ops s).dp.memLatch.phase = .addr ∧ (runMicroOps ops s).dp.selLatch.phase = .addr := by
  induction ops with
  | nil =>
    intro m n s h hm hn
    cases m <;> cases n <;> first | exact absurd h (by decide) | exact .inr ⟨hm, hn⟩
  | cons op ops ih =>
    intro m n s h hm hn
    show (runMicroOps ops (op.run s)).fsm = _ ∨ (runMicroOps ops (op.run s)).dp.memLatch.phase = _ ∧
      (runMicroOps ops (op.run s)).dp.selLatch.phase = _
    by_cases hs : s.fsm = .halted
    · rw [MicroOp.run_of_halted hs, runMicroOps_of_halted hs]
      exact .inl hs
    rw [MicroOp.run_of_running hs]
    have keep : wellPaired m n ops = true → (op.act s).dp.memLatch = s.dp.memLatch ∧
        (op.act s).dp.selLatch = s.dp.selLatch → _ := fun hw hk => ih hw (hk.1 ▸ hm) (hk.2 ▸ hn)
    have callM : ∀ m', m'.phase = m.phase.turned → wellPaired m' n ops = true → ((op.act s).fsm = .halted ∨
        (op.act s).dp.memLatch.phase = s.dp.memLatch.phase.turned ∧ (op.act s).dp.selLatch = s.dp.selLatch) → _ :=
      fun m' e hw hc => hc.elim (fun hh => .inl (by rw [runMicroOps_of_halted hh]; exact hh))
        fun hk => ih hw (by rw [hk.1, hm, e]) (hk.2 ▸ hn)
    have callS : ∀ n', n'.phase = n.phase.turned → wellPaired m n' ops = true → ((op.act s).fsm = .halted ∨
        (op.act s).dp.selLatch.phase = s.dp.selLatch.phase.turned ∧ (op.act s).dp.memLatch = s.dp.memLatch) → _ :=
      fun n' e hw hc => hc.elim (fun hh => .inl (by rw [runMicroOps_of_halted hh]; exact hh))
        fun hk => ih hw (hk.2 ▸ hm) (by rw [hk.1, hn, e])
    cases op
    case memRead reason =>
      simp only [wellPaired] at h
      split at h
      · next m' e => exact callM m' (OpenCall.phase_on (.inl e)) h (s.phases_memCall reason _ (.inl rfl))
      · cases h
    case memStore reason =>
      simp only [wellPaired] at h
      split at h
      · next m' e => exact callM m' (OpenCall.phase_on (.inr e)) h (s.phases_memCall reason _ (.inr rfl))
      · cases h
    case selRead reason =>
      simp only [wellPaired] at h
      split at h
      · next n' e => exact callS n' (OpenCall.phase_on (.inl e)) h (s.phases_selCall reason _ (.inl rfl))
      · cases h
    case selStore reason =>
      simp only [wellPaired] at h
      split at h
      · next n' e => exact callS n' (OpenCall.phase_on (.inr e)) h (s.phases_selCall reason _ (.inr rfl))
      · cases h
    case put b v => exact keep h (s.latches_put ..)
    case read w q => exact keep h (s.latches_put ..)
    case internalRead w q => exact keep h (s.latches_put ..)
    case aluRead i b => exact keep h (s.latches_put ..)
    case aluInternalRead i => exact keep h (s.latches_put ..)
    case store w q => exact keep h (by simp only [MicroOp.act, State.latches_putReg, and_self])
    case internalStore w q => exact keep h (by simp only [MicroOp.act, State.latches_putReg, and_self])
    case setFlags b => exact keep h ⟨rfl, rfl⟩
    case demuxStore b => exact keep h ⟨rfl, rfl⟩
    case aluAdd => exact keep h (s.latches_putAlu ..)
    case aluSub => exact keep h (s.latches_putAlu ..)
    case aluInc => exact keep h (s.latches_putAlu ..)
    case aluStore i b => exact keep h (s.latches_putAlu ..)
    case aluInternalStore i => exact keep h (s.latches_putAlu ..)
    case demuxRegRead w => exact keep h (s.latches_withDemuxReg _ fun _ => s.latches_put ..)
    case demuxRegInternalRead w => exact keep h (s.latches_withDemuxReg _ fun _ => s.latches_put ..)
    case demuxRegStore w => exact keep h (s.latches_withDemuxReg _ fun _ => ⟨rfl, rfl⟩)
    case demuxRegInternalStore w => exact keep h (s.latches_withDemuxReg _ fun _ => ⟨rfl, rfl⟩)

/-- R55, R124: a paired sequence that does not halt ends with both latches at ADDR, where it started: no paired sequence
ever leaves a latch at DATA for the next one. -/
theorem runMicro_closes {ops : List MicroOp} {s t : State} (h : runMicro ops s = some t) (hn : t.fsm ≠ .halted) :
    t.dp.memLatch.phase = .addr ∧ t.dp.selLatch.phase = .addr := by
  unfold runMicro at h
  split at h
  · next hw =>
    cases h
    exact (runMicroOps_closes hw rfl rfl).resolve_left hn
  · cases h

/-- R54: the addresses of the status-selection memory. -/
@[simp] theorem selIndex_of_bit (b : Bool) : selIndex (BitVec.ofNat 32 b.toNat) = some b := by cases b <;> rfl

end Sys2Proof.Machine
end

