-- ==== Sys2Proof/Laws/State.lean ====
section
/-!
SUPPORT. The fields of a state after each named update, one lemma for each field, so that no later proof unfolds a
record update; and the register accessor after each of them.
-/
namespace Sys2Proof.Machine

variable (s : State)

/-! ### Registers -/

theorem Regs.get_set (x : Regs) (r q : RegId) (v : Word) : (x.set r v).get q = if q = r then v else x.get q := by
  cases r <;> cases q <;> rfl

@[simp] theorem Regs.get_set_same (x : Regs) (r : RegId) (v : Word) : (x.set r v).get r = v := by
  cases r <;> rfl

theorem Regs.get_set_ne (x : Regs) {r q : RegId} (v : Word) (h : q ≠ r) : (x.set r v).get q = x.get q := by
  rw [Regs.get_set, if_neg h]

theorem State.x_def (r : RegId) : s.x r = s.regs.get r := rfl

theorem State.x_setX (r q : RegId) (v : Word) : (s.setX r v).x q = if q = r then v else s.x q :=
  Regs.get_set s.regs r q v

@[simp] theorem State.x_setX_same (r : RegId) (v : Word) : (s.setX r v).x r = v := Regs.get_set_same s.regs r v

theorem State.x_writeReg (r q : RegId) (v : Word) : (s.writeReg r v).x q = if q = r then v else s.x q :=
  Regs.get_set s.regs r q v

@[simp] theorem State.x_writeReg_same (r : RegId) (v : Word) : (s.writeReg r v).x r = v :=
  Regs.get_set_same s.regs r v

@[simp] theorem Sel.read_pair (f t : Word) (b : Bool) : Sel.read { slot0 := f, slot1 := t } b = if b then t else f := rfl

@[simp] theorem Memory.size_write (m : Memory) (a v : Word) : (m.write a v).size = m.size := rfl

/-! ### setX -/

@[simp] theorem State.regs_setX (r : RegId) (v : Word) : (s.setX r v).regs = s.regs.set r v := rfl
@[simp] theorem State.pc_setX (r : RegId) (v : Word) : (s.setX r v).pc = s.pc := rfl
@[simp] theorem State.ir_setX (r : RegId) (v : Word) : (s.setX r v).ir = s.ir := rfl
@[simp] theorem State.flags_setX (r : RegId) (v : Word) : (s.setX r v).flags = s.flags := rfl
@[simp] theorem State.mem_setX (r : RegId) (v : Word) : (s.setX r v).mem = s.mem := rfl
@[simp] theorem State.sel_setX (r : RegId) (v : Word) : (s.setX r v).sel = s.sel := rfl
@[simp] theorem State.fsm_setX (r : RegId) (v : Word) : (s.setX r v).fsm = s.fsm := rfl
@[simp] theorem State.status_setX (r : RegId) (v : Word) : (s.setX r v).status = s.status := rfl
@[simp] theorem State.dp_setX (r : RegId) (v : Word) : (s.setX r v).dp = s.dp := rfl
@[simp] theorem State.flagsAfterCtl_setX (r : RegId) (v : Word) : (s.setX r v).flagsAfterCtl = s.flagsAfterCtl := rfl
@[simp] theorem State.draws_setX (r : RegId) (v : Word) : (s.setX r v).draws = s.draws := rfl

/-! ### setPc -/

@[simp] theorem State.x_setPc (v : Word) (q : RegId) : (s.setPc v).x q = s.x q := rfl
@[simp] theorem State.regs_setPc (v : Word) : (s.setPc v).regs = s.regs := rfl
@[simp] theorem State.pc_setPc (v : Word) : (s.setPc v).pc = v := rfl
@[simp] theorem State.ir_setPc (v : Word) : (s.setPc v).ir = s.ir := rfl
@[simp] theorem State.flags_setPc (v : Word) : (s.setPc v).flags = s.flags := rfl
@[simp] theorem State.mem_setPc (v : Word) : (s.setPc v).mem = s.mem := rfl
@[simp] theorem State.sel_setPc (v : Word) : (s.setPc v).sel = s.sel := rfl
@[simp] theorem State.fsm_setPc (v : Word) : (s.setPc v).fsm = s.fsm := rfl
@[simp] theorem State.status_setPc (v : Word) : (s.setPc v).status = s.status := rfl
@[simp] theorem State.dp_setPc (v : Word) : (s.setPc v).dp = s.dp := rfl
@[simp] theorem State.flagsAfterCtl_setPc (v : Word) : (s.setPc v).flagsAfterCtl = s.flagsAfterCtl := rfl
@[simp] theorem State.draws_setPc (v : Word) : (s.setPc v).draws = s.draws := rfl

/-! ### store -/

@[simp] theorem State.x_store (a v : Word) (q : RegId) : (s.store a v).x q = s.x q := rfl
@[simp] theorem State.regs_store (a v : Word) : (s.store a v).regs = s.regs := rfl
@[simp] theorem State.pc_store (a v : Word) : (s.store a v).pc = s.pc := rfl
@[simp] theorem State.ir_store (a v : Word) : (s.store a v).ir = s.ir := rfl
@[simp] theorem State.flags_store (a v : Word) : (s.store a v).flags = s.flags := rfl
@[simp] theorem State.mem_store (a v : Word) : (s.store a v).mem = s.mem.write a v := rfl
@[simp] theorem State.sel_store (a v : Word) : (s.store a v).sel = s.sel := rfl
@[simp] theorem State.fsm_store (a v : Word) : (s.store a v).fsm = s.fsm := rfl
@[simp] theorem State.status_store (a v : Word) : (s.store a v).status = s.status := rfl
@[simp] theorem State.dp_store (a v : Word) : (s.store a v).dp = s.dp := rfl
@[simp] theorem State.flagsAfterCtl_store (a v : Word) : (s.store a v).flagsAfterCtl = s.flagsAfterCtl := rfl
@[simp] theorem State.draws_store (a v : Word) : (s.store a v).draws = s.draws := rfl

/-! ### setDemux -/

@[simp] theorem State.x_setDemux (w : Word) (q : RegId) : (s.setDemux w).x q = s.x q := rfl
@[simp] theorem State.regs_setDemux (w : Word) : (s.setDemux w).regs = s.regs := rfl
@[simp] theorem State.pc_setDemux (w : Word) : (s.setDemux w).pc = s.pc := rfl
@[simp] theorem State.ir_setDemux (w : Word) : (s.setDemux w).ir = s.ir := rfl
@[simp] theorem State.flags_setDemux (w : Word) : (s.setDemux w).flags = s.flags := rfl
@[simp] theorem State.mem_setDemux (w : Word) : (s.setDemux w).mem = s.mem := rfl
@[simp] theorem State.sel_setDemux (w : Word) : (s.setDemux w).sel = s.sel := rfl
@[simp] theorem State.fsm_setDemux (w : Word) : (s.setDemux w).fsm = s.fsm := rfl
@[simp] theorem State.status_setDemux (w : Word) : (s.setDemux w).status = s.status := rfl
@[simp] theorem State.flagsAfterCtl_setDemux (w : Word) : (s.setDemux w).flagsAfterCtl = s.flagsAfterCtl := rfl
@[simp] theorem State.draws_setDemux (w : Word) : (s.setDemux w).draws = s.draws := rfl

/-! ### halt -/

@[simp] theorem State.x_halt (r : Status) (q : RegId) : (s.halt r).x q = s.x q := rfl
@[simp] theorem State.regs_halt (r : Status) : (s.halt r).regs = s.regs := rfl
@[simp] theorem State.pc_halt (r : Status) : (s.halt r).pc = s.pc := rfl
@[simp] theorem State.ir_halt (r : Status) : (s.halt r).ir = s.ir := rfl
@[simp] theorem State.flags_halt (r : Status) : (s.halt r).flags = s.flags := rfl
@[simp] theorem State.mem_halt (r : Status) : (s.halt r).mem = s.mem := rfl
@[simp] theorem State.sel_halt (r : Status) : (s.halt r).sel = s.sel := rfl
@[simp] theorem State.fsm_halt (r : Status) : (s.halt r).fsm = .halted := rfl
@[simp] theorem State.status_halt (r : Status) : (s.halt r).status = r := rfl
@[simp] theorem State.dp_halt (r : Status) : (s.halt r).dp = s.dp := rfl
@[simp] theorem State.flagsAfterCtl_halt (r : Status) : (s.halt r).flagsAfterCtl = s.flagsAfterCtl := rfl
@[simp] theorem State.draws_halt (r : Status) : (s.halt r).draws = s.draws := rfl

/-! ### countDraw -/

@[simp] theorem State.x_countDraw (q : RegId) : (s.countDraw).x q = s.x q := rfl
@[simp] theorem State.regs_countDraw : (s.countDraw).regs = s.regs := rfl
@[simp] theorem State.pc_countDraw : (s.countDraw).pc = s.pc := rfl
@[simp] theorem State.ir_countDraw : (s.countDraw).ir = s.ir := rfl
@[simp] theorem State.flags_countDraw : (s.countDraw).flags = s.flags := rfl
@[simp] theorem State.mem_countDraw : (s.countDraw).mem = s.mem := rfl
@[simp] theorem State.sel_countDraw : (s.countDraw).sel = s.sel := rfl
@[simp] theorem State.fsm_countDraw : (s.countDraw).fsm = s.fsm := rfl
@[simp] theorem State.status_countDraw : (s.countDraw).status = s.status := rfl
@[simp] theorem State.dp_countDraw : (s.countDraw).dp = s.dp := rfl
@[simp] theorem State.flagsAfterCtl_countDraw : (s.countDraw).flagsAfterCtl = s.flagsAfterCtl := rfl
@[simp] theorem State.draws_countDraw : (s.countDraw).draws = s.draws + 1 := rfl

/-! ### latchesAtAddr -/

@[simp] theorem State.regs_latchesAtAddr : (s.latchesAtAddr).regs = s.regs := rfl
@[simp] theorem State.pc_latchesAtAddr : (s.latchesAtAddr).pc = s.pc := rfl
@[simp] theorem State.ir_latchesAtAddr : (s.latchesAtAddr).ir = s.ir := rfl
@[simp] theorem State.flags_latchesAtAddr : (s.latchesAtAddr).flags = s.flags := rfl
@[simp] theorem State.mem_latchesAtAddr : (s.latchesAtAddr).mem = s.mem := rfl
@[simp] theorem State.sel_latchesAtAddr : (s.latchesAtAddr).sel = s.sel := rfl
@[simp] theorem State.fsm_latchesAtAddr : (s.latchesAtAddr).fsm = s.fsm := rfl
@[simp] theorem State.status_latchesAtAddr : (s.latchesAtAddr).status = s.status := rfl
@[simp] theorem State.flagsAfterCtl_latchesAtAddr : (s.latchesAtAddr).flagsAfterCtl = s.flagsAfterCtl := rfl
@[simp] theorem State.draws_latchesAtAddr : (s.latchesAtAddr).draws = s.draws := rfl
@[simp] theorem State.x_latchesAtAddr (q : RegId) : (s.latchesAtAddr).x q = s.x q := rfl
@[simp] theorem State.dp_latchesAtAddr : (s.latchesAtAddr).dp = s.dp.latchesAtAddr := rfl
@[simp] theorem Datapath.latchesAtAddr_memLatch (d : Datapath) :
    d.latchesAtAddr.memLatch = { phase := .addr, addr := d.memLatch.addr } := rfl
@[simp] theorem Datapath.latchesAtAddr_selLatch (d : Datapath) :
    d.latchesAtAddr.selLatch = { phase := .addr, addr := d.selLatch.addr } := rfl

/-! ### selectPc -/

@[simp] theorem State.x_selectPc (b : Bool) (t : Word) (q : RegId) : (s.selectPc b t).x q = s.x q := rfl
@[simp] theorem State.regs_selectPc (b : Bool) (t : Word) : (s.selectPc b t).regs = s.regs := rfl
@[simp] theorem State.pc_selectPc (b : Bool) (t : Word) : (s.selectPc b t).pc = if b then t else s.pc := rfl
@[simp] theorem State.ir_selectPc (b : Bool) (t : Word) : (s.selectPc b t).ir = s.ir := rfl
@[simp] theorem State.flags_selectPc (b : Bool) (t : Word) : (s.selectPc b t).flags = s.flags := rfl
@[simp] theorem State.mem_selectPc (b : Bool) (t : Word) : (s.selectPc b t).mem = s.mem := rfl
@[simp] theorem State.sel_selectPc (b : Bool) (t : Word) : (s.selectPc b t).sel = { slot0 := s.pc, slot1 := t } := rfl
@[simp] theorem State.fsm_selectPc (b : Bool) (t : Word) : (s.selectPc b t).fsm = s.fsm := rfl
@[simp] theorem State.status_selectPc (b : Bool) (t : Word) : (s.selectPc b t).status = s.status := rfl
@[simp] theorem State.dp_selectPc (b : Bool) (t : Word) : (s.selectPc b t).dp = s.dp := rfl
@[simp] theorem State.flagsAfterCtl_selectPc (b : Bool) (t : Word) : (s.selectPc b t).flagsAfterCtl = s.flagsAfterCtl := rfl
@[simp] theorem State.draws_selectPc (b : Bool) (t : Word) : (s.selectPc b t).draws = s.draws := rfl

/-! ### withFlags -/

@[simp] theorem State.x_withFlags (f : Flags) (q : RegId) : (s.withFlags f).x q = s.x q := rfl
@[simp] theorem State.regs_withFlags (f : Flags) : (s.withFlags f).regs = s.regs := rfl
@[simp] theorem State.pc_withFlags (f : Flags) : (s.withFlags f).pc = s.pc := rfl
@[simp] theorem State.ir_withFlags (f : Flags) : (s.withFlags f).ir = s.ir := rfl
@[simp] theorem State.flags_withFlags (f : Flags) : (s.withFlags f).flags = f := rfl
@[simp] theorem State.mem_withFlags (f : Flags) : (s.withFlags f).mem = s.mem := rfl
@[simp] theorem State.sel_withFlags (f : Flags) : (s.withFlags f).sel = s.sel := rfl
@[simp] theorem State.fsm_withFlags (f : Flags) : (s.withFlags f).fsm = s.fsm := rfl
@[simp] theorem State.status_withFlags (f : Flags) : (s.withFlags f).status = s.status := rfl
@[simp] theorem State.dp_withFlags (f : Flags) : (s.withFlags f).dp = s.dp := rfl
@[simp] theorem State.flagsAfterCtl_withFlags (f : Flags) : (s.withFlags f).flagsAfterCtl = s.flagsAfterCtl := rfl
@[simp] theorem State.draws_withFlags (f : Flags) : (s.withFlags f).draws = s.draws := rfl

/-! ### setFlags -/

@[simp] theorem State.x_setFlags (v : Word) (q : RegId) : (s.setFlags v).x q = s.x q := rfl
@[simp] theorem State.regs_setFlags (v : Word) : (s.setFlags v).regs = s.regs := rfl
@[simp] theorem State.pc_setFlags (v : Word) : (s.setFlags v).pc = s.pc := rfl
@[simp] theorem State.ir_setFlags (v : Word) : (s.setFlags v).ir = s.ir := rfl
@[simp] theorem State.flags_setFlags (v : Word) : (s.setFlags v).flags = flagsOf v := rfl
@[simp] theorem State.mem_setFlags (v : Word) : (s.setFlags v).mem = s.mem := rfl
@[simp] theorem State.sel_setFlags (v : Word) : (s.setFlags v).sel = s.sel := rfl
@[simp] theorem State.fsm_setFlags (v : Word) : (s.setFlags v).fsm = s.fsm := rfl
@[simp] theorem State.status_setFlags (v : Word) : (s.setFlags v).status = s.status := rfl
@[simp] theorem State.dp_setFlags (v : Word) : (s.setFlags v).dp = s.dp := rfl
@[simp] theorem State.flagsAfterCtl_setFlags (v : Word) : (s.setFlags v).flagsAfterCtl = s.flagsAfterCtl := rfl
@[simp] theorem State.draws_setFlags (v : Word) : (s.setFlags v).draws = s.draws := rfl

/-! ### writeReg -/

@[simp] theorem State.regs_writeReg (r : RegId) (v : Word) : (s.writeReg r v).regs = s.regs.set r v := rfl
@[simp] theorem State.pc_writeReg (r : RegId) (v : Word) : (s.writeReg r v).pc = s.pc := rfl
@[simp] theorem State.ir_writeReg (r : RegId) (v : Word) : (s.writeReg r v).ir = s.ir := rfl
@[simp] theorem State.flags_writeReg (r : RegId) (v : Word) : (s.writeReg r v).flags = flagsOf v := rfl
@[simp] theorem State.mem_writeReg (r : RegId) (v : Word) : (s.writeReg r v).mem = s.mem := rfl
@[simp] theorem State.sel_writeReg (r : RegId) (v : Word) : (s.writeReg r v).sel = s.sel := rfl
@[simp] theorem State.fsm_writeReg (r : RegId) (v : Word) : (s.writeReg r v).fsm = s.fsm := rfl
@[simp] theorem State.status_writeReg (r : RegId) (v : Word) : (s.writeReg r v).status = s.status := rfl
@[simp] theorem State.dp_writeReg (r : RegId) (v : Word) : (s.writeReg r v).dp = s.dp := rfl
@[simp] theorem State.flagsAfterCtl_writeReg (r : RegId) (v : Word) : (s.writeReg r v).flagsAfterCtl = s.flagsAfterCtl := rfl
@[simp] theorem State.draws_writeReg (r : RegId) (v : Word) : (s.writeReg r v).draws = s.draws := rfl

/-! ### writeCell -/

@[simp] theorem State.x_writeCell (a v : Word) (q : RegId) : (s.writeCell a v).x q = s.x q := rfl
@[simp] theorem State.regs_writeCell (a v : Word) : (s.writeCell a v).regs = s.regs := rfl
@[simp] theorem State.pc_writeCell (a v : Word) : (s.writeCell a v).pc = s.pc := rfl
@[simp] theorem State.ir_writeCell (a v : Word) : (s.writeCell a v).ir = s.ir := rfl
@[simp] theorem State.flags_writeCell (a v : Word) : (s.writeCell a v).flags = flagsOf v := rfl
@[simp] theorem State.mem_writeCell (a v : Word) : (s.writeCell a v).mem = s.mem.write a v := rfl
@[simp] theorem State.sel_writeCell (a v : Word) : (s.writeCell a v).sel = s.sel := rfl
@[simp] theorem State.fsm_writeCell (a v : Word) : (s.writeCell a v).fsm = s.fsm := rfl
@[simp] theorem State.status_writeCell (a v : Word) : (s.writeCell a v).status = s.status := rfl
@[simp] theorem State.dp_writeCell (a v : Word) : (s.writeCell a v).dp = s.dp := rfl
@[simp] theorem State.flagsAfterCtl_writeCell (a v : Word) : (s.writeCell a v).flagsAfterCtl = s.flagsAfterCtl := rfl
@[simp] theorem State.draws_writeCell (a v : Word) : (s.writeCell a v).draws = s.draws := rfl

/-! ### fetched -/

@[simp] theorem State.x_fetched (q : RegId) : (s.fetched).x q = s.x q := rfl
@[simp] theorem State.regs_fetched : (s.fetched).regs = s.regs := rfl
@[simp] theorem State.pc_fetched : (s.fetched).pc = s.pc + 1 := rfl
@[simp] theorem State.ir_fetched : (s.fetched).ir = s.mem.read s.pc := rfl
@[simp] theorem State.flags_fetched : (s.fetched).flags = s.flags := rfl
@[simp] theorem State.mem_fetched : (s.fetched).mem = s.mem := rfl
@[simp] theorem State.sel_fetched : (s.fetched).sel = s.sel := rfl
@[simp] theorem State.fsm_fetched : (s.fetched).fsm = .decodeExecute := rfl
@[simp] theorem State.status_fetched : (s.fetched).status = s.status := rfl
@[simp] theorem State.dp_fetched : (s.fetched).dp = s.dp := rfl
@[simp] theorem State.flagsAfterCtl_fetched : (s.fetched).flagsAfterCtl = s.flagsAfterCtl := rfl
@[simp] theorem State.draws_fetched : (s.fetched).draws = s.draws := rfl

/-! ### settle -/

@[simp] theorem State.x_settle (q : RegId) : (s.settle).x q = s.x q := rfl
@[simp] theorem State.regs_settle : (s.settle).regs = s.regs := rfl
@[simp] theorem State.pc_settle : (s.settle).pc = s.pc := rfl
@[simp] theorem State.ir_settle : (s.settle).ir = s.ir := rfl
@[simp] theorem State.flags_settle : (s.settle).flags = s.flags := rfl
@[simp] theorem State.mem_settle : (s.settle).mem = s.mem := rfl
@[simp] theorem State.sel_settle : (s.settle).sel = s.sel := rfl
@[simp] theorem State.fsm_settle : (s.settle).fsm = s.fsm.afterHandler := rfl
@[simp] theorem State.status_settle : (s.settle).status = s.status := rfl
@[simp] theorem State.dp_settle : (s.settle).dp = freeDatapath s.draws := rfl
@[simp] theorem State.flagsAfterCtl_settle : (s.settle).flagsAfterCtl = s.flagsAfterCtl := rfl
@[simp] theorem State.draws_settle : (s.settle).draws = s.draws + 1 := rfl

end Sys2Proof.Machine
end

