-- ==== Sys2Proof/Laws/Memory.lean ====
section
/-!
SUPPORT. The memory bank: a read after a write, the canonical form kept by every memory operation, and the canonical
form's purpose, that memories of one size with the same words are equal data.
-/
namespace Sys2Proof.Machine

/-- The canonical form of a cell list, without the bound on addresses. -/
abbrev CellsWf (cs : List (Nat × Word)) : Prop :=
  cs.Pairwise (fun p q => p.1 < q.1) ∧ ∀ p ∈ cs, p.2 ≠ unlistedWord

theorem readCells_consCell (a b : Nat) (v : Word) (rest : List (Nat × Word)) (h : ∀ p ∈ rest, a < p.1) :
    readCells (consCell a v rest) b = if b = a then v else readCells rest b := by
  have unlisted : ∀ (cs : List (Nat × Word)), (∀ p ∈ cs, a < p.1) → readCells cs a = unlistedWord := by
    intro cs hcs
    induction cs with
    | nil => rfl
    | cons p cs ih =>
      have hp := hcs p (by simp)
      simp only [readCells, if_neg (Nat.ne_of_lt hp)]
      exact ih fun q hq => hcs q (by simp [hq])
  unfold consCell
  split
  · next hv =>
    split
    · next hb => rw [hb, hv, unlisted rest h]
    · rfl
  · rfl

theorem consCell_wf {a : Nat} {v : Word} {rest : List (Nat × Word)} (hr : CellsWf rest) (h : ∀ p ∈ rest, a < p.1) :
    CellsWf (consCell a v rest) := by
  unfold consCell
  split
  · exact hr
  · next hv =>
    refine ⟨List.pairwise_cons.2 ⟨h, hr.1⟩, ?_⟩
    intro p hp
    rcases List.mem_cons.1 hp with rfl | hp
    · exact hv
    · exact hr.2 p hp

theorem mem_consCell {a : Nat} {v : Word} {rest : List (Nat × Word)} {p : Nat × Word} (h : p ∈ consCell a v rest) :
    p = (a, v) ∨ p ∈ rest := by
  unfold consCell at h
  split at h
  · exact .inr h
  · exact List.mem_cons.1 h

theorem mem_writeCells {cs : List (Nat × Word)} {a : Nat} {v : Word} {p : Nat × Word} (h : p ∈ writeCells cs a v) :
    p.1 = a ∨ p ∈ cs := by
  induction cs with
  | nil =>
    rcases mem_consCell h with rfl | h
    · exact .inl rfl
    · exact .inr h
  | cons q cs ih =>
    obtain ⟨b, w⟩ := q
    simp only [writeCells] at h
    split at h
    · rcases mem_consCell h with rfl | h
      · exact .inl rfl
      · exact .inr h
    · split at h
      · rcases mem_consCell h with rfl | h
        · exact .inl rfl
        · exact .inr (List.mem_cons_of_mem _ h)
      · rcases List.mem_cons.1 h with rfl | h
        · exact .inr (by simp)
        · rcases ih h with h | h
          · exact .inl h
          · exact .inr (List.mem_cons_of_mem _ h)

theorem writeCells_wf {cs : List (Nat × Word)} (a : Nat) (v : Word) (h : CellsWf cs) : CellsWf (writeCells cs a v) := by
  induction cs with
  | nil => exact consCell_wf h (by simp)
  | cons q cs ih =>
    obtain ⟨b, w⟩ := q
    have hcs : CellsWf cs := ⟨(List.pairwise_cons.1 h.1).2, fun p hp => h.2 p (List.mem_cons_of_mem _ hp)⟩
    have hlt : ∀ p ∈ cs, b < p.1 := (List.pairwise_cons.1 h.1).1
    simp only [writeCells]
    split
    · next hab =>
      refine consCell_wf h fun p hp => ?_
      rcases List.mem_cons.1 hp with rfl | hp
      · exact hab
      · exact Nat.lt_trans hab (hlt p hp)
    · split
      · next hab => exact consCell_wf hcs fun p hp => hab ▸ hlt p hp
      · next h1 h2 =>
        refine ⟨List.pairwise_cons.2 ⟨fun p hp => ?_, (ih hcs).1⟩, fun p hp => ?_⟩
        · rcases mem_writeCells hp with e | hp
          · simp only [e]; omega
          · exact hlt p hp
        · rcases List.mem_cons.1 hp with rfl | hp
          · exact h.2 _ (by simp)
          · exact (ih hcs).2 p hp

theorem readCells_writeCells {cs : List (Nat × Word)} (a b : Nat) (v : Word) (h : CellsWf cs) :
    readCells (writeCells cs a v) b = if b = a then v else readCells cs b := by
  induction cs with
  | nil => exact readCells_consCell a b v [] (by simp)
  | cons q cs ih =>
    obtain ⟨c, w⟩ := q
    have hcs : CellsWf cs := ⟨(List.pairwise_cons.1 h.1).2, fun p hp => h.2 p (List.mem_cons_of_mem _ hp)⟩
    have hlt : ∀ p ∈ cs, c < p.1 := (List.pairwise_cons.1 h.1).1
    simp only [writeCells]
    split
    · next hac =>
      refine readCells_consCell a b v _ fun p hp => ?_
      rcases List.mem_cons.1 hp with rfl | hp
      · exact hac
      · exact Nat.lt_trans hac (hlt p hp)
    · split
      · next hac =>
        subst hac
        rw [readCells_consCell a b v cs hlt]
        simp only [readCells]
        split <;> rfl
      · next h1 h2 =>
        simp only [readCells, ih hcs]
        split
        · next hbc => rw [if_neg (by omega)]
        · rfl

theorem Memory.wf_cells {m : Memory} (h : m.wf) : CellsWf m.cells := ⟨h.1, fun p hp => (h.2 p hp).2⟩

/-- A write in range keeps the canonical form. -/
theorem Memory.wf_write {m : Memory} {a : Word} (v : Word) (h : m.wf) (ha : m.InRange a) : (m.write a v).wf := by
  have hc := writeCells_wf a.toNat v (Memory.wf_cells h)
  refine ⟨hc.1, fun p hp => ⟨?_, hc.2 p hp⟩⟩
  rcases mem_writeCells hp with e | hp
  · rw [e, Memory.size_write]
    have := ha.1
    have := ha.2
    have := BitVec.toInt_eq_toNat_cond a
    split at this <;> omega
  · exact (h.2 p hp).1

/-- A read after a write: the written cell gives the word written, every other cell what it gave before. -/
theorem Memory.read_write {m : Memory} (a b v : Word) (h : m.wf) :
    (m.write a v).read b = if b = a then v else m.read b := by
  unfold Memory.read Memory.write
  rw [readCells_writeCells a.toNat b.toNat v (Memory.wf_cells h)]
  by_cases e : b = a
  · simp [e]
  · rw [if_neg e, if_neg fun h => e (BitVec.eq_of_toNat_eq h)]

@[simp] theorem Memory.read_write_same {m : Memory} (a v : Word) (h : m.wf) : (m.write a v).read a = v := by
  rw [Memory.read_write a a v h, if_pos rfl]

theorem Memory.read_write_ne {m : Memory} {a b : Word} (v : Word) (h : m.wf) (e : b ≠ a) :
    (m.write a v).read b = m.read b := by
  rw [Memory.read_write a b v h, if_neg e]

@[simp] theorem Memory.size_writeMany (m : Memory) (a : Word) (ws : List Word) : (m.writeMany a ws).size = m.size := by
  induction ws generalizing m a with
  | nil => rfl
  | cons w ws ih =>
    simp only [Memory.writeMany, ih]
    split <;> rfl

/-- Storing a list of words keeps the canonical form. -/
theorem Memory.wf_writeMany {m : Memory} (a : Word) (ws : List Word) (h : m.wf) : (m.writeMany a ws).wf := by
  induction ws generalizing m a with
  | nil => exact h
  | cons w ws ih =>
    simp only [Memory.writeMany]
    apply ih
    split
    · next ha => exact Memory.wf_write w h ha
    · exact h

theorem State.wf_withFetchWord {s : State} (nbits w : Nat) (h : s.mem.wf) : (s.withFetchWord nbits w).mem.wf :=
  Memory.wf_writeMany s.pc (tableWords nbits w) h

/-- In a cell list in canonical form, a listed cell reads as its word. -/
theorem readCells_of_mem {cs : List (Nat × Word)} (h : CellsWf cs) {p : Nat × Word} (hp : p ∈ cs) :
    readCells cs p.1 = p.2 := by
  induction cs with
  | nil => simp at hp
  | cons q cs ih =>
    rcases List.mem_cons.1 hp with rfl | hp
    · simp [readCells]
    · have hlt := (List.pairwise_cons.1 h.1).1 p hp
      simp only [readCells, if_neg (Nat.ne_of_gt hlt)]
      exact ih ⟨(List.pairwise_cons.1 h.1).2, fun r hr => h.2 r (List.mem_cons_of_mem _ hr)⟩ hp

/-- A cell that does not read as an unlisted one is listed with the word it reads as. -/
theorem mem_of_readCells {cs : List (Nat × Word)} {a : Nat} (h : readCells cs a ≠ unlistedWord) :
    (a, readCells cs a) ∈ cs := by
  induction cs with
  | nil => simp [readCells] at h
  | cons q cs ih =>
    obtain ⟨b, w⟩ := q
    simp only [readCells] at h ⊢
    split
    · next e => simp [e]
    · next e =>
      rw [if_neg e] at h
      exact List.mem_cons_of_mem _ (ih h)

/-- Two cell lists in canonical form that read the same are equal. -/
theorem cells_ext {cs ds : List (Nat × Word)} (h : CellsWf cs) (h' : CellsWf ds)
    (e : ∀ a, readCells cs a = readCells ds a) : cs = ds := by
  have sub : ∀ {cs ds : List (Nat × Word)}, CellsWf cs → (∀ a, readCells cs a = readCells ds a) → ∀ p ∈ cs, p ∈ ds := by
    intro cs ds h e p hp
    have h1 := readCells_of_mem h hp
    have h2 := mem_of_readCells (cs := ds) (a := p.1) (by rw [← e, h1]; exact h.2 p hp)
    rw [← e, h1] at h2
    exact h2
  have nodup : ∀ {l : List (Nat × Word)}, l.Pairwise (fun p q => p.1 < q.1) → l.Nodup := fun hl =>
    hl.imp fun hh he => by subst he; exact Nat.lt_irrefl _ hh
  refine List.Perm.eq_of_pairwise (le := fun p q => p.1 < q.1) (fun a b _ _ h1 h2 => by omega) h.1 h'.1 ?_
  exact (List.perm_ext_iff_of_nodup (nodup h.1) (nodup h'.1)).2 fun p =>
    ⟨sub h e p, sub h' (fun a => (e a).symm) p⟩

/-- A cell past every listed one reads as an unlisted one. -/
theorem readCells_of_le {cs : List (Nat × Word)} {n a : Nat} (h : ∀ p ∈ cs, p.1 < n) (ha : n ≤ a) :
    readCells cs a = unlistedWord := by
  by_contra hc
  exact absurd (h _ (mem_of_readCells hc)) (Nat.not_lt.2 ha)

/-- R50 to R52: two memories of one size in canonical form whose every cell reads the same are equal data. -/
theorem Memory.ext_of_read {m n : Memory} (hs : m.SizeOk) (hm : m.wf) (hn : n.wf) (size : m.size = n.size)
    (h : ∀ a : Word, m.InRange a → m.read a = n.read a) : m = n := by
  have hs2 := hs.2
  simp only [maxMemSize] at hs2
  have cells : m.cells = n.cells := by
    refine cells_ext (Memory.wf_cells hm) (Memory.wf_cells hn) fun a => ?_
    by_cases ha : a < m.size
    · have e : (BitVec.ofNat 32 a).toNat = a := by rw [BitVec.toNat_ofNat, Nat.mod_eq_of_lt (by omega)]
      have i : (BitVec.ofNat 32 a).toInt = a := by rw [BitVec.toInt_eq_toNat_cond, e, if_pos (by omega)]
      have r := h (BitVec.ofNat 32 a) ⟨by omega, by omega⟩
      unfold Memory.read at r
      rwa [e] at r
    · rw [readCells_of_le (n := m.size) (fun p hp => (hm.2 p hp).1) (by omega),
        readCells_of_le (n := n.size) (fun p hp => (hn.2 p hp).1) (by omega)]
  cases m
  cases n
  simp_all

theorem State.reset_mem_wf : State.reset.mem.wf := by decide

end Sys2Proof.Machine
end

