-- ==== Sys2Proof/Laws/Ops.lean ====
section
/-!
SUPPORT. Everything that each shared operation can do, said once. `Holds r P` says that a result is a next state with
`P`; one equivalence for each operation turns `Holds` of it into `Holds` of what comes after it, one clause for each way
it can go. `eq_next_iff_holds` turns an answer `next t` into `Holds`.
-/
namespace Sys2Proof.Machine

/-- The result is a next state, and `P` holds of it. -/
def Holds (r : Result) (P : State → Prop) : Prop := ∃ t, r = .next t ∧ P t

theorem eq_next_iff_holds {r : Result} {t : State} : r = .next t ↔ Holds r (· = t) :=
  ⟨fun h => ⟨t, h, rfl⟩, fun ⟨_, h, e⟩ => e ▸ h⟩

theorem Holds.mono {r : Result} {P Q : State → Prop} (h : Holds r P) (hpq : ∀ t, P t → Q t) : Holds r Q :=
  let ⟨t, e, p⟩ := h
  ⟨t, e, hpq t p⟩

theorem Holds.of_eq {r : Result} {P : State → Prop} {t : State} (h : Holds r P) (e : r = .next t) : P t := by
  obtain ⟨u, hu, p⟩ := h
  rw [e] at hu
  cases hu
  exact p

@[simp] theorem holds_next {t : State} {P : State → Prop} : Holds (.next t) P ↔ P t :=
  ⟨fun h => h.of_eq rfl, fun p => ⟨t, rfl, p⟩⟩

@[simp] theorem holds_raiseHalt {r : Status} {s : State} {P : State → Prop} : Holds (raiseHalt r s) P ↔ P (s.halt r) :=
  holds_next

theorem holds_ite {c : Prop} [Decidable c] {a b : Result} {P : State → Prop} :
    Holds (if c then a else b) P ↔ (c → Holds a P) ∧ (¬ c → Holds b P) := by
  split <;> simp_all

theorem holds_fetchWord {s : State} {k : State → Result} {P : State → Prop} :
    Holds (fetchWord s k) P ↔
      (s.mem.InRange s.pc → Holds (k (s.setPc (s.pc + 1))) P) ∧
      (¬ s.mem.InRange s.pc → P (s.halt .haltOperandRange)) := by
  unfold fetchWord
  rw [holds_ite, holds_raiseHalt]

theorem holds_fetchReg {o : RegOperand} {s : State} {k : RegId → State → Result} {P : State → Prop} :
    Holds (fetchReg o s k) P ↔
      (s.mem.InRange s.pc →
        (∀ r, o = .reg r → Holds (k r ((s.setPc (s.pc + 1)).setDemux r.word)) P) ∧
        (∀ w, o = .illegal w → P ((s.setPc (s.pc + 1)).halt .faultBadRegister))) ∧
      (¬ s.mem.InRange s.pc → P (s.halt .haltOperandRange)) := by
  unfold fetchReg
  rw [holds_fetchWord]
  cases o <;> simp

theorem holds_fetchAddr {a : Word} {s : State} {k : State → Result} {P : State → Prop} :
    Holds (fetchAddr a s k) P ↔
      (s.mem.InRange s.pc →
        (s.mem.InRange a → Holds (k (s.setPc (s.pc + 1))) P) ∧
        (¬ s.mem.InRange a → P ((s.setPc (s.pc + 1)).halt .haltDataRange))) ∧
      (¬ s.mem.InRange s.pc → P (s.halt .haltOperandRange)) := by
  unfold fetchAddr
  rw [holds_fetchWord]
  refine and_congr_left' (imp_congr_right fun _ => ?_)
  exact holds_ite.trans (and_congr_right' (imp_congr_right fun _ => holds_raiseHalt))

theorem holds_fetchCell {a : Word} {s : State} {k : Word → State → Result} {P : State → Prop} :
    Holds (fetchCell a s k) P ↔
      (s.mem.InRange s.pc →
        (s.mem.InRange a → Holds (k (s.mem.read a) (s.setPc (s.pc + 1))) P) ∧
        (¬ s.mem.InRange a → P ((s.setPc (s.pc + 1)).halt .haltDataRange))) ∧
      (¬ s.mem.InRange s.pc → P (s.halt .haltOperandRange)) := by
  unfold fetchCell
  rw [holds_fetchAddr]
  simp only [State.mem_setPc]

theorem holds_drawBit {what : Config.BitDraw} {s : State} {k : Bool → State → Result} {P : State → Prop} :
    Holds (drawBit what s k) P ↔ Holds (k (Config.freeBit what s.draws) s.countDraw) P := Iff.rfl

theorem holds_gtBit {a b : Word} {s : State} {k : Bool → State → Result} {P : State → Prop} :
    Holds (gtBit a b s k) P ↔
      (FitsWord (a.toInt - b.toInt) → Holds (k (decide (b.toInt < a.toInt)) s) P) ∧
      (¬ FitsWord (a.toInt - b.toInt) → Holds (k (Config.freeBit .gtOverflow s.draws) s.countDraw) P) := by
  unfold gtBit
  rw [holds_ite, holds_drawBit]

theorem holds_lwBit {a b : Word} {s : State} {k : Bool → State → Result} {P : State → Prop} :
    Holds (lwBit a b s k) P ↔
      (FitsWord (a.toInt - b.toInt) → Holds (k (decide (a.toInt < b.toInt)) s) P) ∧
      (¬ FitsWord (a.toInt - b.toInt) → Holds (k (Config.freeBit .lwOverflow s.draws) s.countDraw) P) := by
  unfold lwBit
  rw [holds_ite, holds_drawBit]

theorem holds_flagsAfterCtl {s : State} {P : State → Prop} :
    Holds (flagsAfterCtl s) P ↔
      (s.flagsAfterCtl = .preserve → P s) ∧
      (s.flagsAfterCtl = .any →
        P (s.countDraw.countDraw.withFlags
          { z := Config.freeBit .flagZ s.draws, n := Config.freeBit .flagN (s.draws + 1) })) := by
  unfold flagsAfterCtl
  cases h : s.flagsAfterCtl <;> simp [holds_drawBit]

theorem holds_pushWord {v : Word} {s : State} {k : State → Result} {P : State → Prop} :
    Holds (pushWord v s k) P ↔
      (s.StackOk ((s.x .stkTOP).toInt - 1) →
        Holds (k ((s.setX .stkTOP (wrap ((s.x .stkTOP).toInt - 1))).store (wrap ((s.x .stkTOP).toInt - 1)) v)) P) ∧
      (¬ s.StackOk ((s.x .stkTOP).toInt - 1) → P (s.halt .faultStack)) := by
  unfold pushWord
  rw [holds_ite, holds_raiseHalt]

theorem holds_popWord {s : State} {k : Word → State → Result} {P : State → Prop} :
    Holds (popWord s k) P ↔
      (s.StackOk (s.x .stkTOP).toInt →
        Holds (k (s.mem.read (s.x .stkTOP)) (s.setX .stkTOP (s.x .stkTOP + 1))) P) ∧
      (¬ s.StackOk (s.x .stkTOP).toInt → P (s.halt .faultStack)) := by
  unfold popWord
  rw [holds_ite, holds_raiseHalt, incWrap_eq]

/-- R211, R214: an allowed stack address is an address of the memory. -/
theorem State.StackOk.inRange {s : State} {a : Word} (h : s.StackOk a.toInt) : s.mem.InRange a :=
  ⟨h.1, lt_of_lt_of_le h.2 (min_le_right _ _)⟩

/-- The pushed word's address is an address of the memory. -/
theorem State.StackOk.inRange_wrap {s : State} (h : s.StackOk ((s.x .stkTOP).toInt - 1)) :
    s.mem.InRange (wrap ((s.x .stkTOP).toInt - 1)) := by
  have hf : FitsWord ((s.x .stkTOP).toInt - 1) :=
    ⟨by have := h.1; simp only [minInt]; omega, by have := (fits_toInt (s.x .stkTOP)).2; omega⟩
  apply State.StackOk.inRange
  rw [toInt_wrap_of_fits hf]
  exact h

/-! ### The operations on a path that does not halt -/

theorem fetchWord_of_inRange {s : State} {k : State → Result} (h : s.mem.InRange s.pc) :
    fetchWord s k = k (s.setPc (s.pc + 1)) := if_pos h

theorem fetchWord_of_not_inRange {s : State} {k : State → Result} (h : ¬ s.mem.InRange s.pc) :
    fetchWord s k = .next (s.halt .haltOperandRange) := if_neg h

theorem fetchReg_of_inRange {s : State} {r : RegId} {k : RegId → State → Result} (h : s.mem.InRange s.pc) :
    fetchReg (.reg r) s k = k r ((s.setPc (s.pc + 1)).setDemux r.word) := fetchWord_of_inRange h

theorem fetchReg_illegal {s : State} {w : Word} {k : RegId → State → Result} (h : s.mem.InRange s.pc) :
    fetchReg (.illegal w) s k = .next ((s.setPc (s.pc + 1)).halt .faultBadRegister) := fetchWord_of_inRange h

theorem fetchReg_of_not_inRange {o : RegOperand} {s : State} {k : RegId → State → Result} (h : ¬ s.mem.InRange s.pc) :
    fetchReg o s k = .next (s.halt .haltOperandRange) := fetchWord_of_not_inRange h

theorem fetchAddr_of_inRange {s : State} {a : Word} {k : State → Result} (h : s.mem.InRange s.pc)
    (ha : s.mem.InRange a) : fetchAddr a s k = k (s.setPc (s.pc + 1)) :=
  (fetchWord_of_inRange h).trans (if_pos ha)

theorem fetchAddr_of_not_inRange {s : State} {a : Word} {k : State → Result} (h : ¬ s.mem.InRange s.pc) :
    fetchAddr a s k = .next (s.halt .haltOperandRange) := fetchWord_of_not_inRange h

theorem fetchAddr_data {s : State} {a : Word} {k : State → Result} (h : s.mem.InRange s.pc)
    (ha : ¬ s.mem.InRange a) : fetchAddr a s k = .next ((s.setPc (s.pc + 1)).halt .haltDataRange) :=
  (fetchWord_of_inRange h).trans (if_neg ha)

theorem fetchCell_of_inRange {s : State} {a : Word} {k : Word → State → Result} (h : s.mem.InRange s.pc)
    (ha : s.mem.InRange a) : fetchCell a s k = k (s.mem.read a) (s.setPc (s.pc + 1)) := fetchAddr_of_inRange h ha

theorem fetchCell_of_not_inRange {s : State} {a : Word} {k : Word → State → Result} (h : ¬ s.mem.InRange s.pc) :
    fetchCell a s k = .next (s.halt .haltOperandRange) := fetchAddr_of_not_inRange h

theorem fetchCell_data {s : State} {a : Word} {k : Word → State → Result} (h : s.mem.InRange s.pc)
    (ha : ¬ s.mem.InRange a) : fetchCell a s k = .next ((s.setPc (s.pc + 1)).halt .haltDataRange) := fetchAddr_data h ha

/-! ### Operand words that are all in memory -/

/-- The first of the operand words is in memory. -/
theorem State.OperandsInMemory.inRange {s : State} {n : Nat} (h : s.OperandsInMemory (n + 1)) :
    s.mem.InRange s.pc := ⟨h.1, by have := h.2.1; omega⟩

/-- The rest of them, once PC has been advanced. -/
theorem State.OperandsInMemory.tail {s : State} {n : Nat} (h : s.OperandsInMemory (n + 1)) :
    (s.setPc (s.pc + 1)).OperandsInMemory n := by
  have h2 := h.2.1
  have h3 := h.2.2
  have e : (s.pc + 1).toInt = s.pc.toInt + 1 := toInt_add_one (by simp only [maxInt]; simp only [maxMemSize] at h3; omega)
  refine ⟨?_, ?_, h3⟩
  · rw [State.pc_setPc, e]; have := h.1; omega
  · rw [State.pc_setPc, State.mem_setPc, e]; push_cast at h2 ⊢; omega

@[simp] theorem State.operandsInMemory_setDemux (s : State) (w : Word) (n : Nat) :
    (s.setDemux w).OperandsInMemory n ↔ s.OperandsInMemory n := Iff.rfl

end Sys2Proof.Machine
end

