-- ==== Sys2Proof/Laws/Exec.lean ====
section
/-!
SUPPORT. What an instruction and a step can do, said once. `exec_closed`: a property that every elementary update keeps
is kept by every instruction, and a halt ends it in the property of halted states. `step_of_next` splits a step into its
opcode fetch, its halts and its instruction. The equations of the cycle stand beside them.
-/
namespace Sys2Proof.Machine

/-- `P` is kept by every elementary update that a meaning makes. A store is made only where the address exists, and flags
that are no result's are set only under `FLAGS_AFTER_CTL = any`. -/
structure Closed (P : State → Prop) : Prop where
  setPc : ∀ s v, P s → P (s.setPc v)
  setDemux : ∀ s w, P s → P (s.setDemux w)
  setX : ∀ s r v, P s → P (s.setX r v)
  store : ∀ s a v, P s → s.mem.InRange a → P (s.store a v)
  setFlags : ∀ s v, P s → P (s.setFlags v)
  ctlFlags : ∀ s f, P s → s.flagsAfterCtl = .any → P (s.countDraw.countDraw.withFlags f)
  selectPc : ∀ s b t, P s → P (s.selectPc b t)
  countDraw : ∀ s, P s → P s.countDraw

/-- A halt out of a state with `P` gives `Q`, and so does the end of the instruction. -/
structure Ends (P Q : State → Prop) : Prop where
  done : ∀ s, P s → Q s
  halt : ∀ s r, P s → r ≠ .running → Q (s.halt r)

section
variable {P Q : State → Prop} {s : State}

theorem fetchWord_closed (c : Closed P) (e : Ends P Q) (hs : P s) {k : State → Result}
    (hk : ∀ t, P t → Holds (k t) Q) : Holds (fetchWord s k) Q :=
  holds_fetchWord.2 ⟨fun _ => hk _ (c.setPc _ _ hs), fun _ => e.halt _ _ hs (by decide)⟩

theorem fetchReg_closed (c : Closed P) (e : Ends P Q) (hs : P s) {o : RegOperand} {k : RegId → State → Result}
    (hk : ∀ r t, P t → Holds (k r t) Q) : Holds (fetchReg o s k) Q :=
  holds_fetchReg.2
    ⟨fun _ => ⟨fun _ _ => hk _ _ (c.setDemux _ _ (c.setPc _ _ hs)), fun _ _ => e.halt _ _ (c.setPc _ _ hs) (by decide)⟩,
      fun _ => e.halt _ _ hs (by decide)⟩

theorem fetchAddr_closed (c : Closed P) (e : Ends P Q) (hs : P s) {a : Word} {k : State → Result}
    (hk : ∀ t, P t → t.mem.InRange a → Holds (k t) Q) : Holds (fetchAddr a s k) Q :=
  holds_fetchAddr.2
    ⟨fun _ => ⟨fun ha => hk _ (c.setPc _ _ hs) ha, fun _ => e.halt _ _ (c.setPc _ _ hs) (by decide)⟩,
      fun _ => e.halt _ _ hs (by decide)⟩

theorem fetchCell_closed (c : Closed P) (e : Ends P Q) (hs : P s) {a : Word} {k : Word → State → Result}
    (hk : ∀ v t, P t → t.mem.InRange a → Holds (k v t) Q) : Holds (fetchCell a s k) Q :=
  fetchAddr_closed c e hs fun t ht ha => hk _ t ht ha

theorem flagsAfterCtl_closed (c : Closed P) (e : Ends P Q) (hs : P s) : Holds (flagsAfterCtl s) Q :=
  holds_flagsAfterCtl.2 ⟨fun _ => e.done _ hs, fun h => e.done _ (c.ctlFlags _ _ hs h)⟩

theorem gtBit_closed (c : Closed P) (hs : P s) {a b : Word} {k : Bool → State → Result}
    (hk : ∀ b t, P t → Holds (k b t) Q) : Holds (gtBit a b s k) Q :=
  holds_gtBit.2 ⟨fun _ => hk _ _ hs, fun _ => hk _ _ (c.countDraw _ hs)⟩

theorem lwBit_closed (c : Closed P) (hs : P s) {a b : Word} {k : Bool → State → Result}
    (hk : ∀ b t, P t → Holds (k b t) Q) : Holds (lwBit a b s k) Q :=
  holds_lwBit.2 ⟨fun _ => hk _ _ hs, fun _ => hk _ _ (c.countDraw _ hs)⟩

theorem pushWord_closed (c : Closed P) (e : Ends P Q) (hs : P s) {v : Word} {k : State → Result}
    (hk : ∀ t, P t → Holds (k t) Q) : Holds (pushWord v s k) Q :=
  holds_pushWord.2
    ⟨fun h => hk _ (c.store _ _ _ (c.setX _ _ _ hs) h.inRange_wrap), fun _ => e.halt _ _ hs (by decide)⟩

theorem popWord_closed (c : Closed P) (e : Ends P Q) (hs : P s) {k : Word → State → Result}
    (hk : ∀ v t, P t → Holds (k v t) Q) : Holds (popWord s k) Q :=
  holds_popWord.2 ⟨fun _ => hk _ _ (c.setX _ _ _ hs), fun _ => e.halt _ _ hs (by decide)⟩

theorem writeReg_closed (c : Closed P) (e : Ends P Q) (hs : P s) (r : RegId) (v : Word) :
    Holds (.next (s.writeReg r v)) Q := holds_next.2 (e.done _ (c.setFlags _ _ (c.setX _ _ _ hs)))

theorem writeCell_closed (c : Closed P) (e : Ends P Q) (hs : P s) {a : Word} (ha : s.mem.InRange a) (v : Word) :
    Holds (.next (s.writeCell a v)) Q := holds_next.2 (e.done _ (c.setFlags _ _ (c.store _ _ _ hs ha)))

/-- Every instruction ends in a next state, and a property that every elementary update keeps ends in `Q` of it. -/
theorem exec_closed (c : Closed P) (e : Ends P Q) (hs : P s) (i : Instr) : Holds (exec i s) Q := by
  cases i with
  | addRegReg rA rB =>
    unfold exec execAddRegReg
    exact fetchReg_closed c e hs fun _ _ h => fetchReg_closed c e h fun _ _ h => writeReg_closed c e h _ _
  | addMemReg a rA =>
    unfold exec execAddMemReg
    exact fetchCell_closed c e hs fun _ _ h _ => fetchReg_closed c e h fun _ _ h => writeReg_closed c e h _ _
  | addRegMem rA a =>
    unfold exec execAddRegMem
    exact fetchReg_closed c e hs fun _ _ h => fetchCell_closed c e h fun _ _ h ha => writeCell_closed c e h ha _
  | subRegReg rA rB =>
    unfold exec execSubRegReg
    exact fetchReg_closed c e hs fun _ _ h => fetchReg_closed c e h fun _ _ h => writeReg_closed c e h _ _
  | subMemReg a rA =>
    unfold exec execSubMemReg
    exact fetchCell_closed c e hs fun _ _ h _ => fetchReg_closed c e h fun _ _ h => writeReg_closed c e h _ _
  | subRegMem rA a =>
    unfold exec execSubRegMem
    exact fetchReg_closed c e hs fun _ _ h => fetchCell_closed c e h fun _ _ h ha => writeCell_closed c e h ha _
  | moveMemReg a rA =>
    unfold exec execMoveMemReg
    exact fetchCell_closed c e hs fun _ _ h _ => fetchReg_closed c e h fun _ _ h =>
      holds_next.2 (e.done _ (c.setX _ _ _ h))
  | moveRegMem rA a =>
    unfold exec execMoveRegMem
    exact fetchReg_closed c e hs fun _ _ h => fetchAddr_closed c e h fun _ h ha =>
      holds_next.2 (e.done _ (c.store _ _ _ h ha))
  | moveRegReg rA rB =>
    unfold exec execMoveRegReg
    exact fetchReg_closed c e hs fun _ _ h => fetchReg_closed c e h fun _ _ h =>
      holds_next.2 (e.done _ (c.setX _ _ _ h))
  | moveImmReg imm rA =>
    unfold exec execMoveImmReg
    exact fetchWord_closed c e hs fun _ h => fetchReg_closed c e h fun _ _ h =>
      holds_next.2 (e.done _ (c.setX _ _ _ h))
  | incReg rA =>
    unfold exec execIncReg
    exact fetchReg_closed c e hs fun _ _ h => writeReg_closed c e h _ _
  | incMem a =>
    unfold exec execIncMem
    exact fetchCell_closed c e hs fun _ _ h ha => writeCell_closed c e h ha _
  | jmp a =>
    unfold exec execJmp
    exact fetchWord_closed c e hs fun _ h => holds_next.2 (e.done _ (c.setPc _ _ h))
  | jn a =>
    unfold exec execJn
    exact fetchWord_closed c e hs fun _ h => holds_next.2 (e.done _ (c.selectPc _ _ _ h))
  | jz a =>
    unfold exec execJz
    exact fetchWord_closed c e hs fun _ h => holds_next.2 (e.done _ (c.selectPc _ _ _ h))
  | jnz a =>
    unfold exec execJnz
    exact fetchWord_closed c e hs fun _ h => holds_next.2 (e.done _ (c.selectPc _ _ _ h))
  | jeq rA rB a =>
    unfold exec execJeq
    exact fetchReg_closed c e hs fun _ _ h => fetchReg_closed c e h fun _ _ h => fetchWord_closed c e h fun _ h =>
      flagsAfterCtl_closed c e (c.selectPc _ _ _ h)
  | jgt rA rB a =>
    unfold exec execJgt
    exact fetchReg_closed c e hs fun _ _ h => fetchReg_closed c e h fun _ _ h => fetchWord_closed c e h fun _ h =>
      gtBit_closed c h fun _ _ h => flagsAfterCtl_closed c e (c.selectPc _ _ _ h)
  | jlw rA rB a =>
    unfold exec execJlw
    exact fetchReg_closed c e hs fun _ _ h => fetchReg_closed c e h fun _ _ h => fetchWord_closed c e h fun _ h =>
      lwBit_closed c h fun _ _ h => flagsAfterCtl_closed c e (c.selectPc _ _ _ h)
  | call a =>
    unfold exec execCall
    exact fetchWord_closed c e hs fun _ h => pushWord_closed c e h fun _ h =>
      flagsAfterCtl_closed c e (c.setPc _ _ h)
  | ret =>
    unfold exec execRet
    exact popWord_closed c e hs fun _ _ h => flagsAfterCtl_closed c e (c.setPc _ _ h)

end

/-- Every instruction ends in a next state. -/
theorem exec_next (i : Instr) (s : State) : ∃ t, exec i s = .next t :=
  let ⟨t, h, _⟩ := exec_closed (P := fun _ => True) (Q := fun _ => True) (s := s)
    ⟨fun _ _ _ => trivial, fun _ _ _ => trivial, fun _ _ _ _ => trivial, fun _ _ _ _ _ => trivial,
      fun _ _ _ => trivial, fun _ _ _ _ => trivial, fun _ _ _ _ => trivial, fun _ _ => trivial⟩
    ⟨fun _ _ => trivial, fun _ _ _ _ => trivial⟩ trivial i
  ⟨t, h⟩

/-! ### The cycle -/

theorem step_of_fetch {s : State} (h : s.fsm = .fetch) : step s = runInstr s := by unfold step; rw [h]

/-- R136: a step is taken only at FETCH. -/
theorem fsm_of_step {s t : State} (h : step s = .next t) : s.fsm = .fetch := by
  unfold step at h
  cases e : s.fsm with
  | fetch => rfl
  | decodeExecute => rw [e] at h; cases h
  | halted => rw [e] at h; cases h

theorem runInstr_of_inRange {s : State} (h : s.mem.InRange s.pc) :
    runInstr s = settleResult (decodeExecute s.fetched) := by
  unfold runInstr fetchOpcode
  rw [if_pos h]

theorem runInstr_of_not_inRange {s : State} (h : ¬ s.mem.InRange s.pc) :
    runInstr s = .next (s.halt .haltPcRange).settle := by
  unfold runInstr fetchOpcode
  rw [if_neg h]
  rfl

/-- R139: what the decoder is given are the words at PC. -/
theorem State.instrWords_fetched (s : State) : s.fetched.instrWords = s.mem.readMany s.pc maxWords := rfl

theorem settleResult_of_next {r : Result} {t : State} (h : r = .next t) : settleResult r = .next t.settle := by
  rw [h]
  rfl

theorem holds_settleResult {r : Result} {P : State → Prop} :
    Holds (settleResult r) P ↔ Holds r (fun t => P t.settle) := by
  unfold settleResult Holds
  cases r <;> simp

/-- R76: the operand words of an opcode are at most three, so the words at PC are never too few. -/
theorem decodeOperands_window (o : Opcode) (a b c : Word) :
    ∃ i, decodeOperands o [a, b, c] = .ok i ∧ i.opcode = o := by
  cases o <;> exact ⟨_, rfl, rfl⟩

/-- Decoding and dispatch end in a halt or run an instruction. -/
theorem decodeExecute_cases (s : State) :
    (∃ i, decode s.instrWords = .ok i ∧ decodeExecute s = exec i s) ∨
    (∃ r, r ≠ .running ∧ decodeExecute s = .next (s.halt r)) := by
  unfold decodeExecute
  split
  · next i h => exact .inl ⟨i, h, rfl⟩
  · exact .inr ⟨.haltSentinel, by decide, rfl⟩
  · exact .inr ⟨.haltBadOpcode, by decide, rfl⟩
  · exact .inr ⟨.haltOperandRange, by decide, rfl⟩

/-- Everything a step can do: the opcode fetch halts, the opcode word halts, or an instruction runs; and then it is
settled. -/
theorem step_of_next {s t : State} (h : step s = .next t) :
    ∃ u, t = u.settle ∧
      ((¬ s.mem.InRange s.pc ∧ u = s.halt .haltPcRange) ∨
        (s.mem.InRange s.pc ∧ ∃ r, r ≠ .running ∧ u = s.fetched.halt r) ∨
        (s.mem.InRange s.pc ∧ ∃ i, decode (s.mem.readMany s.pc maxWords) = .ok i ∧ exec i s.fetched = .next u)) := by
  rw [step_of_fetch (fsm_of_step h)] at h
  by_cases hr : s.mem.InRange s.pc
  · rw [runInstr_of_inRange hr] at h
    rcases decodeExecute_cases s.fetched with ⟨i, hd, e⟩ | ⟨r, hne, e⟩
    · obtain ⟨u, hu⟩ := exec_next i s.fetched
      rw [e, settleResult_of_next hu] at h
      cases h
      exact ⟨u, rfl, .inr (.inr ⟨hr, i, hd, hu⟩)⟩
    · rw [settleResult_of_next e] at h
      cases h
      exact ⟨_, rfl, .inr (.inl ⟨hr, r, hne, rfl⟩)⟩
  · rw [runInstr_of_not_inRange hr] at h
    cases h
    exact ⟨_, rfl, .inl ⟨hr, rfl⟩⟩

/-- R134: after a handler that has not halted, the machine is at FETCH. -/
theorem State.fsm_settle_of_not_halted {s : State} (h : s.fsm ≠ .halted) : s.settle.fsm = .fetch := by
  rw [State.fsm_settle]
  cases e : s.fsm with
  | fetch => rfl
  | decodeExecute => rfl
  | halted => exact absurd e h

@[simp] theorem State.fsm_settle_halt (s : State) (r : Status) : (s.halt r).settle.fsm = .halted := rfl

end Sys2Proof.Machine
end

