-- ==== Sys2Proof/Laws/Loader.lean ====
section
/-!
SUPPORT. The loader: the cells of an image, and what an admitted image says.
-/
namespace Sys2Proof.Machine

theorem imageCells_bounds (a : Nat) (l : List Int) : ∀ p ∈ imageCells a l, a ≤ p.1 ∧ p.1 < a + l.length := by
  induction l generalizing a with
  | nil => simp [imageCells]
  | cons v vs ih =>
    intro p hp
    simp only [imageCells] at hp
    simp only [List.length_cons]
    split at hp
    · have := ih (a + 1) p hp
      omega
    · rcases List.mem_cons.1 hp with rfl | hp
      · exact ⟨Nat.le_refl _, by show a < _; omega⟩
      · have := ih (a + 1) p hp
        omega

/-- An image's cells are in canonical form. -/
theorem imageCells_wf (a : Nat) (l : List Int) : CellsWf (imageCells a l) := by
  induction l generalizing a with
  | nil => exact ⟨List.Pairwise.nil, by simp [imageCells]⟩
  | cons v vs ih =>
    simp only [imageCells]
    split
    · exact ih _
    · next h =>
      refine ⟨List.pairwise_cons.2 ⟨fun p hp => ?_, (ih _).1⟩, fun p hp => ?_⟩
      · have := imageCells_bounds _ _ p hp
        show a < _
        omega
      · rcases List.mem_cons.1 hp with rfl | hp
        · exact h
        · exact (ih _).2 p hp

/-- R260: the word of each cell, 0 past the image. -/
theorem readCells_imageCells (a : Nat) (l : List Int) (k : Nat) :
    readCells (imageCells a l) (a + k) = (l[k]?.map wrap).getD 0 := by
  induction l generalizing a k with
  | nil => rfl
  | cons v vs ih =>
    have base : readCells (imageCells (a + 1) vs) a = unlistedWord := by
      by_contra hc
      have := (imageCells_bounds _ _ _ (mem_of_readCells hc)).1
      simp at this
    simp only [imageCells]
    cases k with
    | zero =>
      split
      · next h => simp [h, base, unlistedWord]
      · simp [readCells]
    | succ k =>
      have hk := ih (a + 1) k
      rw [show a + 1 + k = a + (k + 1) by omega] at hk
      split
      · simpa using hk
      · simp only [readCells]
        rw [if_neg (by omega)]
        simpa using hk

theorem firstOutOfRange_eq_none (l : List Int) : firstOutOfRange l = none ↔ ∀ w ∈ l, FitsWord w := by
  induction l with
  | nil => simp [firstOutOfRange]
  | cons v vs ih =>
    simp only [firstOutOfRange]
    split
    · next h => simp [ih]; exact fun _ => h
    · next h => simp [h]

/-- R261: everything that an admitted image says. -/
theorem load_ok {n : Nat} {ctl : Config.FlagsAfterCtl} {v : StartValues} {image : List Int} {s : State}
    (h : load n ctl v image = .ok s) :
    1 ≤ n ∧ n ≤ maxMemSize ∧ image.length ≤ n ∧ firstOutOfRange image = none ∧ s = State.start n ctl v image := by
  unfold load at h
  split at h
  · cases h
  · next h1 =>
    split at h
    · cases h
    · next h2 =>
      split at h
      · cases h
      · next h3 =>
        cases h
        exact ⟨by omega, by omega, by omega, h3, rfl⟩

/-- A loaded start state meets the invariant. -/
theorem load_inv {n : Nat} {ctl : Config.FlagsAfterCtl} {v : StartValues} {image : List Int} {s : State}
    (h : load n ctl v image = .ok s) : s.Inv := by
  obtain ⟨h1, h2, h3, -, rfl⟩ := load_ok h
  refine ⟨⟨h1, h2⟩, ⟨(imageCells_wf 0 image).1, fun p hp => ⟨?_, (imageCells_wf 0 image).2 p hp⟩⟩, (fun h => nomatch h),
    ⟨fun _ => (fun h => nomatch h), fun _ => rfl⟩⟩
  have := (imageCells_bounds 0 image p hp).2
  show p.1 < n
  omega

end Sys2Proof.Machine
end

