-- ==== Sys2Proof/Laws/PerInstr.lean ====
section
/-!
SUPPORT. Statements about every instruction as syntax, one lemma for each constructor.
-/
namespace Sys2Proof.Laws.EncodingShape

/-- R70, R72: an instruction has the words its format gives it, the first is its opcode id, and it has one reg operand
for each `reg` of its signature. -/
def Statement (i : Instr) : Prop :=
  (encode i).length = i.opcode.format.words ∧ (encode i).head? = some i.opcode.word ∧
    i.regOperands.length = i.opcode.format.kinds.count .reg

theorem addRegReg (rA : RegOperand) (rB : RegOperand) : Statement (.addRegReg rA rB) := ⟨rfl, rfl, rfl⟩

theorem addMemReg (a : Word) (rA : RegOperand) : Statement (.addMemReg a rA) := ⟨rfl, rfl, rfl⟩

theorem addRegMem (rA : RegOperand) (a : Word) : Statement (.addRegMem rA a) := ⟨rfl, rfl, rfl⟩

theorem subRegReg (rA : RegOperand) (rB : RegOperand) : Statement (.subRegReg rA rB) := ⟨rfl, rfl, rfl⟩

theorem subMemReg (a : Word) (rA : RegOperand) : Statement (.subMemReg a rA) := ⟨rfl, rfl, rfl⟩

theorem subRegMem (rA : RegOperand) (a : Word) : Statement (.subRegMem rA a) := ⟨rfl, rfl, rfl⟩

theorem moveMemReg (a : Word) (rA : RegOperand) : Statement (.moveMemReg a rA) := ⟨rfl, rfl, rfl⟩

theorem moveRegMem (rA : RegOperand) (a : Word) : Statement (.moveRegMem rA a) := ⟨rfl, rfl, rfl⟩

theorem moveRegReg (rA : RegOperand) (rB : RegOperand) : Statement (.moveRegReg rA rB) := ⟨rfl, rfl, rfl⟩

theorem moveImmReg (imm : Word) (rA : RegOperand) : Statement (.moveImmReg imm rA) := ⟨rfl, rfl, rfl⟩

theorem incReg (rA : RegOperand) : Statement (.incReg rA) := ⟨rfl, rfl, rfl⟩

theorem incMem (a : Word) : Statement (.incMem a) := ⟨rfl, rfl, rfl⟩

theorem jmp (a : Word) : Statement (.jmp a) := ⟨rfl, rfl, rfl⟩

theorem jn (a : Word) : Statement (.jn a) := ⟨rfl, rfl, rfl⟩

theorem jz (a : Word) : Statement (.jz a) := ⟨rfl, rfl, rfl⟩

theorem jnz (a : Word) : Statement (.jnz a) := ⟨rfl, rfl, rfl⟩

theorem jeq (rA : RegOperand) (rB : RegOperand) (a : Word) : Statement (.jeq rA rB a) := ⟨rfl, rfl, rfl⟩

theorem jgt (rA : RegOperand) (rB : RegOperand) (a : Word) : Statement (.jgt rA rB a) := ⟨rfl, rfl, rfl⟩

theorem jlw (rA : RegOperand) (rB : RegOperand) (a : Word) : Statement (.jlw rA rB a) := ⟨rfl, rfl, rfl⟩

theorem call (a : Word) : Statement (.call a) := ⟨rfl, rfl, rfl⟩

theorem ret : Statement (.ret) := ⟨rfl, rfl, rfl⟩

end Sys2Proof.Laws.EncodingShape
end

