-- ==== Sys2Proof/Laws/Visible.lean ====
section
/-!
SUPPORT. Two runs that differ only in IR, the status-selection cells and the datapath. `Sim r r'` says that both results
are next states that agree on everything else; one lemma for each shared operation carries it through, and
`sim_exec` through every instruction.
-/
namespace Sys2Proof.Machine

/-- Both results are next states, and these agree on all that an instruction can observe. -/
def Sim (r r' : Result) : Prop := ∃ t t', r = .next t ∧ r' = .next t' ∧ t.SameVisible t'

section
variable {s t : State}

/-! ### The elementary updates -/

theorem State.SameVisible.x_eq (h : s.SameVisible t) (r : RegId) : s.x r = t.x r := by
  unfold State.x
  rw [h.regs]

theorem State.SameVisible.stackLimit_eq (h : s.SameVisible t) : s.stackLimit = t.stackLimit := by
  unfold State.stackLimit
  rw [h.x_eq, h.mem]

theorem State.SameVisible.setPc (h : s.SameVisible t) (v : Word) : (s.setPc v).SameVisible (t.setPc v) :=
  ⟨h.1, rfl, h.3, h.4, h.5, h.6, h.7, h.8⟩

theorem State.SameVisible.setDemux (h : s.SameVisible t) (w : Word) : (s.setDemux w).SameVisible (t.setDemux w) :=
  ⟨h.1, h.2, h.3, h.4, h.5, h.6, h.7, h.8⟩

theorem State.SameVisible.setX (h : s.SameVisible t) (r : RegId) (v : Word) : (s.setX r v).SameVisible (t.setX r v) :=
  ⟨congrArg (Regs.set · r v) h.1, h.2, h.3, h.4, h.5, h.6, h.7, h.8⟩

theorem State.SameVisible.store (h : s.SameVisible t) (a v : Word) : (s.store a v).SameVisible (t.store a v) :=
  ⟨h.1, h.2, h.3, congrArg (Memory.write · a v) h.4, h.5, h.6, h.7, h.8⟩

theorem State.SameVisible.withFlags (h : s.SameVisible t) (f : Flags) : (s.withFlags f).SameVisible (t.withFlags f) :=
  ⟨h.1, h.2, rfl, h.4, h.5, h.6, h.7, h.8⟩

theorem State.SameVisible.countDraw (h : s.SameVisible t) : s.countDraw.SameVisible t.countDraw :=
  ⟨h.1, h.2, h.3, h.4, h.5, h.6, h.7, congrArg (· + 1) h.8⟩

theorem State.SameVisible.halt (h : s.SameVisible t) (r : Status) : (s.halt r).SameVisible (t.halt r) :=
  ⟨h.1, h.2, h.3, h.4, rfl, rfl, h.7, h.8⟩

theorem State.SameVisible.selectPc (h : s.SameVisible t) (b : Bool) (v : Word) :
    (s.selectPc b v).SameVisible (t.selectPc b v) :=
  ⟨h.1, congrArg (fun p => (Sel.mk p v).read b) h.2, h.3, h.4, h.5, h.6, h.7, h.8⟩

theorem State.SameVisible.writeReg (h : s.SameVisible t) (r : RegId) (v : Word) :
    (s.writeReg r v).SameVisible (t.writeReg r v) := (h.setX r v).withFlags _

theorem State.SameVisible.writeCell (h : s.SameVisible t) (a v : Word) :
    (s.writeCell a v).SameVisible (t.writeCell a v) := (h.store a v).withFlags _

theorem State.SameVisible.fetched (h : s.SameVisible t) : s.fetched.SameVisible t.fetched :=
  ⟨h.1, congrArg (· + 1) h.2, h.3, h.4, rfl, h.6, h.7, h.8⟩

theorem State.SameVisible.settle (h : s.SameVisible t) : s.settle.SameVisible t.settle :=
  ⟨h.1, h.2, h.3, h.4, congrArg Fsm.afterHandler h.5, h.6, h.7, congrArg (· + 1) h.8⟩

/-! ### The shared operations -/

theorem sim_next (h : s.SameVisible t) : Sim (.next s) (.next t) := ⟨_, _, rfl, rfl, h⟩

theorem sim_halt (h : s.SameVisible t) (r : Status) : Sim (raiseHalt r s) (raiseHalt r t) := sim_next (h.halt r)

theorem sim_ite {c d : Prop} [Decidable c] [Decidable d] (e : c ↔ d) {a a' b b' : Result} (h : c → Sim a a')
    (h' : ¬ c → Sim b b') : Sim (if c then a else b) (if d then a' else b') := by
  by_cases hc : c
  · rw [if_pos hc, if_pos (e.1 hc)]
    exact h hc
  · rw [if_neg hc, if_neg fun x => hc (e.2 x)]
    exact h' hc

theorem sim_settleResult {r r' : Result} (h : Sim r r') : Sim (settleResult r) (settleResult r') := by
  obtain ⟨u, u', e, e', hu⟩ := h
  exact ⟨_, _, settleResult_of_next e, settleResult_of_next e', hu.settle⟩

theorem sim_fetchWord (h : s.SameVisible t) {k k' : State → Result}
    (hk : ∀ u u' : State, u.SameVisible u' → Sim (k u) (k' u')) : Sim (fetchWord s k) (fetchWord t k') := by
  unfold fetchWord
  exact sim_ite (by rw [h.mem, h.pc]) (fun _ => by rw [h.pc]; exact hk _ _ (h.setPc _)) fun _ => sim_halt h _

theorem sim_fetchReg (h : s.SameVisible t) {o : RegOperand} {k k' : RegId → State → Result}
    (hk : ∀ (r : RegId) (u u' : State), u.SameVisible u' → Sim (k r u) (k' r u')) :
    Sim (fetchReg o s k) (fetchReg o t k') := by
  unfold fetchReg
  refine sim_fetchWord h fun u u' hu => ?_
  cases o with
  | reg r => exact hk _ _ _ (hu.setDemux _)
  | illegal w => exact sim_halt hu _

theorem sim_fetchAddr (h : s.SameVisible t) {a : Word} {k k' : State → Result}
    (hk : ∀ u u' : State, u.SameVisible u' → Sim (k u) (k' u')) : Sim (fetchAddr a s k) (fetchAddr a t k') := by
  unfold fetchAddr
  exact sim_fetchWord h fun u u' hu => sim_ite (by rw [hu.mem]) (fun _ => hk _ _ hu) fun _ => sim_halt hu _

theorem sim_fetchCell (h : s.SameVisible t) {a : Word} {k k' : Word → State → Result}
    (hk : ∀ (v : Word) (u u' : State), u.SameVisible u' → Sim (k v u) (k' v u')) :
    Sim (fetchCell a s k) (fetchCell a t k') := by
  unfold fetchCell
  exact sim_fetchAddr h fun u u' hu => by rw [hu.mem]; exact hk _ _ _ hu

theorem sim_drawBit (h : s.SameVisible t) {what : Config.BitDraw} {k k' : Bool → State → Result}
    (hk : ∀ (b : Bool) (u u' : State), u.SameVisible u' → Sim (k b u) (k' b u')) :
    Sim (drawBit what s k) (drawBit what t k') := by
  unfold drawBit
  rw [h.draws]
  exact hk _ _ _ h.countDraw

theorem sim_flagsAfterCtl (h : s.SameVisible t) : Sim (flagsAfterCtl s) (flagsAfterCtl t) := by
  unfold flagsAfterCtl
  rw [h.flagsAfterCtl]
  split
  · exact sim_next h
  · exact sim_drawBit h fun _ _ _ h => sim_drawBit h fun _ _ _ h => sim_next (h.withFlags _)

theorem sim_gtBit (h : s.SameVisible t) {a b : Word} {k k' : Bool → State → Result}
    (hk : ∀ (c : Bool) (u u' : State), u.SameVisible u' → Sim (k c u) (k' c u')) :
    Sim (gtBit a b s k) (gtBit a b t k') := by
  unfold gtBit
  exact sim_ite Iff.rfl (fun _ => hk _ _ _ h) fun _ => sim_drawBit h hk

theorem sim_lwBit (h : s.SameVisible t) {a b : Word} {k k' : Bool → State → Result}
    (hk : ∀ (c : Bool) (u u' : State), u.SameVisible u' → Sim (k c u) (k' c u')) :
    Sim (lwBit a b s k) (lwBit a b t k') := by
  unfold lwBit
  exact sim_ite Iff.rfl (fun _ => hk _ _ _ h) fun _ => sim_drawBit h hk

theorem sim_pushWord (h : s.SameVisible t) {v : Word} {k k' : State → Result}
    (hk : ∀ u u' : State, u.SameVisible u' → Sim (k u) (k' u')) : Sim (pushWord v s k) (pushWord v t k') := by
  unfold pushWord State.StackOk
  rw [h.stackLimit_eq, h.x_eq]
  exact sim_ite Iff.rfl (fun _ => hk _ _ ((h.setX _ _).store _ _)) fun _ => sim_halt h _

theorem sim_popWord (h : s.SameVisible t) {k k' : Word → State → Result}
    (hk : ∀ (v : Word) (u u' : State), u.SameVisible u' → Sim (k v u) (k' v u')) :
    Sim (popWord s k) (popWord t k') := by
  unfold popWord State.StackOk
  rw [h.stackLimit_eq, h.x_eq, h.mem]
  exact sim_ite Iff.rfl (fun _ => hk _ _ _ (h.setX _ _)) fun _ => sim_halt h _

/-! ### Every instruction -/

theorem sim_exec (i : Instr) (h : s.SameVisible t) : Sim (exec i s) (exec i t) := by
  cases i <;> unfold exec
  case addRegReg =>
    exact sim_fetchReg h fun _ _ _ h => sim_fetchReg h fun _ _ _ h => by
      rw [h.x_eq, h.x_eq]; exact sim_next (h.writeReg _ _)
  case addMemReg =>
    exact sim_fetchCell h fun _ _ _ h => sim_fetchReg h fun _ _ _ h => by
      rw [h.x_eq]; exact sim_next (h.writeReg _ _)
  case addRegMem =>
    exact sim_fetchReg h fun _ _ _ h => sim_fetchCell h fun _ _ _ h => by
      rw [h.x_eq]; exact sim_next (h.writeCell _ _)
  case subRegReg =>
    exact sim_fetchReg h fun _ _ _ h => sim_fetchReg h fun _ _ _ h => by
      rw [h.x_eq, h.x_eq]; exact sim_next (h.writeReg _ _)
  case subMemReg =>
    exact sim_fetchCell h fun _ _ _ h => sim_fetchReg h fun _ _ _ h => by
      rw [h.x_eq]; exact sim_next (h.writeReg _ _)
  case subRegMem =>
    exact sim_fetchReg h fun _ _ _ h => sim_fetchCell h fun _ _ _ h => by
      rw [h.x_eq]; exact sim_next (h.writeCell _ _)
  case moveMemReg =>
    exact sim_fetchCell h fun _ _ _ h => sim_fetchReg h fun _ _ _ h => sim_next (h.setX _ _)
  case moveRegMem =>
    exact sim_fetchReg h fun _ _ _ h => sim_fetchAddr h fun _ _ h => by rw [h.x_eq]; exact sim_next (h.store _ _)
  case moveRegReg =>
    exact sim_fetchReg h fun _ _ _ h => sim_fetchReg h fun _ _ _ h => by rw [h.x_eq]; exact sim_next (h.setX _ _)
  case moveImmReg =>
    exact sim_fetchWord h fun _ _ h => sim_fetchReg h fun _ _ _ h => sim_next (h.setX _ _)
  case incReg =>
    exact sim_fetchReg h fun _ _ _ h => by rw [h.x_eq]; exact sim_next (h.writeReg _ _)
  case incMem => exact sim_fetchCell h fun _ _ _ h => sim_next (h.writeCell _ _)
  case jmp => exact sim_fetchWord h fun _ _ h => sim_next (h.setPc _)
  case jn => exact sim_fetchWord h fun _ _ h => by rw [h.flags]; exact sim_next (h.selectPc _ _)
  case jz => exact sim_fetchWord h fun _ _ h => by rw [h.flags]; exact sim_next (h.selectPc _ _)
  case jnz => exact sim_fetchWord h fun _ _ h => by rw [h.flags]; exact sim_next (h.selectPc _ _)
  case jeq =>
    exact sim_fetchReg h fun _ _ _ h => sim_fetchReg h fun _ _ _ h => sim_fetchWord h fun _ _ h => by
      rw [h.x_eq, h.x_eq]; exact sim_flagsAfterCtl (h.selectPc _ _)
  case jgt =>
    exact sim_fetchReg h fun _ _ _ h => sim_fetchReg h fun _ _ _ h => sim_fetchWord h fun _ _ h => by
      rw [h.x_eq, h.x_eq]; exact sim_gtBit h fun _ _ _ h => sim_flagsAfterCtl (h.selectPc _ _)
  case jlw =>
    exact sim_fetchReg h fun _ _ _ h => sim_fetchReg h fun _ _ _ h => sim_fetchWord h fun _ _ h => by
      rw [h.x_eq, h.x_eq]; exact sim_lwBit h fun _ _ _ h => sim_flagsAfterCtl (h.selectPc _ _)
  case call =>
    exact sim_fetchWord h fun _ _ h => by
      rw [h.pc]; exact sim_pushWord h fun _ _ h => sim_flagsAfterCtl (h.setPc _)
  case ret => exact sim_popWord h fun _ _ _ h => sim_flagsAfterCtl (h.setPc _)

end

end Sys2Proof.Machine
end

