-- ==== Sys2Proof/Tests/Slice0.lean ====
section
/-!
SUPPORT. The model's own tests. Words and expected results are the spec's (spec/30_encoding.md R72, R74, spec/95: the
vector's number stands beside each test). At the end, one witness for each obligation that has hypotheses.
-/
namespace Sys2Proof.Tests
open Sys2Proof Sys2Proof.Machine

/-- A state at FETCH: the memory size, PC and the listed cells; everything else as at reset. -/
def at_ (size : Nat) (pc : Word) (cells : List (Nat × Word)) : State :=
  { State.reset with pc := pc, mem := { size := size, cells := cells } }

/-- The words of an instruction put at PC, in a memory of 256 words. -/
def run_ (pc : Word) (words : List Word) : State :=
  { State.reset with pc := pc, mem := (State.reset.mem.writeMany pc words) }

/-- What is seen after one step. -/
def seen {α : Type} (s : State) (f : State → α) : Option α :=
  match step s with
  | .next t => some (f t)
  | .fault _ => none
  | .refused _ => none

/-- A flag pair. -/
def zn (z n : Bool) : Flags := { z := z, n := n }

/-- A state inside an instruction, its opcode fetched. -/
def inside (s : State) : State := { s with fsm := .decodeExecute }

/-! ### WellFormed: each reg operand is checked (R78) -/

theorem test_illFormed_first_reg : ∀ i ∈ [Instr.addRegReg (.illegal 6) (.reg .reg0), .addMemReg 0 (.illegal 6),
    .addRegMem (.illegal 6) 0, .subRegReg (.illegal (-1)) (.reg .reg0), .subMemReg 0 (.illegal 6), .subRegMem (.illegal 6) 0,
    .moveMemReg 0 (.illegal 6), .moveRegMem (.illegal 6) 0, .moveRegReg (.illegal 6) (.reg .reg0), .moveImmReg 0 (.illegal 6),
    .incReg (.illegal 6), .jeq (.illegal 6) (.reg .reg0) 0, .jgt (.illegal 6) (.reg .reg0) 0, .jlw (.illegal 6) (.reg .reg0) 0],
    i.wellFormed = false := by decide

theorem test_illFormed_second_reg : ∀ i ∈ [Instr.addRegReg (.reg .reg0) (.illegal 6), .subRegReg (.reg .reg0) (.illegal 6),
    .moveRegReg (.reg .reg0) (.illegal 6), .jeq (.reg .reg0) (.illegal 6) 0, .jgt (.reg .reg0) (.illegal 6) 0,
    .jlw (.reg .reg0) (.illegal 6) 0], i.wellFormed = false := by decide

theorem test_wellFormed_any_word : ∀ i ∈ [Instr.moveImmReg (-1) (.reg .stkBOT), .moveMemReg (-1) (.reg .stkTOP), .jmp (-1)],
    i.wellFormed = true := by decide

/-! ### Decoding: every constructor's words, from the formats and ids of R72, R74 -/

theorem test_decode_add : decode [0, 0, 1] = .ok (.addRegReg (.reg .reg0) (.reg .reg1)) ∧
    decode [1, 255, 2] = .ok (.addMemReg 255 (.reg .reg2)) ∧
    decode [2, 0, 255] = .ok (.addRegMem (.reg .reg0) 255) := by decide

theorem test_decode_sub : decode [3, 0, 1] = .ok (.subRegReg (.reg .reg0) (.reg .reg1)) ∧
    decode [4, 200, 1] = .ok (.subMemReg 200 (.reg .reg1)) ∧
    decode [5, 3, 100] = .ok (.subRegMem (.reg .reg3) 100) := by decide

theorem test_decode_move : decode [6, 255, 3] = .ok (.moveMemReg 255 (.reg .reg3)) ∧
    decode [7, 0, 255] = .ok (.moveRegMem (.reg .reg0) 255) ∧
    decode [8, 4, 5] = .ok (.moveRegReg (.reg .stkTOP) (.reg .stkBOT)) ∧
    decode [9, -1, 2] = .ok (.moveImmReg (-1) (.reg .reg2)) := by decide

theorem test_decode_inc : decode [10, 4] = .ok (.incReg (.reg .stkTOP)) ∧ decode [11, 254] = .ok (.incMem 254) := by decide

theorem test_decode_jump : decode [12, -5] = .ok (.jmp (-5)) ∧ decode [13, 40] = .ok (.jn 40) ∧
    decode [14, 40] = .ok (.jz 40) ∧ decode [15, 18] = .ok (.jnz 18) ∧
    decode [16, 0, 1, 50] = .ok (.jeq (.reg .reg0) (.reg .reg1) 50) ∧
    decode [17, 1, 0, 19] = .ok (.jgt (.reg .reg1) (.reg .reg0) 19) ∧
    decode [18, 2, 3, 60] = .ok (.jlw (.reg .reg2) (.reg .reg3) 60) := by decide

theorem test_decode_callRet : decode [19, 15] = .ok (.call 15) ∧ decode [20, 7] = .ok .ret := by decide

theorem test_decode_rejects : decode [-1, 0, 0, 0] = .error .sentinel ∧ decode [21, 0, 0, 0] = .error (.badOpcode 21) ∧
    decode [-2, 0, 0, 0] = .error (.badOpcode (-2)) ∧ decode [17, 0, 0] = .error .missingWord ∧
    decode [0, 6, 1] = .ok (.addRegReg (.illegal 6) (.reg .reg1)) := by decide

/-- Bits 63..32 are the second word: `add a %rA` with `a = 5`, and `jmp 7`; the missing words are 0. -/
theorem test_decodeTableWord : decodeTableWord 96 (1 + 5 * 2 ^ 32 + 2 * 2 ^ 64) = some (.addMemReg 5 (.reg .reg2)) ∧
    decodeTableWord 64 (12 + 7 * 2 ^ 32) = some (.jmp 7) ∧ decodeTableWord 32 (18 + 7 * 2 ^ 32) =
      some (.jlw (.reg .reg0) (.reg .reg0) 0) ∧ decodeTableWord 32 21 = none := by decide

/-- Each opcode word with zero operands runs as the first instruction after reset. -/
theorem test_withFetchWord : ∀ n < 21, (seen (State.reset.withFetchWord 32 n) fun t => t.ir.toNat) = some n := by decide

/-! ### One step of each instruction -/

theorem test_V1_add_reg_reg : (seen (((run_ 0 [0, 0, 1]).setX .reg0 5).setX .reg1 7) fun t => (t.x .reg1, t.flags, t.pc)) =
    some (12, zn false false, 3) := by decide

theorem test_V2_add_wraps : (seen (((run_ 0 [0, 2, 3]).setX .reg2 2147483647).setX .reg3 1) fun t => (t.x .reg3, t.flags)) =
    some (-2147483648, zn false true) := by decide

theorem test_V6_add_mem_reg : (seen ((run_ 0 [1, 255, 2]).setX .reg2 (-3) |>.store 255 10) fun t => (t.x .reg2, t.mem.read 255)) =
    some (7, 10) := by decide

theorem test_V7_add_reg_mem : (seen ((run_ 0 [2, 0, 255]).setX .reg0 3 |>.store 255 6) fun t => (t.mem.read 255, t.x .reg0)) =
    some (9, 3) := by decide

theorem test_V15_add_own_address_word : (seen ((run_ 40 [2, 1, 42]).setX .reg1 2) fun t => (t.mem.read 42, t.pc)) =
    some (44, 43) := by decide

theorem test_V8_sub_first_minus_second : (seen (((run_ 0 [3, 0, 1]).setX .reg0 5).setX .reg1 7) fun t => (t.x .reg1, t.flags)) =
    some (-2, zn false true) := by decide

theorem test_V9_sub_wraps : (seen (((run_ 0 [3, 0, 1]).setX .reg0 (-2147483648)).setX .reg1 1) fun t => (t.x .reg1, t.flags)) =
    some (2147483647, zn false false) := by decide

theorem test_V11_sub_mem_reg : (seen ((run_ 0 [4, 200, 1]).setX .reg1 9 |>.store 200 4) fun t => (t.x .reg1, t.flags)) =
    some (-5, zn false true) := by decide

theorem test_V12_sub_reg_mem : (seen ((run_ 0 [5, 3, 100]).setX .reg3 10 |>.store 100 10) fun t => (t.mem.read 100, t.flags)) =
    some (0, zn true false) := by decide

theorem test_V13_sub_negates_min : (seen ((run_ 0 [5, 0, 100]).store 100 (-2147483648)) fun t => (t.mem.read 100, t.flags)) =
    some (-2147483648, zn false true) := by decide

theorem test_V20_move_mem_reg : (seen ((run_ 0 [6, 255, 3]).store 255 6 |>.withFlags (zn true false)) fun t => (t.x .reg3, t.flags)) =
    some (6, zn true false) := by decide

theorem test_V21_move_reg_mem : (seen ((run_ 0 [7, 0, 255]).setX .reg0 (-8)) fun t => t.mem.read 255) = some (-8) := by decide

theorem test_V22_move_reg_reg : (seen ((run_ 0 [8, 0, 1]).setX .reg0 10) fun t => (t.x .reg1, t.x .reg0)) =
    some (10, 10) := by decide

theorem test_V24_move_sentinel_value : (seen (run_ 0 [9, -1, 2]) fun t => (t.x .reg2, t.fsm)) = some (-1, .fetch) := by decide

theorem test_V30_inc_to_zero : (seen ((run_ 0 [10, 1]).setX .reg1 (-1)) fun t => (t.x .reg1, t.flags, t.pc)) =
    some (0, zn true false, 2) := by decide

theorem test_V31_inc_wraps : (seen ((run_ 0 [10, 0]).setX .reg0 2147483647) fun t => (t.x .reg0, t.flags)) =
    some (-2147483648, zn false true) := by decide

theorem test_V33_inc_mem : (seen ((run_ 0 [11, 254]).store 254 41) fun t => t.mem.read 254) = some 42 := by decide

theorem test_V34_inc_own_opcode : (seen (run_ 20 [11, 20]) fun t => (t.mem.read 20, t.ir)) = some (12, 11) := by decide

theorem test_V40_jmp : (seen (run_ 13 [12, 26]) fun t => t.pc) = some 26 := by decide

theorem test_V42_jmp_out_of_memory : (seen (run_ 8 [12, -5]) fun t => (t.pc, t.fsm)) = some (-5, .fetch) := by decide

theorem test_V43_jn_taken : (seen ((run_ 20 [13, 40]).withFlags (zn false true)) fun t => t.pc) = some 40 := by decide

theorem test_V49_jn_not_taken : (seen (run_ 24 [13, 999]) fun t => t.pc) = some 26 := by decide

theorem test_V45_jz_taken : (seen ((run_ 20 [14, 40]).withFlags (zn true false)) fun t => t.pc) = some 40 := by decide

theorem test_V46_jz_not_taken : (seen ((run_ 20 [14, 40]).withFlags (zn false true)) fun t => t.pc) = some 22 := by decide

theorem test_V47_jnz_taken : (seen ((run_ 24 [15, 18]).withFlags (zn false true)) fun t => t.pc) = some 18 := by decide

theorem test_V48_jnz_not_taken : (seen ((run_ 24 [15, 18]).withFlags (zn true false)) fun t => t.pc) = some 26 := by decide

theorem test_V50_jeq_taken : (seen (((run_ 30 [16, 0, 1, 50]).setX .reg0 7).setX .reg1 7) fun t => t.pc) = some 50 := by decide

theorem test_V51_jeq_not_taken : (seen (((run_ 30 [16, 0, 1, 50]).setX .reg0 7).setX .reg1 (-7)) fun t => t.pc) =
    some 34 := by decide

theorem test_V53_jgt_taken : (seen (((run_ 12 [17, 1, 0, 19]).setX .reg1 15).setX .reg0 10) fun t => t.pc) =
    some 19 := by decide

theorem test_V56_jgt_draw_goes_on : (seen (((run_ 12 [17, 0, 1, 19]).setX .reg0 2147483647).setX .reg1 (-1))
    fun t => (t.fsm, t.sel)) = some (.fetch, { slot0 := 16, slot1 := 19 }) := by decide

theorem test_V58_jlw_taken : (seen (((run_ 40 [18, 2, 3, 60]).setX .reg2 (-3)).setX .reg3 2) fun t => t.pc) =
    some 60 := by decide

theorem test_V61_jlw_exact_at_min : (seen ((run_ 40 [18, 0, 1, 60]).setX .reg0 (-2147483648)) fun t => t.pc) =
    some 60 := by decide

theorem test_V70_call : (seen (((run_ 9 [19, 15]).setX .stkTOP 256).setX .stkBOT 256)
    fun t => (t.x .stkTOP, t.mem.read 255, t.pc)) = some (255, 11, 15) := by decide

theorem test_V73_call_at_zero : (seen ((run_ 9 [19, 15]).setX .stkBOT 256) fun t => (t.status, t.x .stkTOP, t.pc)) =
    some (.faultStack, 0, 11) := by decide

theorem test_V71_ret : (seen ((((run_ 18 [20]).setX .stkTOP 255).setX .stkBOT 256).store 255 11)
    fun t => (t.x .stkTOP, t.pc)) = some (256, 11) := by decide

theorem test_V72_ret_empty_stack : (seen (((run_ 18 [20]).setX .stkTOP 256).setX .stkBOT 256)
    fun t => (t.status, t.x .stkTOP, t.pc)) = some (.faultStack, 256, 19) := by decide

/-! ### Halts -/

theorem test_V90_V91_pc_range : (seen (at_ 256 256 []) fun t => (t.status, t.pc, t.ir)) = some (.haltPcRange, 256, 0) ∧
    (seen (at_ 256 (-1) []) fun t => (t.status, t.pc)) = some (.haltPcRange, -1) := by decide

theorem test_V92_V93_V94_opcodes : (seen (run_ 10 [-1]) fun t => (t.status, t.pc, t.ir)) = some (.haltSentinel, 11, -1) ∧
    (seen (run_ 10 [21]) fun t => (t.status, t.pc, t.ir)) = some (.haltBadOpcode, 11, 21) ∧
    (seen (run_ 10 [-2]) fun t => (t.status, t.pc)) = some (.haltBadOpcode, 11) := by decide

theorem test_V95_V96_operand_range : (seen (run_ 255 [12]) fun t => (t.status, t.pc)) = some (.haltOperandRange, 256) ∧
    (seen (run_ 253 [16, 0, 1]) fun t => (t.status, t.pc)) = some (.haltOperandRange, 256) := by decide

theorem test_V97_V98_bad_register : (seen (run_ 10 [0, 6, 1]) fun t => (t.status, t.pc)) = some (.faultBadRegister, 12) ∧
    (seen (run_ 10 [0, 1, -3]) fun t => (t.status, t.pc)) = some (.faultBadRegister, 13) := by decide

theorem test_V99_V100_V101_data_range : (seen (run_ 10 [6, 300, 1]) fun t => (t.status, t.pc)) = some (.haltDataRange, 12) ∧
    (seen (run_ 10 [7, 9, 300]) fun t => (t.status, t.pc)) = some (.faultBadRegister, 12) ∧
    (seen (run_ 10 [7, 0, -1]) fun t => (t.status, t.pc)) = some (.haltDataRange, 13) := by decide

theorem test_V105_halted_has_no_step : step (State.reset.halt .haltSentinel) = .fault .alreadyHalted := by rfl

/-- R29: bit 0 is Z, bit 1 is N. R232: the codes. -/
theorem test_bits_and_codes : (zn true false).bits = 1 ∧ (zn false true).bits = 2 ∧ Status.running.code = 0 ∧
    Status.haltSentinel.code = 1 ∧ Status.faultStack.code = 7 := by decide

/-! ### Select, the assembler and the executable format -/

theorem test_V80_V81_select : ((at_ 256 22 []).selectPc false 40).pc = 22 ∧ ((at_ 256 22 []).selectPc true 40).pc = 40 := by
  decide

/-- R121, R125: the selected register (Demux 4, StkTOP) moved through its internal port. -/
theorem test_demux_internal_ports :
    (MicroOp.act (((at_ 8 0 []).setDemux 4).setX .stkTOP 9) (.demuxRegInternalRead { ext := .ext, int := .int })).dp.intBus = 9 ∧
    (MicroOp.act (((at_ 8 0 []).setDemux 4).put .int 9) (.demuxRegInternalStore { ext := .ext, int := .int })).x .stkTOP = 9 ∧
    (MicroOp.act ((at_ 8 0 []).setDemux 6) (.demuxRegInternalRead { ext := .ext, int := .int })).status = .faultBadRegister := by
  decide

/-- R124, U3: a paired sequence starts at ADDR whatever the latch holds, here DATA with another address; half a pair has no
meaning. -/
theorem test_runMicro_from_data :
    (runMicro (memReadSeq .haltDataRange) (((at_ 8 0 [(3, 77)]).setMemLatch { phase := .data, addr := 0 }).put .ext 3)).map
      (fun t => t.get .ext) = some 77 ∧
    (runMicro [.memRead .haltDataRange] (at_ 8 0 [])).isSome = false := by decide

/-- Start values for the loader, none of them zero. -/
def someStart : StartValues :=
  { regs := { reg0 := 1, reg1 := 2, reg2 := 3, reg3 := 4, stkTOP := 5, stkBOT := 6 }
    flags := zn true true
    ir := 7
    dp := State.reset.dp
    draws := 0 }

/-- R124: the latches of a loaded machine start at ADDR, whatever the free start values hold. -/
theorem test_load_latches (d : Datapath) :
    (State.start 1 .preserve { someStart with dp := { d with memLatch := ⟨.data, 5⟩, selLatch := ⟨.data, 6⟩ } } []).dp =
      { d with memLatch := ⟨.addr, 5⟩, selLatch := ⟨.addr, 6⟩ } := rfl

/-- R115, R266: with two variables and one cell, the failure names the second. -/
theorem test_too_many_variables : assemble [['a'], ['b']] 1 = .error (.link ['b']) ∧
    assemble [['a'], ['b']] 2 = .ok [9, 0, 5, 9, 0, 4, -1] := by decide

/-- The lines `var1`, `move %reg0 var1` (V111, the source's example E9). -/
def linesV111 : List Text :=
  [['v', 'a', 'r', '1'], ['m', 'o', 'v', 'e', ' ', '%', 'r', 'e', 'g', '0', ' ', 'v', 'a', 'r', '1']]

theorem test_V111_variable : assemble linesV111 256 = .ok [9, 255, 5, 9, 255, 4, 7, 0, 255, -1] := by decide

theorem test_V112_no_signature : assemble [['j', 'm', 'p', ' ', '5']] 256 = .error (.parse 1 ['j', 'm', 'p', ' ', '5']) := by
  decide

theorem test_V120_duplicate_label : assemble [['x', ':'], ['x', ':']] 256 = .error (.link ['x']) := by decide

theorem test_V123_label_at_end : assemble [['i', 'n', 'c', ' ', '%', 'r', 'e', 'g', '0'], ['e', 'n', 'd', ':'],
    ['j', 'm', 'p', ' ', 'e', 'n', 'd']] 256 = .ok [9, 256, 5, 9, 256, 4, 10, 0, 12, 8, -1] := by decide

theorem test_V124_raw_line_number : assemble [[';', ' ', 'c'], [' '], ['j', 'm', 'p', ' ', '5']] 256 =
    .error (.parse 3 ['j', 'm', 'p', ' ', '5']) := by decide

theorem test_V125_V126_ret : assemble [['r', 'e', 't']] 256 = .ok [9, 255, 5, 9, 255, 4, -1] ∧
    assemble [['s', 't', 'a', 'r', 't', ':'], ['r', 'e', 't']] 256 = .ok [9, 256, 5, 9, 256, 4, 20, -1] := by decide

theorem test_V127_spaces : assemble [[' ', 'm', 'o', 'v', 'e', ' ', ' ', '7', '\t', '%', 'S', 't', 'k', 'T', 'O', 'P', ' ']] 256 =
    .ok [9, 256, 5, 9, 256, 4, 9, 7, 4, -1] := by decide

theorem test_renderExecutable : renderExecutable [9, -1, 20] = ['9', '\n', '-', '1', '\n', '2', '0'] := by decide

/-! ### Witnesses: for each obligation with hypotheses, a state and operands that meet them -/

/-- The top of a memory of eight words: `n` operand words at the end of memory. -/
def top (n : Nat) : State := inside (at_ 8 (BitVec.ofNat 32 (8 - n)) [])

theorem operandsInMemory_top : (top 1).OperandsInMemory 1 ∧ (top 2).OperandsInMemory 2 ∧ (top 3).OperandsInMemory 3 := by
  unfold State.OperandsInMemory
  decide

theorem inRange_bounds : (top 1).mem.InRange 0 ∧ (top 1).mem.InRange 7 ∧ ¬ (top 1).mem.InRange 8 ∧
    ¬ (top 1).mem.InRange (-1) := by decide

theorem witness_DecodeReadsBackEveryEncodedInstruction :
    WellFormed (.jeq (.reg .stkBOT) (.reg .reg0) (-1)) ∧ WellFormed .ret := by decide

theorem witness_DecodedWordsAreTheEncoding : decode [9, -1, 5, 7] = .ok (.moveImmReg (-1) (.reg .stkBOT)) := by decide

theorem witness_StepRunsTheDecodedInstruction : (at_ 8 5 [(5, 9), (6, 1)]).fsm = .fetch ∧
    (at_ 8 5 [(5, 9), (6, 1)]).mem.InRange 5 ∧
    decode ((at_ 8 5 [(5, 9), (6, 1)]).mem.readMany 5 maxWords) = .ok (.moveImmReg 1 (.reg .reg0)) := by decide

theorem witness_OpcodeFetch : ¬ (at_ 8 8 []).mem.InRange 8 ∧ ¬ (at_ 8 (-1) []).mem.InRange (-1) ∧
    (at_ 8 7 []).mem.InRange 7 ∧ (at_ 8 7 []).mem.SizeOk ∧ (at_ 2147483647 2147483646 []).mem.InRange 2147483646 ∧
    (at_ 2147483647 2147483646 []).mem.SizeOk := by decide

theorem witness_OperandWordFetch : ¬ (at_ 8 8 []).mem.InRange 8 ∧ (at_ 8 0 []).mem.InRange 0 := by decide

theorem witness_RegisterOperandFetch : (at_ 8 7 []).mem.InRange 7 ∧ (0 : Int) ≤ (0 : Word).toInt ∧ (5 : Word).toInt ≤ 5 ∧
    5 < (6 : Word).toInt ∧ (-1 : Word).toInt < 0 := by decide

theorem witness_OpcodeDispatch : (at_ 8 7 []).fsm = .fetch ∧ (at_ 8 7 []).mem.InRange 7 ∧
    (at_ 8 7 [(7, -1)]).mem.read 7 = wrap (-1) ∧ 20 < ((at_ 8 7 [(7, 21)]).mem.read 7).toInt ∧
    ((at_ 8 7 [(7, -2)]).mem.read 7).toInt < 0 ∧ (at_ 8 7 [(7, -2)]).mem.read 7 ≠ wrap (-1) ∧
    0 ≤ ((at_ 8 7 []).mem.read 7).toInt ∧ ((at_ 8 7 [(7, 20)]).mem.read 7).toInt ≤ 20 := by decide

theorem witness_RunningMachineAlwaysSteps : State.reset.fsm = .fetch := by decide

theorem witness_HaltedIsFinal : (State.reset.halt .faultStack).fsm = .halted := by decide

theorem witness_AddSubRegRegResult : (top 2).OperandsInMemory 2 := operandsInMemory_top.2.1

theorem witness_AddSubMemRegResult : (top 2).OperandsInMemory 2 ∧ (top 2).mem.InRange 7 :=
  ⟨operandsInMemory_top.2.1, by decide⟩

theorem witness_AddSubRegMemResult : (top 2).OperandsInMemory 2 ∧ (top 2).mem.InRange 0 ∧ (top 2).mem.wf :=
  ⟨operandsInMemory_top.2.1, by decide, by decide⟩

theorem witness_MoveToRegisterResult : (top 2).OperandsInMemory 2 ∧ (top 2).mem.InRange 7 :=
  ⟨operandsInMemory_top.2.1, by decide⟩

theorem witness_MoveToMemoryResult : (top 2).OperandsInMemory 2 ∧ (top 2).mem.InRange 7 ∧ (top 2).mem.wf :=
  ⟨operandsInMemory_top.2.1, by decide, by decide⟩

theorem witness_IncRegResult : (top 1).OperandsInMemory 1 := operandsInMemory_top.1

theorem witness_IncMemResult : (top 1).OperandsInMemory 1 ∧ (top 1).mem.InRange 7 ∧ (top 1).mem.wf :=
  ⟨operandsInMemory_top.1, by decide, by decide⟩

theorem witness_JmpResult : (top 1).OperandsInMemory 1 := operandsInMemory_top.1

theorem witness_FlagJumpResult : (top 1).OperandsInMemory 1 := operandsInMemory_top.1

theorem witness_JeqResult : (top 3).OperandsInMemory 3 ∧ (top 3).flagsAfterCtl = .preserve :=
  ⟨operandsInMemory_top.2.2, by decide⟩

/-- The least and the greatest difference that fit. -/
theorem witness_OrderJumpResult : (top 3).OperandsInMemory 3 ∧
    FitsWord ((((top 3).setX .reg0 (-2147483648)).x .reg0).toInt - (((top 3).setX .reg0 (-2147483648)).x .reg1).toInt) ∧
    FitsWord ((((top 3).setX .reg0 2147483647).x .reg0).toInt - (((top 3).setX .reg0 2147483647).x .reg1).toInt) :=
  ⟨operandsInMemory_top.2.2, by decide, by decide⟩

theorem witness_OrderJumpOverflow : ((top 3).setX .reg1 (-2147483648)).OperandsInMemory 3 ∧
    ¬ FitsWord ((((top 3).setX .reg1 (-2147483648)).x .reg0).toInt - (((top 3).setX .reg1 (-2147483648)).x .reg1).toInt) :=
  ⟨operandsInMemory_top.2.2, by decide⟩

/-- The stack pointers put at `t` and `b`. -/
def stack (s : State) (t b : Word) : State := (s.setX .stkTOP t).setX .stkBOT b

/-- A three-operand jump at the end of memory, taken to a target outside it. -/
def jump8 : State := at_ 8 4 [(4, 16), (5, 0), (6, 1), (7, 8)]

/-- A two-word jump of opcode `op` at the end of memory, to a target outside it. -/
def jump2 (op : Word) : State := at_ 8 6 [(6, op), (7, 8)]

theorem witness_TargetsAreCheckedAtTheNextFetch : jump8.fsm = .fetch ∧ jump8.mem.InRange jump8.pc ∧
    decode (jump8.mem.readMany jump8.pc maxWords) = .ok (.jeq (.reg .reg0) (.reg .reg1) 8) ∧
    jump8.x .reg0 = jump8.x .reg1 ∧ ¬ jump8.mem.InRange 8 ∧ jump8.fetched.OperandsInMemory 3 :=
  ⟨rfl, by decide, by decide, by decide, by decide, by decide, by decide, by decide⟩

theorem witness_TargetsAreCheckedAtTheNextFetch_twoWords :
    (∀ row ∈ [((12 : Word), Instr.jmp 8), (13, .jn 8), (14, .jz 8), (15, .jnz 8), (19, .call 8)],
      decode ((jump2 row.1).mem.readMany (jump2 row.1).pc maxWords) = .ok row.2) ∧
    (jump2 12).fsm = .fetch ∧ (jump2 12).mem.InRange (jump2 12).pc ∧ (jump2 12).fetched.OperandsInMemory 1 ∧
    ((jump2 13).withFlags (zn true true)).flags.n = true ∧ ((jump2 14).withFlags (zn true true)).flags.z = true ∧
    (jump2 15).flags.z = false :=
  ⟨by decide, rfl, by decide, ⟨by decide, by decide, by decide⟩, rfl, rfl, rfl⟩

theorem witness_TargetsAreCheckedAtTheNextFetch_order :
    (∀ row ∈ [((17 : Word), Instr.jgt (.reg .reg0) (.reg .reg1) 8), (18, .jlw (.reg .reg0) (.reg .reg1) 8)],
      decode ((at_ 8 4 [(4, row.1), (5, 0), (6, 1), (7, 8)]).mem.readMany 4 maxWords) = .ok row.2) ∧
    FitsWord (((jump8.setX .reg0 2147483647).x .reg0).toInt - ((jump8.setX .reg0 2147483647).x .reg1).toInt) ∧
    ((jump8.setX .reg0 2147483647).x .reg1).toInt < ((jump8.setX .reg0 2147483647).x .reg0).toInt := by decide

theorem witness_TargetsAreCheckedAtTheNextFetch_stack : (stack (jump2 19) 8 8).PushAllowed ∧
    (stack (jump2 19) 8 8).mem.wf ∧ (stack (at_ 8 7 [(6, 8), (7, 20)]) 6 8).PopAllowed ∧
    decode ((at_ 8 7 [(6, 8), (7, 20)]).mem.readMany 7 maxWords) = .ok .ret ∧
    ¬ (at_ 8 7 [(6, 8), (7, 20)]).mem.InRange ((at_ 8 7 [(6, 8), (7, 20)]).mem.read 6) := by
  simp only [State.PushAllowed, State.PopAllowed, lt_min_iff]
  decide

/-- The highest and the lowest cell that a push can go to. -/
theorem witness_CallResult : (stack (top 1) 8 8).OperandsInMemory 1 ∧ (stack (top 1) 8 8).mem.wf ∧
    State.PushAllowed (stack (top 1) 8 8) ∧ State.PushAllowed (stack (top 1) 1 8) := by
  refine ⟨operandsInMemory_top.1, by decide, ?_⟩
  simp only [State.PushAllowed, lt_min_iff]
  decide

theorem witness_RetResult : State.PopAllowed (stack (top 1) 0 9) ∧ State.PopAllowed (stack (top 1) 7 9) := by
  simp only [State.PopAllowed, lt_min_iff]
  decide

/-- Allowed at the top; outside below 0, at StkBOT and at the end of memory. -/
theorem witness_PushBound : (stack (top 1) 8 8).OperandsInMemory 1 ∧ (stack (top 1) 8 8).mem.wf ∧
    State.PushAllowed (stack (top 1) 8 8) ∧ ¬ State.PushAllowed (stack (top 1) 0 8) ∧ ¬ State.PushAllowed (stack (top 1) 8 7) ∧
    ¬ State.PushAllowed (stack (top 1) 9 9) := by
  refine ⟨operandsInMemory_top.1, by decide, ?_⟩
  simp only [State.PushAllowed, lt_min_iff]
  decide

theorem witness_PopBound : State.PopAllowed (stack (top 1) 7 8) ∧ ¬ State.PopAllowed (stack (top 1) (-1) 8) ∧ ¬ State.PopAllowed (stack (top 1) 8 9) ∧
    ¬ State.PopAllowed (stack (top 1) 7 7) ∧ (stack (top 1) 7 7).x .stkTOP = (stack (top 1) 7 7).x .stkBOT := by
  simp only [State.PopAllowed, lt_min_iff]
  decide

/-- A subroutine that has moved StkBOT: the pop is still allowed. -/
theorem witness_RetUndoesCall : (stack (top 1) 8 8).OperandsInMemory 1 ∧ (stack (top 1) 8 8).mem.wf ∧
    ∃ t, exec (.call 3) (stack (top 1) 8 8) = .next t ∧ t.fsm ≠ .halted ∧
      ∃ u : State, u.x .stkTOP = t.x .stkTOP ∧ u.mem.read (u.x .stkTOP) = t.mem.read (t.x .stkTOP) ∧
        u.x .stkBOT ≠ t.x .stkBOT ∧ u.PopAllowed := by
  refine ⟨operandsInMemory_top.1, by decide, _, rfl, by decide, ((stack (top 1) 8 8).store 7 8).setX .stkTOP 7 |>.setX .stkBOT 9,
    by decide, by decide, by decide, ?_⟩
  simp only [State.PopAllowed, lt_min_iff]
  decide

theorem witness_FirstOperandMissingHalts : (Instr.incMem 0).opcode ≠ .ret ∧ ¬ (at_ 8 8 []).mem.InRange 8 := by decide

theorem witness_FirstRegisterIllegalHalts : (top 1).mem.InRange (top 1).pc ∧
    Instr.incReg (.illegal 6) ∈ [Instr.addRegReg (.illegal 6) (.illegal 7), .incReg (.illegal 6)] := by decide

theorem witness_SecondRegisterIllegalHalts : (top 2).OperandsInMemory 2 ∧ (top 2).mem.InRange 7 :=
  ⟨operandsInMemory_top.2.1, by decide⟩

theorem witness_DataAddressOutOfRangeHalts : ¬ (top 1).mem.InRange 8 ∧ ¬ (top 2).mem.InRange (-1) ∧
    (top 1).OperandsInMemory 1 ∧ (top 2).OperandsInMemory 2 :=
  ⟨by decide, by decide, operandsInMemory_top.1, operandsInMemory_top.2.1⟩

theorem witness_LaterOperandMissingHalts : (top 1).mem.SizeOk ∧ 0 ≤ (top 1).pc.toInt ∧
    (top 1).pc.toInt + 1 = (top 1).mem.size ∧ (top 1).mem.InRange 7 ∧ 0 ≤ (top 2).pc.toInt ∧
    (top 2).pc.toInt + 2 = (top 2).mem.size := by decide

theorem witness_OnlyFlagWritersChangeTheFlags : (∃ t, exec (.jmp 0) (top 1) = .next t) ∧ (Instr.jmp 0).opcode ∉ flagWriters ∧
    (Instr.jmp 0).opcode ∉ ctlFlagOpcodes ∧ (∃ t, exec (.jeq (.reg .reg0) (.reg .reg1) 0) (top 3) = .next t) ∧
    (Instr.jeq (.reg .reg0) (.reg .reg1) 0).opcode ∉ flagWriters ∧ (top 3).flagsAfterCtl = .preserve :=
  ⟨⟨_, rfl⟩, by decide, by decide, ⟨_, rfl⟩, by decide, rfl⟩

theorem witness_OtherInstructionsFallThrough : (top 1).fsm = .decodeExecute ∧ (Instr.incMem 7).opcode ∉ controlOpcodes ∧
    ∃ t, exec (.incMem 7) (top 1) = .next t ∧ t.fsm ≠ .halted := ⟨rfl, by decide, _, rfl, by decide⟩

theorem witness_RegistersChangeOnlyAsNamed : (∃ t, exec (.incReg (.reg .reg0)) (top 1) = .next t) ∧
    destination (.incReg (.reg .reg0)) ≠ some (.reg .stkTOP) ∧ (Instr.incReg (.reg .reg0)).opcode ≠ .call ∧
    (Instr.incReg (.reg .reg0)).opcode ≠ .ret := ⟨⟨_, rfl⟩, by decide, by decide, by decide⟩

theorem witness_MemoryChangesOnlyWhereStored : (top 1).mem.wf ∧ (∃ t, exec (.incMem 7) (top 1) = .next t) ∧
    storeAddress (top 1) (.incMem 7) ≠ some 6 := ⟨by decide, ⟨_, rfl⟩, by decide⟩

theorem witness_StepKeepsTheParameters : ∃ t, step State.reset = .next t := ⟨_, rfl⟩

theorem witness_StepKeepsInvariant : State.reset.Inv ∧ ∃ t, step State.reset = .next t :=
  ⟨⟨by decide, by decide, by decide, by decide⟩, _, rfl⟩

theorem witness_StepNeverSetsBothFlags : State.reset.flagsAfterCtl = .preserve ∧
    ¬ (State.reset.flags.z = true ∧ State.reset.flags.n = true) ∧ ∃ t, step State.reset = .next t :=
  ⟨rfl, by decide, _, rfl⟩

theorem witness_HiddenStateIsNeverObserved :
    State.reset.SameVisible { State.reset with ir := 7, sel := { slot0 := 1, slot1 := 2 } } ∧
    (∃ t, step State.reset = .next t) ∧ step (State.reset.halt .haltSentinel) = .fault .alreadyHalted :=
  ⟨⟨rfl, rfl, rfl, rfl, rfl, rfl, rfl, rfl⟩, ⟨_, rfl⟩, rfl⟩

/-- A register-to-memory form of opcode `op` at 5..7 that names its own word 7. -/
def own3 (op : Word) : State := at_ 8 5 [(5, op), (6, 1), (7, 7)]

theorem witness_StoringInstructionsNeverSeeTheirOwnStore : ∀ op ∈ [(2 : Word), 5, 7], (own3 op).fsm = .fetch ∧
    (own3 op).mem.wf ∧ (own3 op).mem.SizeOk ∧ 0 ≤ (own3 op).pc.toInt ∧ (own3 op).pc.toInt + 2 < (own3 op).mem.size ∧
    (own3 op).mem.InRange 7 ∧ (own3 op).mem.read ((own3 op).pc + 1) = RegId.reg1.word ∧
    (own3 op).mem.read ((own3 op).pc + 2) = 7 ∧ (own3 op).mem.read (own3 op).pc = op := by
  simp only [List.forall_mem_cons]
  exact ⟨by decide, by decide, by decide, by simp⟩

theorem witness_StoringInstructionsNeverSeeTheirOwnStore_inc : (at_ 8 6 [(6, 11), (7, 7)]).mem.wf ∧
    (6 : Word).toInt + 1 < (8 : Int) ∧ (at_ 8 6 [(6, 11), (7, 7)]).mem.InRange 7 ∧
    (at_ 8 6 [(6, 11), (7, 7)]).mem.read 6 = 11 ∧ (at_ 8 6 [(6, 11), (7, 7)]).mem.read (6 + 1) = 7 := by decide

/-- A CALL whose push goes to its own target word. -/
theorem witness_StoringInstructionsNeverSeeTheirOwnStore_call : (stack (jump2 19) 8 8).PushAllowed ∧
    (stack (jump2 19) 8 8).mem.wf ∧ (stack (jump2 19) 8 8).pc.toInt + 1 < (stack (jump2 19) 8 8).mem.size ∧
    (stack (jump2 19) 8 8).mem.read 6 = 19 ∧ (stack (jump2 19) 8 8).mem.read (6 + 1) = 8 := by
  simp only [State.PushAllowed, lt_min_iff]
  decide

theorem witness_ZeroWordsDoubleReg0 : (at_ 8 5 []).fsm = .fetch ∧ (at_ 8 5 []).mem.SizeOk ∧ 0 ≤ (5 : Word).toInt ∧
    (5 : Word).toInt + 2 < (8 : Int) ∧ (at_ 8 5 []).mem.read 5 = 0 ∧ (at_ 8 5 []).mem.read (5 + 1) = 0 ∧
    (at_ 8 5 []).mem.read (5 + 2) = 0 := by decide

theorem witness_LoadedStartState : (∃ s, load 3 .any someStart [-1, 2147483647, -2147483648] = .ok s) ∧
    (∃ s, load 1 .preserve someStart [] = .ok s) := ⟨⟨_, rfl⟩, ⟨_, rfl⟩⟩

theorem witness_LoaderAdmission : (1 ≤ 1 ∧ 1 ≤ maxMemSize ∧ 1 ≤ maxMemSize ∧ maxMemSize ≤ maxMemSize) ∧
    load 1 .preserve someStart [0, 0] = .error .tooLong ∧
    load 1 .preserve someStart [2147483648] = .error (.wordRange 2147483648) := ⟨by decide, rfl, rfl⟩

theorem witness_TwoCallProtocolCollapses : (top 1).fsm = .decodeExecute ∧
    (top 1).mem.InRange ((top 1).get .ext) ∧ ¬ ((top 1).put .ext 8).mem.InRange (((top 1).put .ext 8).get .ext) ∧
    (top 1).mem.InRange 7 ∧ ¬ (top 1).mem.InRange (-1) := by decide

theorem witness_SelectThroughTheMemoryProtocol : (top 1).fsm = .decodeExecute := by decide

theorem witness_MicroSequenceImplementsAddRegReg : (top 2).fsm = .decodeExecute := by decide

/-- The lines `v`, `l:`, `inc v`, `jmp l`. -/
def lines4 : List Text := [['v'], ['l', ':'], ['i', 'n', 'c', ' ', 'v'], ['j', 'm', 'p', ' ', 'l']]

/-- What passes 1 and 2 make of them. -/
def object4 : Object where
  vars := [['v']]
  labels := [(['l'], 0)]
  program := [.number 11, .address ['v'], .number 12, .address ['l']]

/-- The image, in a memory that it just fills. -/
def image4 : List Int := [9, 10, 5, 9, 10, 4, 11, 10, 12, 6, -1]

theorem assemble_lines4 : assemble lines4 11 = .ok image4 ∧ parse lines4 = .ok object4 := by decide

theorem witness_ExecutableShape : assemble lines4 11 = .ok image4 ∧
    object4.program[1]? = some (.address ['v']) ∧ object4.program[2]? = some (.number 12) :=
  ⟨assemble_lines4.1, rfl, rfl⟩

theorem witness_VariableAddresses : assemble lines4 11 = .ok image4 ∧ parse lines4 = .ok object4 ∧
    object4.vars[0]? = some ['v'] := ⟨assemble_lines4.1, assemble_lines4.2, rfl⟩

theorem witness_LabelAddresses : assemble lines4 11 = .ok image4 ∧ parse lines4 = .ok object4 ∧
    (['l'], 0) ∈ object4.labels := ⟨assemble_lines4.1, assemble_lines4.2, by decide⟩

theorem witness_ClashingNamesNeverLink : assemble lines4 11 = .ok image4 ∧ parse lines4 = .ok object4 := assemble_lines4

theorem witness_LeadingRetDeclaresAVariable : (∀ v ∈ [['v']], isIdent v = true) ∧
    parse ([['v']] ++ ['r', 'e', 't'] :: [['r', 'e', 't', ' ']]) = .ok ⟨[['v'], ['r', 'e', 't'], ['r', 'e', 't']], [], []⟩ := by
  decide

theorem witness_ExecutablesAreInstructions : assemble lines4 11 = .ok image4 := assemble_lines4.1

theorem witness_PrologueSetsTheStackPointers : assemble lines4 11 = .ok image4 ∧ parse lines4 = .ok object4 ∧
    image4.length ≤ 11 ∧ 11 ≤ maxMemSize := ⟨assemble_lines4.1, assemble_lines4.2, by decide, by decide⟩

end Sys2Proof.Tests
end

section
/-!
PROOFS. What every step keeps: the parameters of the machine (R7) and its invariant. Both follow one shape, `step_closed`:
a property of the states inside an instruction that every elementary update keeps, and what it gives once the
instruction is settled.
-/
namespace Sys2Proof.Machine

/-- `exec_closed` for a whole step: `P` holds inside the instruction, `R` of the settled state. -/
theorem step_closed {P R : State → Prop} {s t : State} (c : Closed P) (e : Ends P fun u => R u.settle)
    (hfetched : P s.fetched) (hpcRange : R (s.halt .haltPcRange).settle) (h : step s = .next t) : R t := by
  obtain ⟨u, rfl, ⟨-, rfl⟩ | ⟨-, r, hr, rfl⟩ | ⟨-, i, -, hi⟩⟩ := step_of_next h
  · exact hpcRange
  · exact e.halt _ r hfetched hr
  · exact (exec_closed c e hfetched i).of_eq hi

/-! ### The parameters -/

/-- R7, R50: `t` has the memory size and the `FLAGS_AFTER_CTL` of `s`. -/
def State.SameParameters (s t : State) : Prop := t.mem.size = s.mem.size ∧ t.flagsAfterCtl = s.flagsAfterCtl

/-- No elementary update writes a parameter. -/
theorem State.sameParameters_closed (s : State) : Closed s.SameParameters where
  setPc _ _ h := h
  setDemux _ _ h := h
  setX _ _ _ h := h
  store _ _ _ h _ := h
  setFlags _ _ h := h
  ctlFlags _ _ h _ := h
  selectPc _ _ _ h := h
  countDraw _ h := h

theorem State.sameParameters_ends (s : State) : Ends s.SameParameters fun u => s.SameParameters u.settle where
  done _ h := h
  halt _ _ h _ := h

/-- Settles O40: no elementary update writes a parameter, nor does the opcode fetch or the end of the instruction. -/
theorem stepKeepsTheParameters : Obligations.StepKeepsTheParameters := by
  unfold Obligations.StepKeepsTheParameters
  intro s t h
  exact step_closed s.sameParameters_closed s.sameParameters_ends ⟨rfl, rfl⟩ ⟨rfl, rfl⟩ h

/-! ### The invariant -/

/-- The invariant inside an instruction: as between two steps, but in DECODE_EXECUTE, which a running machine is in from
the opcode fetch to the end of the instruction (R130, R133). -/
structure State.InvInside (s : State) : Prop where
  size_ok : s.mem.SizeOk
  mem_wf : s.mem.wf
  executing : s.fsm = .decodeExecute
  running : s.status = .running

theorem State.Inv.fetched {s : State} (h : s.Inv) (hf : s.fsm = .fetch) : s.fetched.InvInside where
  size_ok := h.size_ok
  mem_wf := h.mem_wf
  executing := rfl
  running := h.status_running_iff.2 (by simp [hf])

/-- Only a store touches what the invariant speaks of, and it is made in range. -/
theorem State.invInside_closed : Closed State.InvInside where
  setPc _ _ h := ⟨h.size_ok, h.mem_wf, h.executing, h.running⟩
  setDemux _ _ h := ⟨h.size_ok, h.mem_wf, h.executing, h.running⟩
  setX _ _ _ h := ⟨h.size_ok, h.mem_wf, h.executing, h.running⟩
  store _ _ v h ha := ⟨h.size_ok, Memory.wf_write v h.mem_wf ha, h.executing, h.running⟩
  setFlags _ _ h := ⟨h.size_ok, h.mem_wf, h.executing, h.running⟩
  ctlFlags _ _ h _ := ⟨h.size_ok, h.mem_wf, h.executing, h.running⟩
  selectPc _ _ _ h := ⟨h.size_ok, h.mem_wf, h.executing, h.running⟩
  countDraw _ h := ⟨h.size_ok, h.mem_wf, h.executing, h.running⟩

/-- R42, R134: an instruction that has not halted is settled at FETCH, still running. -/
theorem State.InvInside.settle {s : State} (h : s.InvInside) : s.settle.Inv := by
  have fsm : s.settle.fsm = .fetch := State.fsm_settle_of_not_halted (by simp [h.executing])
  exact ⟨h.size_ok, h.mem_wf, by rw [fsm]; decide, iff_of_true h.running (by rw [fsm]; decide)⟩

/-- R42, R231: a halt is settled at HALTED, with its reason in the status. -/
theorem State.inv_settle_halt {s : State} {r : Status} (size_ok : s.mem.SizeOk) (mem_wf : s.mem.wf)
    (hr : r ≠ .running) : (s.halt r).settle.Inv :=
  ⟨size_ok, mem_wf, by rw [State.fsm_settle_halt]; decide, iff_of_false hr fun h => h (State.fsm_settle_halt s r)⟩

theorem State.invInside_ends : Ends State.InvInside fun u => u.settle.Inv where
  done _ h := h.settle
  halt _ _ h hr := State.inv_settle_halt h.size_ok h.mem_wf hr

/-- Settles O41: the opcode fetch leads from the invariant to its form inside an instruction, which every elementary
update keeps and from which the end of the instruction and every halt lead back. -/
theorem stepKeepsInvariant : Obligations.StepKeepsInvariant := by
  unfold Obligations.StepKeepsInvariant
  intro s t hs h
  exact step_closed State.invInside_closed State.invInside_ends (hs.fetched (fsm_of_step h))
    (State.inv_settle_halt hs.size_ok hs.mem_wf (by decide)) h

end Sys2Proof.Machine
end

section
/-!
PROOFS. IR, the status-selection cells and the datapath are never observed (R26, R36, R38): `sim_exec` carried to a
whole step. The opcode word is read from memory, so two states that agree on memory and PC decode the same instruction.
-/
namespace Sys2Proof.Machine

theorem sim_decodeExecute {s t : State} (h : s.SameVisible t) (words : s.instrWords = t.instrWords) :
    Sim (decodeExecute s) (decodeExecute t) := by
  unfold decodeExecute
  rw [words]
  split
  · exact sim_exec _ h
  · exact sim_halt h _
  · exact sim_halt h _
  · exact sim_halt h _

/-- R130, R139: the opcode fetch overwrites IR, the one hidden word that the decoder is given. -/
theorem State.SameVisible.instrWords_fetched {s t : State} (h : s.SameVisible t) :
    s.fetched.instrWords = t.fetched.instrWords := by
  rw [State.instrWords_fetched, State.instrWords_fetched, h.mem, h.pc]

theorem sim_runInstr {s t : State} (h : s.SameVisible t) : Sim (runInstr s) (runInstr t) := by
  unfold runInstr fetchOpcode
  exact sim_settleResult (sim_ite (by rw [h.mem, h.pc])
    (fun _ => sim_decodeExecute h.fetched h.instrWords_fetched) fun _ => sim_halt h _)

/-- R135: no step is defined inside an instruction. -/
theorem step_of_decodeExecute {s : State} (h : s.fsm = .decodeExecute) : step s = .fault .betweenPhases := by
  unfold step
  rw [h]

/-- R136: a halted machine has no step. -/
theorem step_of_halted {s : State} (h : s.fsm = .halted) : step s = .fault .alreadyHalted := by
  unfold step
  rw [h]

/-- Settles O44: from FETCH both states run an instruction and stay alike; at the other phases, which they share, both
stop with the fault of the phase. -/
theorem hiddenStateIsNeverObserved : Obligations.HiddenStateIsNeverObserved := by
  unfold Obligations.HiddenStateIsNeverObserved
  intro s t h
  cases hs : s.fsm with
  | fetch =>
    obtain ⟨u, u', e, e', hu⟩ := sim_runInstr h
    rw [step_of_fetch hs, step_of_fetch (h.fsm.symm.trans hs), e, e']
    exact ⟨fun s' hn => ⟨u', rfl, by cases hn; exact hu⟩, nofun⟩
  | decodeExecute =>
    rw [step_of_decodeExecute hs, step_of_decodeExecute (h.fsm.symm.trans hs)]
    exact ⟨fun _ hn => (by cases hn), fun _ hf => hf⟩
  | halted =>
    rw [step_of_halted hs, step_of_halted (h.fsm.symm.trans hs)]
    exact ⟨fun _ hn => (by cases hn), fun _ hf => hf⟩

end Sys2Proof.Machine
end

section
/-!
PROOFS. The state after the operand words have been fetched (R131, R132), and an instruction whose words run out of
memory after the first or the second (R24): it halts at the first missing word, with nothing done but the fetches before
it.
-/
namespace Sys2Proof.Machine

/-! ### After operand words -/

/-- R131, R132: `u` is `s` after the fetch of `n` operand words: PC is past them, and nothing else has changed but the
datapath, where register fetches set Demux. -/
def State.PastOperands (s u : State) (n : Nat) : Prop := ∃ d, u = { s with pc := s.pc + BitVec.ofNat 32 n, dp := d }

theorem State.PastOperands.refl (s : State) : s.PastOperands s 0 := ⟨s.dp, by simp⟩

section
variable {s u : State} {n : Nat}

theorem State.PastOperands.word (h : s.PastOperands u n) : s.PastOperands (u.setPc (u.pc + 1)) (n + 1) := by
  obtain ⟨d, rfl⟩ := h
  refine ⟨d, ?_⟩
  rw [BitVec.ofNat_add, ← BitVec.add_assoc]
  rfl

theorem State.PastOperands.reg (h : s.PastOperands u n) {w : Word} :
    s.PastOperands ((u.setPc (u.pc + 1)).setDemux w) (n + 1) := by
  obtain ⟨d, e⟩ := h.word
  exact ⟨_, by rw [e]; rfl⟩

/-- R231: a halt after `n` operand words. -/
theorem State.PastOperands.haltTaken (h : s.PastOperands u n) (r : Status) : HaltTaken s (u.halt r) n r := by
  obtain ⟨d, rfl⟩ := h
  exact ⟨rfl, rfl, rfl, rfl, rfl, fun _ => rfl, fun _ => rfl, rfl, rfl, rfl, rfl⟩

end

/-! ### A missing word -/

/-- R7, R131: PC in memory is advanced without wrapping. -/
theorem State.toInt_pc_add_one {s : State} (size_ok : s.mem.SizeOk) (h : s.pc.toInt < s.mem.size) :
    (s.pc + 1).toInt = s.pc.toInt + 1 := by
  have hmax := size_ok.2
  refine toInt_add_one ?_
  simp only [maxInt, maxMemSize] at *
  omega

/-- R24: past the last cell there is no word. -/
theorem State.not_inRange_past_last {s : State} (size_ok : s.mem.SizeOk) (last : s.pc.toInt + 1 = s.mem.size) :
    ¬ s.mem.InRange (s.pc + 1) := by
  rw [Memory.InRange, State.toInt_pc_add_one size_ok (by omega)]
  omega

/-- `k` starts with the fetch of an operand word. -/
def FetchesWord (k : State → Result) : Prop :=
  ∀ u : State, ¬ u.mem.InRange u.pc → k u = .next (u.halt .haltOperandRange)

section
variable {s : State}

/-! An operand is fetched, and the word after it is missing. -/

theorem fetchWord_then_missing {k : State → Result} (h : s.mem.InRange s.pc) (missing : ¬ s.mem.InRange (s.pc + 1))
    (hk : FetchesWord k) : ∃ t, fetchWord s k = .next t ∧ HaltTaken s t 1 .haltOperandRange :=
  ⟨_, (fetchWord_of_inRange h).trans (hk _ missing), (State.PastOperands.refl s).word.haltTaken _⟩

theorem fetchReg_then_missing {u : State} {n : Nat} (past : s.PastOperands u n) {q : RegId}
    {k : RegId → State → Result} (h : u.mem.InRange u.pc) (missing : ¬ u.mem.InRange (u.pc + 1))
    (hk : FetchesWord (k q)) :
    ∃ t, fetchReg (.reg q) u k = .next t ∧ HaltTaken s t (n + 1) .haltOperandRange :=
  ⟨_, (fetchReg_of_inRange h).trans (hk _ missing), past.reg.haltTaken _⟩

theorem fetchCell_then_missing {a : Word} {k : Word → State → Result} (h : s.mem.InRange s.pc)
    (ha : s.mem.InRange a) (missing : ¬ s.mem.InRange (s.pc + 1)) (hk : FetchesWord (k (s.mem.read a))) :
    ∃ t, fetchCell a s k = .next t ∧ HaltTaken s t 1 .haltOperandRange :=
  ⟨_, (fetchCell_of_inRange h ha).trans (hk _ missing), (State.PastOperands.refl s).word.haltTaken _⟩

theorem fetchRegs_then_missing {q r : RegId} {k : RegId → RegId → State → Result} (h : s.mem.InRange s.pc)
    (h' : s.mem.InRange (s.pc + 1)) (missing : ¬ s.mem.InRange (s.pc + 1 + 1)) (hk : FetchesWord (k q r)) :
    ∃ t, fetchReg (.reg q) s (fun x u => fetchReg (.reg r) u (k x)) = .next t ∧
      HaltTaken s t 2 .haltOperandRange := by
  rw [fetchReg_of_inRange h]
  exact fetchReg_then_missing (State.PastOperands.refl s).reg h' missing hk

theorem fetchesWord_fetchWord {k : State → Result} : FetchesWord fun u => fetchWord u k :=
  fun _ => fetchWord_of_not_inRange

theorem fetchesWord_fetchReg {o : RegOperand} {k : RegId → State → Result} : FetchesWord fun u => fetchReg o u k :=
  fun _ => fetchReg_of_not_inRange

theorem fetchesWord_fetchAddr {a : Word} {k : State → Result} : FetchesWord fun u => fetchAddr a u k :=
  fun _ => fetchAddr_of_not_inRange

theorem fetchesWord_fetchCell {a : Word} {k : Word → State → Result} : FetchesWord fun u => fetchCell a u k :=
  fun _ => fetchCell_of_not_inRange

end

/-- Settles O35: the operands before the missing word are fetched, and the next fetch halts. -/
theorem laterOperandMissingHalts : Obligations.LaterOperandMissingHalts := by
  unfold Obligations.LaterOperandMissingHalts
  intro s a imm q r o size_ok
  refine ⟨fun h0 last => ?_, fun h0 last => ?_⟩
  · have here : s.mem.InRange s.pc := ⟨h0, by omega⟩
    have missing := State.not_inRange_past_last size_ok last
    simp only [List.forall_mem_cons, exec, execAddRegReg, execSubRegReg, execMoveRegReg, execAddRegMem, execSubRegMem,
      execMoveRegMem, execMoveImmReg, execJeq, execJgt, execJlw, execAddMemReg, execSubMemReg, execMoveMemReg]
    have afterReg {k : RegId → State → Result} (hk : FetchesWord (k q)) :=
      fetchReg_then_missing (.refl s) here missing hk
    constructor
    · refine ⟨?addRegReg, ?subRegReg, ?moveRegReg, ?addRegMem, ?subRegMem, ?moveRegMem, ?moveImmReg, ?jeq, ?jgt, ?jlw,
        List.forall_mem_nil _⟩
      case moveImmReg => exact fetchWord_then_missing here missing fetchesWord_fetchReg
      case addRegMem | subRegMem => exact afterReg fetchesWord_fetchCell
      case moveRegMem => exact afterReg fetchesWord_fetchAddr
      case addRegReg | subRegReg | moveRegReg | jeq | jgt | jlw => exact afterReg fetchesWord_fetchReg
    · intro ha
      have afterCell {k : Word → State → Result} (hk : FetchesWord (k (s.mem.read a))) :=
        fetchCell_then_missing here ha missing hk
      exact ⟨afterCell fetchesWord_fetchReg, afterCell fetchesWord_fetchReg, afterCell fetchesWord_fetchReg,
        List.forall_mem_nil _⟩
  · have operands : s.OperandsInMemory 2 := ⟨h0, by omega, size_ok.2⟩
    have next : (s.pc + 1).toInt + 1 = s.mem.size := by
      rw [State.toInt_pc_add_one size_ok (by omega)]
      omega
    have missing := State.not_inRange_past_last (s := s.setPc (s.pc + 1)) size_ok next
    simp only [List.forall_mem_cons, exec, execJeq, execJgt, execJlw]
    have afterRegs {k : RegId → RegId → State → Result} (hk : FetchesWord (k q r)) :=
      fetchRegs_then_missing operands.inRange operands.tail.inRange missing hk
    exact ⟨afterRegs fetchesWord_fetchWord, afterRegs fetchesWord_fetchWord, afterRegs fetchesWord_fetchWord,
      List.forall_mem_nil _⟩

end Sys2Proof.Machine
end

section
/-!
PROOFS. What an instruction changes, said once (`exec_outcome`): it halts after some operand words, or it fetches all of
them and then has one of the effects of `Effect`. From this follow the frames of the flags (R28), of PC (R25) and of the
registers (R31, R74).
-/
namespace Sys2Proof.Machine

/-- R28, R200: what `FlagsAfterCtl()` can change from `v` to `t`. -/
structure FlagsAtMost (v t : State) : Prop where
  pc : t.pc = v.pc
  regs : t.regs = v.regs
  mem : t.mem = v.mem
  preserve : v.flagsAfterCtl = .preserve → t.flags = v.flags

/-- What instruction `i` does to the state `u` in which all its operand words have been fetched. -/
inductive Effect (i : Instr) (u : State) : State → Prop where
  | writeReg (r : RegId) (v : Word) : i.opcode ∈ flagWriters → destination i = some (.reg r) →
      Effect i u (u.writeReg r v)
  | writeCell (a v : Word) : i.opcode ∈ flagWriters → storeAddress u i = some a → Effect i u (u.writeCell a v)
  | setX (r : RegId) (v : Word) : destination i = some (.reg r) → Effect i u (u.setX r v)
  | store (a v : Word) : storeAddress u i = some a → Effect i u (u.store a v)
  | jump (a : Word) : i.opcode ∈ controlOpcodes → Effect i u (u.setPc a)
  | select (b : Bool) (a : Word) : i.opcode ∈ controlOpcodes → Effect i u (u.selectPc b a)
  | compare (b : Bool) (a : Word) {t : State} : i.opcode ∈ ctlFlagOpcodes → FlagsAtMost (u.selectPc b a) t →
      Effect i u t
  | push (a top v : Word) {t : State} : i.opcode = .call → storeAddress u i = some top →
      FlagsAtMost (((u.setX .stkTOP top).store top v).setPc a) t → Effect i u t
  | pop (top a : Word) {t : State} : i.opcode = .ret → FlagsAtMost ((u.setX .stkTOP top).setPc a) t → Effect i u t

/-- How instruction `i` takes `s` to `t`: it halts after `n` operand words, or it completes. -/
inductive ExecOutcome (i : Instr) (s t : State) : Prop where
  | halts (n : Nat) (r : Status) : HaltTaken s t n r → ExecOutcome i s t
  | completes (u : State) : s.PastOperands u i.operandWords.length → Effect i u t → ExecOutcome i s t

/-! ### The shared operations -/

section
variable {i : Instr} {s u : State} {n : Nat}

theorem fetchWord_outcome (h : s.PastOperands u n) {k : State → Result}
    (hk : ∀ u', s.PastOperands u' (n + 1) → Holds (k u') (ExecOutcome i s)) :
    Holds (fetchWord u k) (ExecOutcome i s) :=
  holds_fetchWord.2 ⟨fun _ => hk _ h.word, fun _ => .halts _ _ (h.haltTaken _)⟩

theorem fetchReg_outcome (h : s.PastOperands u n) {o : RegOperand} {k : RegId → State → Result}
    (hk : ∀ r u', o = .reg r → s.PastOperands u' (n + 1) → Holds (k r u') (ExecOutcome i s)) :
    Holds (fetchReg o u k) (ExecOutcome i s) :=
  holds_fetchReg.2 ⟨fun _ => ⟨fun r hr => hk r _ hr h.reg, fun _ _ => .halts _ _ (h.word.haltTaken _)⟩,
    fun _ => .halts _ _ (h.haltTaken _)⟩

theorem fetchAddr_outcome (h : s.PastOperands u n) {a : Word} {k : State → Result}
    (hk : ∀ u', s.PastOperands u' (n + 1) → Holds (k u') (ExecOutcome i s)) :
    Holds (fetchAddr a u k) (ExecOutcome i s) :=
  holds_fetchAddr.2 ⟨fun _ => ⟨fun _ => hk _ h.word, fun _ => .halts _ _ (h.word.haltTaken _)⟩,
    fun _ => .halts _ _ (h.haltTaken _)⟩

theorem fetchCell_outcome (h : s.PastOperands u n) {a : Word} {k : Word → State → Result}
    (hk : ∀ v u', s.PastOperands u' (n + 1) → Holds (k v u') (ExecOutcome i s)) :
    Holds (fetchCell a u k) (ExecOutcome i s) := fetchAddr_outcome h fun _ h' => hk _ _ h'

end

theorem flagsAfterCtl_flagsAtMost (v : State) : Holds (flagsAfterCtl v) (FlagsAtMost v) :=
  holds_flagsAfterCtl.2 ⟨fun _ => ⟨rfl, rfl, rfl, fun _ => rfl⟩,
    fun any => ⟨rfl, rfl, rfl, fun h => nomatch any.symm.trans h⟩⟩

/-- R196: a draw of the comparison bit changes nothing that `FlagsAtMost` speaks of. -/
theorem selectPc_flagsAtMost {s w : State} (hw : w = s ∨ w = s.countDraw) (b : Bool) (a : Word) :
    Holds (flagsAfterCtl (w.selectPc b a)) (FlagsAtMost (s.selectPc b a)) := by
  rcases hw with rfl | rfl
  · exact flagsAfterCtl_flagsAtMost _
  · exact (flagsAfterCtl_flagsAtMost _).mono fun _ h => ⟨h.pc, h.regs, h.mem, h.preserve⟩

theorem gtBit_holds {a b : Word} {s : State} {k : Bool → State → Result} {P : State → Prop}
    (hk : ∀ c w, (w = s ∨ w = s.countDraw) → Holds (k c w) P) : Holds (gtBit a b s k) P :=
  holds_gtBit.2 ⟨fun _ => hk _ _ (.inl rfl), fun _ => hk _ _ (.inr rfl)⟩

theorem lwBit_holds {a b : Word} {s : State} {k : Bool → State → Result} {P : State → Prop}
    (hk : ∀ c w, (w = s ∨ w = s.countDraw) → Holds (k c w) P) : Holds (lwBit a b s k) P :=
  holds_lwBit.2 ⟨fun _ => hk _ _ (.inl rfl), fun _ => hk _ _ (.inr rfl)⟩

/-! ### Every instruction -/

/-- Every instruction halts after some of its operand words, or fetches them all and has its effect. -/
theorem exec_outcome (i : Instr) (s : State) : Holds (exec i s) (ExecOutcome i s) := by
  have start := State.PastOperands.refl s
  cases i <;> unfold exec
  case addRegReg rA rB | subRegReg rA rB =>
    exact fetchReg_outcome start fun _ _ _ h => fetchReg_outcome h fun r _ e h =>
      holds_next.2 (.completes _ h (.writeReg r _ (of_decide_eq_true rfl) (congrArg some e)))
  case addMemReg a rA | subMemReg a rA =>
    exact fetchCell_outcome start fun _ _ h => fetchReg_outcome h fun r _ e h =>
      holds_next.2 (.completes _ h (.writeReg r _ (of_decide_eq_true rfl) (congrArg some e)))
  case addRegMem rA a | subRegMem rA a =>
    exact fetchReg_outcome start fun _ _ _ h => fetchCell_outcome h fun _ _ h =>
      holds_next.2 (.completes _ h (.writeCell a _ (of_decide_eq_true rfl) rfl))
  case moveMemReg a rA =>
    exact fetchCell_outcome start fun _ _ h => fetchReg_outcome h fun r _ e h =>
      holds_next.2 (.completes _ h (.setX r _ (congrArg some e)))
  case moveRegMem rA a =>
    exact fetchReg_outcome start fun _ _ _ h => fetchAddr_outcome h fun _ h =>
      holds_next.2 (.completes _ h (.store a _ rfl))
  case moveRegReg rA rB =>
    exact fetchReg_outcome start fun _ _ _ h => fetchReg_outcome h fun r _ e h =>
      holds_next.2 (.completes _ h (.setX r _ (congrArg some e)))
  case moveImmReg imm rA =>
    exact fetchWord_outcome start fun _ h => fetchReg_outcome h fun r _ e h =>
      holds_next.2 (.completes _ h (.setX r _ (congrArg some e)))
  case incReg rA =>
    exact fetchReg_outcome start fun r _ e h =>
      holds_next.2 (.completes _ h (.writeReg r _ (of_decide_eq_true rfl) (congrArg some e)))
  case incMem a =>
    exact fetchCell_outcome start fun _ _ h =>
      holds_next.2 (.completes _ h (.writeCell a _ (of_decide_eq_true rfl) rfl))
  case jmp a =>
    exact fetchWord_outcome start fun _ h => holds_next.2 (.completes _ h (.jump a (of_decide_eq_true rfl)))
  case jn a | jz a | jnz a =>
    exact fetchWord_outcome start fun _ h => holds_next.2 (.completes _ h (.select _ a (of_decide_eq_true rfl)))
  case jeq rA rB a =>
    exact fetchReg_outcome start fun _ _ _ h => fetchReg_outcome h fun _ _ _ h => fetchWord_outcome h fun _ h =>
      (flagsAfterCtl_flagsAtMost _).mono fun _ ht => .completes _ h (.compare _ a (of_decide_eq_true rfl) ht)
  case jgt rA rB a =>
    exact fetchReg_outcome start fun _ _ _ h => fetchReg_outcome h fun _ _ _ h => fetchWord_outcome h fun _ h =>
      gtBit_holds fun c _ hw => (selectPc_flagsAtMost hw c a).mono fun _ ht =>
        .completes _ h (.compare c a (of_decide_eq_true rfl) ht)
  case jlw rA rB a =>
    exact fetchReg_outcome start fun _ _ _ h => fetchReg_outcome h fun _ _ _ h => fetchWord_outcome h fun _ h =>
      lwBit_holds fun c _ hw => (selectPc_flagsAtMost hw c a).mono fun _ ht =>
        .completes _ h (.compare c a (of_decide_eq_true rfl) ht)
  case call a =>
    exact fetchWord_outcome start fun _ h => holds_pushWord.2
      ⟨fun _ => (flagsAfterCtl_flagsAtMost _).mono fun _ ht => .completes _ h (.push a _ _ rfl rfl ht),
        fun _ => .halts _ _ (h.haltTaken _)⟩
  case ret =>
    exact holds_popWord.2
      ⟨fun _ => (flagsAfterCtl_flagsAtMost _).mono fun _ ht => .completes _ start (.pop _ _ rfl ht),
        fun _ => .halts _ _ (start.haltTaken _)⟩

/-! ### The frames -/

section
variable {i : Instr} {u t : State}

theorem mem_controlOpcodes_of_ctlFlag : ∀ o ∈ ctlFlagOpcodes, o ∈ controlOpcodes := by decide

theorem Effect.flags_eq (h : Effect i u t) (hw : i.opcode ∉ flagWriters)
    (hp : i.opcode ∈ ctlFlagOpcodes → u.flagsAfterCtl = .preserve) : t.flags = u.flags := by
  cases h with
  | writeReg r v writes dest => exact absurd writes hw
  | writeCell a v writes addr => exact absurd writes hw
  | setX r v dest => rfl
  | store a v addr => rfl
  | jump a ctl => rfl
  | select b a ctl => rfl
  | compare b a ctl ht => exact ht.preserve (hp ctl)
  | push a top v call addr ht => exact ht.preserve (hp (by rw [call]; decide))
  | pop top a ret ht => exact ht.preserve (hp (by rw [ret]; decide))

theorem Effect.pc_eq (h : Effect i u t) (hc : i.opcode ∉ controlOpcodes) : t.pc = u.pc := by
  cases h with
  | writeReg r v writes dest => rfl
  | writeCell a v writes addr => rfl
  | setX r v dest => rfl
  | store a v addr => rfl
  | jump a ctl => exact absurd ctl hc
  | select b a ctl => exact absurd ctl hc
  | compare b a ctl ht => exact absurd (mem_controlOpcodes_of_ctlFlag _ ctl) hc
  | push a top v call addr ht => exact absurd (by rw [call]; decide) hc
  | pop top a ret ht => exact absurd (by rw [ret]; decide) hc

theorem FlagsAtMost.x_eq {v t : State} (h : FlagsAtMost v t) (r : RegId) : t.x r = v.x r :=
  congrArg (Regs.get · r) h.regs

theorem Effect.x_eq (h : Effect i u t) {r : RegId} (hd : destination i ≠ some (.reg r))
    (hs : r = .stkTOP → i.opcode ≠ .call ∧ i.opcode ≠ .ret) : t.x r = u.x r := by
  have other {q : RegId} (dest : destination i = some (.reg q)) : r ≠ q := fun e => hd (by rw [dest, e])
  cases h with
  | writeReg q v writes dest => rw [State.x_writeReg, if_neg (other dest)]
  | writeCell a v writes addr => rfl
  | setX q v dest => rw [State.x_setX, if_neg (other dest)]
  | store a v addr => rfl
  | jump a ctl => rfl
  | select b a ctl => rfl
  | compare b a ctl ht => exact ht.x_eq r
  | push a top v call addr ht =>
    rw [ht.x_eq, State.x_setPc, State.x_store, State.x_setX, if_neg fun e => (hs e).1 call]
  | pop top a ret ht => rw [ht.x_eq, State.x_setPc, State.x_setX, if_neg fun e => (hs e).2 ret]

end

/-- Settles O36: the operand fetches and a halt write no flag, and of the effects only the results of the flag writers
and `FlagsAfterCtl()` do. -/
theorem onlyFlagWritersChangeTheFlags : Obligations.OnlyFlagWritersChangeTheFlags := by
  unfold Obligations.OnlyFlagWritersChangeTheFlags
  intro s t i h hw hp
  cases (exec_outcome i s).of_eq h with
  | halts n r ht => exact ht.flags
  | completes u hu he =>
    obtain ⟨d, rfl⟩ := hu
    exact he.flags_eq hw hp

/-- Settles O37: the operand fetches leave PC at the fall-through address, and no other effect moves it. -/
theorem otherInstructionsFallThrough : Obligations.OtherInstructionsFallThrough := by
  unfold Obligations.OtherInstructionsFallThrough
  intro s t i h _ running hc
  cases (exec_outcome i s).of_eq h with
  | halts n r ht => exact absurd ht.fsm running
  | completes u hu he =>
    obtain ⟨d, rfl⟩ := hu
    exact he.pc_eq hc

/-- Settles O38: the operand fetches and a halt write no register, and each effect that writes one writes the named
destination, but for the push and the pop. -/
theorem registersChangeOnlyAsNamed : Obligations.RegistersChangeOnlyAsNamed := by
  unfold Obligations.RegistersChangeOnlyAsNamed
  intro s t i r h hd hs
  cases (exec_outcome i s).of_eq h with
  | halts n reason ht => exact ht.registers r
  | completes u hu he =>
    obtain ⟨d, rfl⟩ := hu
    exact he.x_eq hd hs

end Sys2Proof.Machine
end

section
/-!
PROOFS. The flags of a result, and both flags over a step (R27); the reset state (R45).
-/
namespace Sys2Proof.Machine

theorem toInt_eq_zero_iff (v : Word) : v.toInt = 0 ↔ v = 0 := toInt_inj (b := 0)

/-- Settles O18: the two flags compare one signed value with 0, and it is not both 0 and negative. -/
theorem setFlagsOfEveryWord : Obligations.SetFlagsOfEveryWord := by
  unfold Obligations.SetFlagsOfEveryWord
  intro s v
  rw [State.flags_setFlags]
  exact ⟨by simp [toInt_eq_zero_iff], by simp, flagsOf_not_both v⟩

/-- Settles O42: the reset state is at FETCH and running, and its memory is the empty canonical list. -/
theorem resetMeetsInvariant : Obligations.ResetMeetsInvariant where
  size_ok := by decide
  mem_wf := State.reset_mem_wf
  between_steps := by decide
  status_running_iff := by decide

/-! ### Both flags -/

/-- R27, R28: the flags are not both 1, and no draw is going to write them. -/
structure State.OneFlagAtMost (s : State) : Prop where
  preserve : s.flagsAfterCtl = .preserve
  not_both : ¬(s.flags.z = true ∧ s.flags.n = true)

/-- R28: under `preserve` only a result sets the flags, and no result sets both. -/
theorem State.oneFlagAtMost_closed : Closed State.OneFlagAtMost where
  setPc _ _ h := ⟨h.preserve, h.not_both⟩
  setDemux _ _ h := ⟨h.preserve, h.not_both⟩
  setX _ _ _ h := ⟨h.preserve, h.not_both⟩
  store _ _ _ h _ := ⟨h.preserve, h.not_both⟩
  setFlags _ v h := ⟨h.preserve, flagsOf_not_both v⟩
  ctlFlags _ _ h any := nomatch h.preserve.symm.trans any
  selectPc _ _ _ h := ⟨h.preserve, h.not_both⟩
  countDraw _ h := ⟨h.preserve, h.not_both⟩

theorem State.oneFlagAtMost_ends : Ends State.OneFlagAtMost fun u => u.settle.OneFlagAtMost where
  done _ h := ⟨h.preserve, h.not_both⟩
  halt _ _ h _ := ⟨h.preserve, h.not_both⟩

/-- Settles O43: the opcode fetch and the end of the instruction keep the flags, and so does every elementary update but
`SetFlags`. -/
theorem stepNeverSetsBothFlags : Obligations.StepNeverSetsBothFlags := by
  unfold Obligations.StepNeverSetsBothFlags
  intro s t preserve not_both h
  exact (step_closed State.oneFlagAtMost_closed State.oneFlagAtMost_ends ⟨preserve, not_both⟩
    ⟨preserve, not_both⟩ h).not_both

end Sys2Proof.Machine
end

section
/-!
PROOFS. Data memory at the instruction level: an address outside memory halts as soon as its word is fetched (R52, R138),
and a cell changes only where the instruction stores (R53).
-/
namespace Sys2Proof.Machine

/-! ### A data address outside memory -/

/-- R138: the operand words up to the address have been fetched, and nothing after it is. -/
theorem fetchAddr_dataRange {s u : State} {n : Nat} (past : s.PastOperands u n) {a : Word} (h : u.mem.InRange u.pc)
    (ha : ¬ u.mem.InRange a) (k : State → Result) :
    ∃ t, fetchAddr a u k = .next t ∧ HaltTaken s t (n + 1) .haltDataRange :=
  ⟨_, fetchAddr_data h ha, past.word.haltTaken _⟩

theorem fetchCell_dataRange {s u : State} {n : Nat} (past : s.PastOperands u n) {a : Word} (h : u.mem.InRange u.pc)
    (ha : ¬ u.mem.InRange a) (k : Word → State → Result) :
    ∃ t, fetchCell a u k = .next t ∧ HaltTaken s t (n + 1) .haltDataRange :=
  fetchAddr_dataRange past h ha _

/-- Settles O34: the address is the first operand or comes after a legal register, and its own check halts. -/
theorem dataAddressOutOfRangeHalts : Obligations.DataAddressOutOfRangeHalts := by
  unfold Obligations.DataAddressOutOfRangeHalts
  intro s a o r ha
  refine ⟨fun operands => ?_, fun operands => ?_⟩
  · simp only [List.forall_mem_cons, exec, execAddMemReg, execSubMemReg, execMoveMemReg, execIncMem]
    have halts := fetchCell_dataRange (.refl s) operands.inRange ha
    exact ⟨halts _, halts _, halts _, halts _, List.forall_mem_nil _⟩
  · simp only [List.forall_mem_cons, exec, execAddRegMem, execSubRegMem, execMoveRegMem,
      fetchReg_of_inRange operands.inRange]
    have past := (State.PastOperands.refl s).reg (w := r.word)
    have halts := fetchCell_dataRange past operands.tail.inRange ha
    exact ⟨halts _, halts _, fetchAddr_dataRange past operands.tail.inRange ha _, List.forall_mem_nil _⟩

/-! ### Where an instruction stores -/

/-- R53: the cell that an instruction stores to is named by its operands and StkTOP, which no operand fetch changes. -/
theorem State.PastOperands.storeAddress_eq {s u : State} {n : Nat} (h : s.PastOperands u n) (i : Instr) :
    storeAddress u i = storeAddress s i := by
  obtain ⟨d, rfl⟩ := h
  cases i <;> rfl

theorem Effect.read_eq {i : Instr} {u t : State} (h : Effect i u t) (wf : u.mem.wf) {b : Word}
    (hb : storeAddress u i ≠ some b) : t.mem.read b = u.mem.read b := by
  have other {a : Word} (addr : storeAddress u i = some a) (v : Word) : (u.mem.write a v).read b = u.mem.read b :=
    Memory.read_write_ne v wf fun e => hb (by rw [addr, e])
  cases h with
  | writeReg r v writes dest => rfl
  | writeCell a v writes addr => exact other addr v
  | setX r v dest => rfl
  | store a v addr => exact other addr v
  | jump a ctl => rfl
  | select b a ctl => rfl
  | compare b a ctl ht => rw [ht.mem, State.mem_selectPc]
  | push a top v call addr ht =>
    rw [ht.mem]
    exact other addr v
  | pop top a ret ht => rw [ht.mem, State.mem_setPc, State.mem_setX]

/-- Settles O39: the operand fetches and a halt store nothing, and each effect that stores does so at the named cell. -/
theorem memoryChangesOnlyWhereStored : Obligations.MemoryChangesOnlyWhereStored := by
  unfold Obligations.MemoryChangesOnlyWhereStored
  intro s t i b wf h hb
  cases (exec_outcome i s).of_eq h with
  | halts n r ht => exact ht.memory b
  | completes u hu he =>
    rw [← hu.storeAddress_eq] at hb
    obtain ⟨d, rfl⟩ := hu
    exact he.read_eq wf hb

end Sys2Proof.Machine
end

section
/-!
PROOFS. A step of an instruction that stores never fetches the word that it stores (R65, R272). The words are decoded from
the memory before the step, and the one store is the last thing that touches memory, so the memory after the step is the
memory before it with one word written.
-/
namespace Sys2Proof.Machine

/-! ### The step of a decoded instruction -/

/-- R133, R135: the step of an instruction whose words stand at PC. -/
theorem step_of_decode {s : State} {i : Instr} (hf : s.fsm = .fetch) (hpc : s.mem.InRange s.pc)
    (hd : decode (s.mem.readMany s.pc maxWords) = .ok i) : step s = settleResult (exec i s.fetched) := by
  rw [step_of_fetch hf, runInstr_of_inRange hpc, decodeExecute, State.instrWords_fetched, hd]

/-- R74, R77: an opcode word is dispatched to its operands. -/
theorem decode_opcodeWord (o : Opcode) (ws : List Word) : decode (o.word :: ws) = decodeOperands o ws := by
  rw [decode, if_neg (Opcode.word_ne_sentinel o), Opcode.ofWord_word]

theorem Memory.readMany_maxWords (m : Memory) (a : Word) :
    m.readMany a maxWords = [m.read a, m.read (a + 1), m.read (a + 2), m.read (a + 3)] := by
  simp only [maxWords, Memory.readMany, BitVec.add_assoc]
  rfl

/-- R70, R139: the operands of the opcode at PC are decoded from the words that follow it. -/
theorem State.decode_words {s : State} {o : Opcode} (hop : s.mem.read s.pc = o.word) :
    decode (s.mem.readMany s.pc maxWords) =
      decodeOperands o [s.mem.read (s.pc + 1), s.mem.read (s.pc + 2), s.mem.read (s.pc + 3)] := by
  rw [Memory.readMany_maxWords, hop, decode_opcodeWord]

/-! ### The one store -/

/-- R53: an instruction has left PC at `target`, and the memory is that of `s` with the word `v` stored at `a`. -/
structure State.Stored (s : State) (target a v : Word) (u : State) : Prop where
  executing : u.fsm = .decodeExecute
  pc : u.pc = target
  mem : u.mem = s.mem.write a v

/-- R65: the step from `s` goes on at `target`, stores `v` at `a`, and changes no other cell. -/
def State.StepStores (s : State) (target a v : Word) : Prop :=
  ∃ t, step s = .next t ∧ t.fsm = .fetch ∧ t.pc = target ∧ t.mem.read a = v ∧
    ∀ b, b ≠ a → t.mem.read b = s.mem.read b

theorem State.stepStores_of_exec {s : State} {i : Instr} {target a v : Word} (hf : s.fsm = .fetch) (wf : s.mem.wf)
    (hpc : s.mem.InRange s.pc) (hd : decode (s.mem.readMany s.pc maxWords) = .ok i)
    (h : Holds (exec i s.fetched) (s.Stored target a v)) : s.StepStores target a v := by
  obtain ⟨u, hu, executing, pc, mem⟩ := h
  refine ⟨u.settle, ?_, State.fsm_settle_of_not_halted (by simp [executing]), pc, ?_, fun b hb => ?_⟩
  · rw [step_of_decode hf hpc hd, settleResult_of_next hu]
  · rw [State.mem_settle, mem, Memory.read_write_same a v wf]
  · rw [State.mem_settle, mem, Memory.read_write_ne v wf hb]

section
variable {s : State} {r : RegId} {a : Word}

/-- R138: a legal register and an address in memory are fetched, and the instruction goes on past both words. -/
theorem holds_fetchReg_fetchAddr {P : State → Prop} {k : RegId → State → Result} (operands : s.OperandsInMemory 2)
    (ha : s.mem.InRange a) (hk : Holds (k r (((s.setPc (s.pc + 1)).setDemux r.word).setPc (s.pc + 1 + 1))) P) :
    Holds (fetchReg (.reg r) s fun q u => fetchAddr a u (k q)) P := by
  have here : ((s.setPc (s.pc + 1)).setDemux r.word).mem.InRange (s.pc + 1) := operands.tail.inRange
  rw [fetchReg_of_inRange operands.inRange, fetchAddr_of_inRange here ha]
  exact hk

/-! The five instructions that store, where all their words and the cell they store to are in memory. -/

theorem exec_addRegMem_stored (operands : s.fetched.OperandsInMemory 2) (ha : s.mem.InRange a) :
    Holds (exec (.addRegMem (.reg r) a) s.fetched) (s.Stored (s.pc + 3) a (addWrap (s.x r) (s.mem.read a))) := by
  unfold exec execAddRegMem fetchCell
  exact holds_fetchReg_fetchAddr operands ha (holds_next.2 ⟨rfl, by simp [BitVec.add_assoc], rfl⟩)

theorem exec_subRegMem_stored (operands : s.fetched.OperandsInMemory 2) (ha : s.mem.InRange a) :
    Holds (exec (.subRegMem (.reg r) a) s.fetched) (s.Stored (s.pc + 3) a (subWrap (s.x r) (s.mem.read a))) := by
  unfold exec execSubRegMem fetchCell
  exact holds_fetchReg_fetchAddr operands ha (holds_next.2 ⟨rfl, by simp [BitVec.add_assoc], rfl⟩)

theorem exec_moveRegMem_stored (operands : s.fetched.OperandsInMemory 2) (ha : s.mem.InRange a) :
    Holds (exec (.moveRegMem (.reg r) a) s.fetched) (s.Stored (s.pc + 3) a (s.x r)) := by
  unfold exec execMoveRegMem
  exact holds_fetchReg_fetchAddr operands ha (holds_next.2 ⟨rfl, by simp [BitVec.add_assoc], rfl⟩)

theorem exec_incMem_stored (operands : s.fetched.OperandsInMemory 1) (ha : s.mem.InRange a) :
    Holds (exec (.incMem a) s.fetched) (s.Stored (s.pc + 2) a (incWrap (s.mem.read a))) := by
  rw [exec, execIncMem, fetchCell_of_inRange operands.inRange ha, holds_next]
  exact ⟨rfl, by simp [BitVec.add_assoc], rfl⟩

/-- R212: the draw of the flags after the push touches neither PC nor memory. -/
theorem exec_call_stored (operands : s.fetched.OperandsInMemory 1) (push : s.PushAllowed) :
    Holds (exec (.call a) s.fetched) (s.Stored a (wrap ((s.x .stkTOP).toInt - 1)) (s.pc + 2)) := by
  have ret : s.pc + 1 + 1 = s.pc + 2 := by rw [BitVec.add_assoc]; rfl
  rw [exec, execCall, fetchWord_of_inRange operands.inRange, holds_pushWord, ← ret]
  exact ⟨fun _ => holds_flagsAfterCtl.2 ⟨fun _ => ⟨rfl, rfl, rfl⟩, fun _ => ⟨rfl, rfl, rfl⟩⟩, fun h => absurd push h⟩

end

/-- Settles O45: each of the five is decoded from the words before the step, and its one store makes the memory after
it. -/
theorem storingInstructionsNeverSeeTheirOwnStore : Obligations.StoringInstructionsNeverSeeTheirOwnStore := by
  unfold Obligations.StoringInstructionsNeverSeeTheirOwnStore
  intro s r a hf wf size_ok h0
  refine ⟨fun last ha hreg haddr => ?regMem, fun last ha hop haddr => ?incMem, fun last push hop htarget => ?call⟩
  case regMem =>
    have operands : s.OperandsInMemory 3 := ⟨h0, by omega, size_ok.2⟩
    have stores {i : Instr} {o : Opcode} {v : Word} (hi : decodeOperands o [r.word, a, s.mem.read (s.pc + 3)] = .ok i)
        (h : Holds (exec i s.fetched) (s.Stored (s.pc + 3) a v)) (hop : s.mem.read s.pc = o.word) :=
      State.stepStores_of_exec hf wf operands.inRange (by rw [State.decode_words hop, hreg, haddr, hi]) h
    simp only [List.forall_mem_cons]
    exact ⟨stores (o := .addRegMem) (by simp [decodeOperands, takeTwo]) (exec_addRegMem_stored operands.tail ha),
      stores (o := .subRegMem) (by simp [decodeOperands, takeTwo]) (exec_subRegMem_stored operands.tail ha),
      stores (o := .moveRegMem) (by simp [decodeOperands, takeTwo]) (exec_moveRegMem_stored operands.tail ha),
      List.forall_mem_nil _⟩
  case incMem =>
    have operands : s.OperandsInMemory 2 := ⟨h0, by omega, size_ok.2⟩
    exact State.stepStores_of_exec hf wf operands.inRange
      (by rw [State.decode_words (o := .incMem) hop, haddr]; rfl) (exec_incMem_stored operands.tail ha)
  case call =>
    have operands : s.OperandsInMemory 2 := ⟨h0, by omega, size_ok.2⟩
    exact State.stepStores_of_exec hf wf operands.inRange
      (by rw [State.decode_words (o := .call) hop, htarget]; rfl) (exec_call_stored operands.tail push)

end Sys2Proof.Machine
end

section
/-!
PROOFS. The two-call memory protocol (R55, R56, R124): from every state inside an instruction, the pair of calls is the one
access that it stands for.
-/
namespace Sys2Proof.Machine

section
variable {s : State} {reason : Status}

theorem runMicro_memReadSeq (hf : s.fsm = .decodeExecute) :
    runMicro (memReadSeq reason) s = some (afterReadPair reason s.latchesAtAddr) := by
  rw [runMicro_of_wellPaired rfl, runMicroOps_memReadSeq reason (by exact hf) rfl]

theorem runMicro_memWriteSeq (hf : s.fsm = .decodeExecute) (a v : Word) :
    runMicro (memWriteSeq reason a v) s = some (afterWritePair reason a v s.latchesAtAddr) := by
  rw [runMicro_of_wellPaired rfl, runMicroOps_memWriteSeq reason a v (by exact hf) rfl]

end

/-- R38: a new datapath leaves every architectural component as it was. -/
theorem State.sameArch_datapath (s : State) (d : Datapath) : s.SameArch { s with dp := d } :=
  ⟨⟨rfl, rfl, rfl, rfl, rfl, rfl, rfl, rfl⟩, rfl, rfl⟩

/-- R231: a halt after updates of the datapath alone. -/
theorem State.haltTaken_datapath (s : State) (d : Datapath) (r : Status) :
    HaltTaken s ({ s with dp := d }.halt r) 0 r :=
  State.PastOperands.haltTaken ⟨d, by simp⟩ r

/-- Settles O50: the calls touch nothing but the datapath before the access, which is made or halts by the range of its
address. -/
theorem twoCallProtocolCollapses : Obligations.TwoCallProtocolCollapses := by
  unfold Obligations.TwoCallProtocolCollapses
  intro s reason a v hf
  rw [runMicro_memReadSeq hf, runMicro_memWriteSeq hf]
  refine ⟨fun h => ⟨_, rfl, ?_⟩, fun h => ⟨_, rfl, ?_⟩, fun h => ⟨_, rfl, ?_⟩, fun h => ⟨_, rfl, ?_⟩⟩
  · rw [afterReadPair, if_pos (by exact h)]
    exact ⟨rfl, s.sameArch_datapath _, rfl⟩
  · rw [afterReadPair, if_neg (by exact h)]
    exact s.haltTaken_datapath _ reason
  · rw [afterWritePair, if_pos (by exact h)]
    exact ⟨(s.store a v).sameArch_datapath _, rfl⟩
  · rw [afterWritePair, if_neg (by exact h)]
    exact s.haltTaken_datapath _ reason

end Sys2Proof.Machine
end

section
/-!
PROOFS. Decoding and encoding (R70 to R78): an opcode reads the operand words of its instruction back, and the words that
it reads are those of the instruction that it makes of them.
-/
namespace Sys2Proof.Machine

/-! ### From the instruction to its words and back -/

theorem decode_encode_append (i : Instr) (rest : List Word) :
    decode (encode i ++ rest) = decodeOperands i.opcode (i.operandWords ++ rest) :=
  decode_opcodeWord i.opcode _

theorem wellFormed_iff {i : Instr} : WellFormed i ↔ ∀ o ∈ i.regOperands, o.legal = true := List.all_eq_true

/-- R72, R73, R78: operand words are read in signature order, and a legal reg operand is what its word selects. -/
theorem decodeOperands_operandWords {i : Instr} (h : WellFormed i) (rest : List Word) :
    decodeOperands i.opcode (i.operandWords ++ rest) = .ok i := by
  have back : ∀ o ∈ i.regOperands, RegOperand.ofWord o.word = o := fun o ho =>
    RegOperand.ofWord_word (wellFormed_iff.1 h o ho)
  cases i with
  | addRegReg rA rB | subRegReg rA rB | moveRegReg rA rB =>
    have hA := back rA (by simp [Instr.regOperands])
    have hB := back rB (by simp [Instr.regOperands])
    simp [Instr.opcode, Instr.operandWords, decodeOperands, takeTwo, hA, hB]
  | addMemReg _ rA | subMemReg _ rA | moveMemReg _ rA | moveImmReg _ rA | addRegMem rA _ | subRegMem rA _
  | moveRegMem rA _ =>
    have hA := back rA (by simp [Instr.regOperands])
    simp [Instr.opcode, Instr.operandWords, decodeOperands, takeTwo, hA]
  | incReg rA =>
    have hA := back rA (by simp [Instr.regOperands])
    simp [Instr.opcode, Instr.operandWords, decodeOperands, takeOne, hA]
  | incMem | jmp | jn | jz | jnz | call | ret => rfl
  | jeq rA rB _ | jgt rA rB _ | jlw rA rB _ =>
    have hA := back rA (by simp [Instr.regOperands])
    have hB := back rB (by simp [Instr.regOperands])
    simp [Instr.opcode, Instr.operandWords, decodeOperands, takeThree, hA, hB]

/-- Settles O2: the opcode word dispatches to the operands, which are read back. -/
theorem decodeReadsBackEveryEncodedInstruction : Obligations.DecodeReadsBackEveryEncodedInstruction := by
  unfold Obligations.DecodeReadsBackEveryEncodedInstruction
  intro i rest h
  rw [decode_encode_append, decodeOperands_operandWords h]

/-- Settles O1: the decoder is run on each of the ten lists of words. -/
theorem specWordsDecodeAsTheTableSays : Obligations.SpecWordsDecodeAsTheTableSays := by
  unfold Obligations.SpecWordsDecodeAsTheTableSays
  decide

/-! ### From the words to the instruction and back -/

section
variable {ws : List Word} {i : Instr}

theorem takeOne_ok {mk : Word → Instr} (h : takeOne mk ws = .ok i) : ∃ a rest, ws = a :: rest ∧ i = mk a := by
  unfold takeOne at h
  split at h
  · next a rest =>
    cases h
    exact ⟨a, rest, rfl, rfl⟩
  · cases h

theorem takeTwo_ok {mk : Word → Word → Instr} (h : takeTwo mk ws = .ok i) :
    ∃ a b rest, ws = a :: b :: rest ∧ i = mk a b := by
  unfold takeTwo at h
  split at h
  · next a b rest =>
    cases h
    exact ⟨a, b, rest, rfl, rfl⟩
  · cases h
  · cases h

theorem takeThree_ok {mk : Word → Word → Word → Instr} (h : takeThree mk ws = .ok i) :
    ∃ a b c rest, ws = a :: b :: c :: rest ∧ i = mk a b c := by
  unfold takeThree at h
  split at h
  · next a b c rest =>
    cases h
    exact ⟨a, b, c, rest, rfl, rfl⟩
  · cases h
  · cases h
  · cases h

/-- R77: words that decode start with an opcode word, and the words after it are read by that opcode. -/
theorem decode_ok (h : decode ws = .ok i) :
    ∃ o operands, ws = o.word :: operands ∧ decodeOperands o operands = .ok i := by
  unfold decode at h
  split at h
  · cases h
  · next op operands =>
    split at h
    · cases h
    · split at h
      · next o ho => exact ⟨o, operands, by rw [Opcode.word_of_ofWord ho], h⟩
      · cases h

/-- R72, R73: the words that an opcode reads are the operand words of an instruction with that opcode. -/
theorem decodeOperands_ok {o : Opcode} (h : decodeOperands o ws = .ok i) :
    i.opcode = o ∧ ∃ rest, ws = i.operandWords ++ rest := by
  cases o with
  | addRegReg | addMemReg | addRegMem | subRegReg | subMemReg | subRegMem | moveMemReg | moveRegMem | moveRegReg
  | moveImmReg =>
    obtain ⟨a, b, rest, rfl, rfl⟩ := takeTwo_ok h
    exact ⟨rfl, rest, by simp [Instr.operandWords]⟩
  | incReg | incMem | jmp | jn | jz | jnz | call =>
    obtain ⟨a, rest, rfl, rfl⟩ := takeOne_ok h
    exact ⟨rfl, rest, by simp [Instr.operandWords]⟩
  | jeq | jgt | jlw =>
    obtain ⟨a, b, c, rest, rfl, rfl⟩ := takeThree_ok h
    exact ⟨rfl, rest, by simp [Instr.operandWords]⟩
  | ret =>
    cases h
    exact ⟨rfl, ws, rfl⟩

end

/-- Settles O3: the opcode word is that of the instruction, and so are the operand words. -/
theorem decodedWordsAreTheEncoding : Obligations.DecodedWordsAreTheEncoding := by
  unfold Obligations.DecodedWordsAreTheEncoding
  intro ws i h
  obtain ⟨o, operands, rfl, ho⟩ := decode_ok h
  obtain ⟨rfl, rest, rfl⟩ := decodeOperands_ok ho
  exact ⟨rest, rfl⟩

end Sys2Proof.Machine
end

section
/-!
PROOFS. A register word that selects no register (R78, R132): the instruction halts when it fetches that operand, with
nothing done but the operand fetches.
-/
namespace Sys2Proof.Machine

/-- R132: `n` operand words have been fetched before the illegal one. -/
theorem fetchReg_illegal_halts {s u : State} {n : Nat} (past : s.PastOperands u n) (h : u.mem.InRange u.pc) (w : Word)
    (k : RegId → State → Result) :
    ∃ t, fetchReg (.illegal w) u k = .next t ∧ HaltTaken s t (n + 1) .faultBadRegister :=
  ⟨_, fetchReg_illegal h, past.word.haltTaken _⟩

/-- Settles O32: each of the ten starts with the fetch of that operand. -/
theorem firstRegisterIllegalHalts : Obligations.FirstRegisterIllegalHalts := by
  unfold Obligations.FirstRegisterIllegalHalts
  intro s w a o here
  have halts := fetchReg_illegal_halts (.refl s) here w
  simp only [List.forall_mem_cons, exec, execAddRegReg, execAddRegMem, execSubRegReg, execSubRegMem, execMoveRegMem,
    execMoveRegReg, execIncReg, execJeq, execJgt, execJlw]
  exact ⟨halts _, halts _, halts _, halts _, halts _, halts _, halts _, halts _, halts _, halts _,
    List.forall_mem_nil _⟩

/-- Settles O33: the first operand, a register, an immediate or a cell in memory, is fetched, and the fetch of the
second halts. -/
theorem secondRegisterIllegalHalts : Obligations.SecondRegisterIllegalHalts := by
  unfold Obligations.SecondRegisterIllegalHalts
  intro s w a imm r operands
  have here := operands.inRange
  have afterReg := fetchReg_illegal_halts ((State.PastOperands.refl s).reg (w := r.word)) operands.tail.inRange w
  have afterWord := fetchReg_illegal_halts (State.PastOperands.refl s).word operands.tail.inRange w
  simp only [List.forall_mem_cons, exec, execAddRegReg, execSubRegReg, execMoveRegReg, execMoveImmReg, execJeq, execJgt,
    execJlw, execAddMemReg, execSubMemReg, execMoveMemReg, fetchReg_of_inRange here, fetchWord_of_inRange here]
  refine ⟨⟨afterReg _, afterReg _, afterReg _, afterWord _, afterReg _, afterReg _, afterReg _, List.forall_mem_nil _⟩,
    fun ha => ?_⟩
  simp only [fetchCell_of_inRange here ha]
  exact ⟨afterWord _, afterWord _, afterWord _, List.forall_mem_nil _⟩

end Sys2Proof.Machine
end

section
/-!
PROOFS. Linking (R98, R99, R110 to R112): the word of a token, the addresses of variables and labels in a program without
clashing names, and the shape of the image.
-/
namespace Sys2Proof.Machine

/-! ### Clashing names -/

/-- R112: no variable and no label is declared twice, and no name is both. -/
structure Object.NoClash (ob : Object) : Prop where
  vars_nodup : ob.vars.Nodup
  labels_nodup : (ob.labels.map Prod.fst).Nodup
  disjoint : ∀ v ∈ ob.vars, v ∉ ob.labels.map Prod.fst

theorem Object.noClash_of_clashingName {ob : Object} (h : clashingName ob = none) : ob.NoClash := by
  obtain ⟨hv, hl, hboth⟩ := clashingName_none h
  exact ⟨firstRepeated_none hv, firstRepeated_none hl, by simpa using List.find?_eq_none.1 hboth⟩

/-- R112, R113: an assembled object program has no clashing names, and linking it gave the image. -/
theorem link_of_assemble {lines : List Text} {n : Nat} {image : List Int} {ob : Object}
    (h : assemble lines n = .ok image) (hp : parse lines = .ok ob) : ob.NoClash ∧ link n ob = .ok image := by
  obtain ⟨ob', hp', hl⟩ := assemble_ok h
  cases hp.symm.trans hp'
  exact ⟨Object.noClash_of_clashingName (link_ok hl).1, hl⟩

/-- Settles O56: the link looks for each of the three clashes before anything else. -/
theorem clashingNamesNeverLink : Obligations.ClashingNamesNeverLink := by
  unfold Obligations.ClashingNamesNeverLink
  intro lines n image ob h hp
  obtain ⟨clash, -⟩ := link_of_assemble h hp
  exact ⟨clash.vars_nodup, clash.labels_nodup, clash.disjoint⟩

/-! ### The addresses of names -/

section
variable {ob : Object}

theorem addressOf_of_indexOf {n i : Nat} {name : Text} (h : indexOf name ob.vars = some i) :
    addressOf n ob name = some ((n : Int) - 1 - i) := by
  unfold addressOf
  rw [h]

/-- R98: variable `i` is found at its own index, since no variable stands before it under the same name. -/
theorem Object.NoClash.addressOf_var (clash : ob.NoClash) {n i : Nat} {name : Text} (h : ob.vars[i]? = some name) :
    addressOf n ob name = some ((n : Int) - 1 - i) :=
  addressOf_of_indexOf (indexOf_of_getElem? clash.vars_nodup h)

/-- R99: a label is no variable, and it has one offset. -/
theorem Object.NoClash.addressOf_label (clash : ob.NoClash) {n k : Nat} {name : Text} (h : (name, k) ∈ ob.labels) :
    addressOf n ob name = some ((k : Int) + 6) := by
  have not_var : name ∉ ob.vars := fun hv => clash.disjoint name hv (List.mem_map_of_mem h)
  unfold addressOf
  rw [indexOf_eq_none.2 not_var, labelOffset_of_mem clash.labels_nodup h]
  rfl

end

/-- Settles O54: the address of a variable gives back its index, so two names with one address are one name. -/
theorem variableAddresses : Obligations.VariableAddresses := by
  unfold Obligations.VariableAddresses
  intro lines n image ob h hp
  obtain ⟨clash, -⟩ := link_of_assemble h hp
  refine ⟨fun i name hi => clash.addressOf_var hi, fun a ha b hb hab e => hab ?_⟩
  obtain ⟨i, hi⟩ := List.mem_iff_getElem?.1 ha
  obtain ⟨j, hj⟩ := List.mem_iff_getElem?.1 hb
  rw [clash.addressOf_var hi, clash.addressOf_var hj, Option.some.injEq] at e
  have same : i = j := by omega
  rw [same, hj] at hi
  exact (Option.some.inj hi).symm

/-- Settles O55: where no name clashes, the table has one offset for the label and no variable hides it. -/
theorem labelAddresses : Obligations.LabelAddresses := by
  unfold Obligations.LabelAddresses
  intro lines n image ob h hp name k hk
  exact (link_of_assemble h hp).1.addressOf_label hk

/-! ### The words of the object program -/

section
variable {n : Nat} {ob : Object}

/-- R111: the word of a name's address. -/
theorem resolve_address {name : Text} {v : Int} (h : resolve n ob (.address name) = .ok v) :
    addressOf n ob name = some v := by
  simp only [resolve] at h
  split at h
  · next a ha =>
    cases h
    exact ha
  · cases h

/-- R96, R111: the word of a register name. -/
theorem resolve_registerName {name : Text} {v : Int} (h : resolve n ob (.register name) = .ok v) :
    ∃ r, regNamed name = some r ∧ v = r.word.toInt := by
  simp only [resolve] at h
  split at h
  · next r hr =>
    cases h
    exact ⟨r, hr, rfl⟩
  · cases h

/-- R111: each token is resolved to the word at its own place. -/
theorem resolveAll_getElem? {ts : List Token} {vs : List Int} (h : resolveAll n ob ts = .ok vs) {k : Nat} {t : Token}
    (ht : ts[k]? = some t) : ∃ v, vs[k]? = some v ∧ resolve n ob t = .ok v := by
  induction ts generalizing vs k with
  | nil => simp at ht
  | cons t' ts ih =>
    obtain ⟨v, ws, hv, hws, rfl⟩ := resolveAll_cons.1 h
    cases k with
    | zero =>
      cases ht
      exact ⟨v, rfl, hv⟩
    | succ k => exact ih hws ht

end

/-- Settles O53: the link puts the prologue and the sentinel around the resolved tokens. -/
theorem executableShape : Obligations.ExecutableShape := by
  unfold Obligations.ExecutableShape
  intro lines n image h
  obtain ⟨ob, hp, hl⟩ := assemble_ok h
  obtain ⟨-, fits, body, hbody, rfl⟩ := link_ok hl
  refine ⟨ob, body, hp, fits, resolveAll_length hbody, rfl, fun k tok hk => ?_⟩
  obtain ⟨v, hv, hr⟩ := resolveAll_getElem? hbody hk
  refine ⟨v, hv, ?_, ?_, ?_⟩
  · rintro x rfl
    cases hr
    rfl
  · rintro name rfl
    exact resolve_address hr
  · rintro name rfl
    exact resolve_registerName hr

end Sys2Proof.Machine
end

section
/-!
PROOFS. Pass 1 (R90 to R92): every line of a run of identifiers at the start of the source declares a variable.
-/
namespace Sys2Proof.Machine

/-- The lines that the assembler works over, numbered from `k`. -/
theorem filter_numberLines_cons_of_isIdent {t : Text} (h : isIdent t = true) (k : Nat) (ts : List Text) :
    (numberLines k (t :: ts)).filter (fun l => !isBlank l.body) =
      { number := k, raw := t, body := t } :: (numberLines (k + 1) ts).filter fun l => !isBlank l.body := by
  rw [numberLines, List.filter_cons_of_pos] <;> simp [trim_of_isIdent h, isBlank_of_isIdent h]

/-- R91: the identifiers at the start are variables. -/
theorem pass1_of_isIdent {decls : List Text} (h : ∀ t ∈ decls, isIdent t = true) (k : Nat) (rest : List Text) :
    decls ⊆ (pass1 ((numberLines k (decls ++ rest)).filter fun l => !isBlank l.body)).1 := by
  induction decls generalizing k with
  | nil => exact List.nil_subset _
  | cons t decls ih =>
    obtain ⟨ht, hdecls⟩ := List.forall_mem_cons.1 h
    rw [List.cons_append, filter_numberLines_cons_of_isIdent ht, pass1, if_pos ht]
    exact List.cons_subset_cons t (ih hdecls (k + 1))

/-- Settles O57: `ret` is an identifier, so it extends the run of declarations by one. -/
theorem leadingRetDeclaresAVariable : Obligations.LeadingRetDeclaresAVariable := by
  unfold Obligations.LeadingRetDeclaresAVariable
  intro vars rest ob hvars h
  have idents : ∀ t ∈ vars ++ [['r', 'e', 't']], isIdent t = true :=
    List.forall_mem_append.2 ⟨hvars, by decide⟩
  have declared := pass1_of_isIdent idents 1 rest
  rw [List.append_assoc] at declared
  rw [(parse_ok h).1]
  exact declared (by simp)

end Sys2Proof.Machine
end

section
/-!
PROOFS. The executable as instructions (R94, R95, R110, R111): an instruction line emits the tokens of one instruction,
and the prologue is two instructions.
-/
namespace Sys2Proof.Machine

/-! ### The operand words of an opcode -/

/-- R78: a word that a well-formed instruction can have as an operand of this kind. -/
def OperandWord (kind : OperandKind) (w : Word) : Prop := kind = .reg → (RegOperand.ofWord w).legal = true

theorem operandWord_regWord (kind : OperandKind) (r : RegId) : OperandWord kind r.word := fun _ => by
  simp [RegOperand.legal]

/-- R72, R78: operand words of the kinds of an opcode's format make a well-formed instruction. -/
theorem decodeOperands_of_operandWords {o : Opcode} {ws : List Word}
    (h : List.Forall₂ OperandWord o.format.kinds ws) : ∃ i, decodeOperands o ws = .ok i ∧ WellFormed i := by
  cases o with
  | addRegReg | subRegReg | moveRegReg =>
    obtain _ | ⟨hA, _ | ⟨hB, ⟨⟩⟩⟩ := h
    exact ⟨_, rfl, by simp [wellFormed_iff, Instr.regOperands, hA rfl, hB rfl]⟩
  | addMemReg | subMemReg | moveMemReg | moveImmReg =>
    obtain _ | ⟨-, _ | ⟨hA, ⟨⟩⟩⟩ := h
    exact ⟨_, rfl, by simp [wellFormed_iff, Instr.regOperands, hA rfl]⟩
  | addRegMem | subRegMem | moveRegMem =>
    obtain _ | ⟨hA, _ | ⟨-, ⟨⟩⟩⟩ := h
    exact ⟨_, rfl, by simp [wellFormed_iff, Instr.regOperands, hA rfl]⟩
  | incReg =>
    obtain _ | ⟨hA, ⟨⟩⟩ := h
    exact ⟨_, rfl, by simp [wellFormed_iff, Instr.regOperands, hA rfl]⟩
  | incMem | jmp | jn | jz | jnz | call =>
    obtain _ | ⟨-, ⟨⟩⟩ := h
    exact ⟨_, rfl, rfl⟩
  | jeq | jgt | jlw =>
    obtain _ | ⟨hA, _ | ⟨hB, _ | ⟨-, ⟨⟩⟩⟩⟩ := h
    exact ⟨_, rfl, by simp [wellFormed_iff, Instr.regOperands, hA rfl, hB rfl]⟩
  | ret => exact ⟨_, rfl, rfl⟩

/-- R70, R72: one word for each operand of the format. -/
theorem length_operandWords (i : Instr) : i.operandWords.length = i.opcode.format.kinds.length := by cases i <;> rfl

/-- R70: as many words as the format has operands are all of the instruction's words. -/
theorem encode_of_decodeOperands {o : Opcode} {ws : List Word} {i : Instr} (h : decodeOperands o ws = .ok i)
    (hl : ws.length = o.format.kinds.length) : encode i = o.word :: ws := by
  obtain ⟨rfl, rest, rfl⟩ := decodeOperands_ok h
  rw [List.length_append, length_operandWords, Nat.add_eq_left, List.length_eq_zero_iff] at hl
  rw [hl, List.append_nil, encode]

/-! ### Images that are instructions -/

/-- The words of an image are those of well-formed instructions, one after another. -/
def IsCode (vs : List Int) : Prop := ∃ is : List Instr, (∀ i ∈ is, WellFormed i) ∧ vs.map wrap = is.flatMap encode

theorem isCode_nil : IsCode [] := ⟨[], by simp, rfl⟩

theorem IsCode.append {vs ws : List Int} (hv : IsCode vs) (hw : IsCode ws) : IsCode (vs ++ ws) := by
  obtain ⟨is, wf, e⟩ := hv
  obtain ⟨js, wf', e'⟩ := hw
  exact ⟨is ++ js, List.forall_mem_append.2 ⟨wf, wf'⟩, by rw [List.map_append, List.flatMap_append, e, e']⟩

theorem isCode_instr {o : Opcode} {vs : List Int} (h : List.Forall₂ OperandWord o.format.kinds (vs.map wrap)) :
    IsCode (o.word.toInt :: vs) := by
  obtain ⟨i, hi, wf⟩ := decodeOperands_of_operandWords h
  refine ⟨[i], by simpa using wf, ?_⟩
  rw [List.flatMap_singleton, encode_of_decodeOperands hi h.length_eq.symm, List.map_cons, wrap_toInt]

/-- R110: the prologue is `move S %StkBOT` and `move S %StkTOP`. -/
theorem isCode_prologue (stack : Int) : IsCode (prologue stack) := by
  have move (r : RegId) : IsCode [Opcode.moveImmReg.word.toInt, stack, r.word.toInt] :=
    isCode_instr (.cons nofun (.cons (by rw [wrap_toInt]; exact operandWord_regWord _ r) .nil))
  exact (move .stkBOT).append (move .stkTOP)

/-! ### The object program -/

/-- R93, R94: what pass 2 gives for no lines, keeps over a label and keeps over an instruction line, it gives for any
lines that it accepts. `P` speaks of the offset of the first line, the labels and the tokens. -/
theorem pass2_rec {P : Nat → List (Text × Nat) → List Token → Prop} (nil : ∀ k, P k [] [])
    (label : ∀ k name labels program, P k labels program → P k ((name, k) :: labels) program)
    (instr : ∀ k t toks labels program, instrTokens t = some toks → P (k + toks.length) labels program →
      P k labels (toks ++ program))
    {ls : List Line} {k : Nat} {labels : List (Text × Nat)} {program : List Token}
    (h : pass2 k ls = .ok (labels, program)) : P k labels program := by
  induction ls generalizing k labels program with
  | nil =>
    cases h
    exact nil k
  | cons l ls ih =>
    obtain ⟨name, labels', program', -, hls, e⟩ | ⟨toks, labels', program', htoks, hls, e⟩ := pass2_cons h
    · cases e
      exact label k name _ _ (ih hls)
    · cases e
      exact instr k l.body toks _ _ htoks (ih hls)

section
variable {n : Nat} {ob : Object}

/-- R94, R111: the word of an operand token has the kind of the token. -/
theorem operandWord_of_resolve {p : OperandKind × Token} (hp : KindOf p) {v : Int} (h : resolve n ob p.2 = .ok v) :
    OperandWord p.1 (wrap v) := by
  obtain ⟨-, name, htok⟩ | ⟨hmem, -⟩ | ⟨himm, -⟩ := hp
  · rw [htok] at h
    obtain ⟨r, rfl⟩ := resolve_register h
    rw [wrap_toInt]
    exact operandWord_regWord _ r
  · simp [OperandWord, hmem]
  · simp [OperandWord, himm]

theorem operandWords_of_resolveAll {os : List (OperandKind × Token)} (hos : ∀ p ∈ os, KindOf p) {vs : List Int}
    (h : resolveAll n ob (os.map Prod.snd) = .ok vs) : List.Forall₂ OperandWord (os.map Prod.fst) (vs.map wrap) := by
  induction os generalizing vs with
  | nil =>
    cases h
    exact .nil
  | cons p os ih =>
    obtain ⟨hp, hos⟩ := List.forall_mem_cons.1 hos
    obtain ⟨v, ws, hv, hws, rfl⟩ := resolveAll_cons.1 h
    exact .cons (operandWord_of_resolve hp hv) (ih hos hws)

/-- R94, R95: an instruction line emits the tokens of one instruction. -/
theorem isCode_of_instrTokens {t : Text} {toks : List Token} (ht : instrTokens t = some toks) {vs : List Int}
    (h : resolveAll n ob toks = .ok vs) : IsCode vs := by
  obtain ⟨o, os, ts, hos, kinds, rfl⟩ := instrTokens_ok ht
  obtain ⟨v, ws, hv, hws, rfl⟩ := resolveAll_cons.1 h
  cases hv
  exact isCode_instr (kinds ▸ operandWords_of_resolveAll (classifyAll_kind hos) hws)

/-- R93, R94: a label emits nothing, an instruction line one instruction. -/
theorem isCode_of_pass2 {ls : List Line} {labels : List (Text × Nat)} {program : List Token}
    (hp : pass2 0 ls = .ok (labels, program)) {vs : List Int} (h : resolveAll n ob program = .ok vs) : IsCode vs := by
  refine pass2_rec (P := fun _ _ program => ∀ vs, resolveAll n ob program = .ok vs → IsCode vs)
    ?nil ?label ?instr hp vs h
  case nil =>
    rintro _ _ ⟨⟩
    exact isCode_nil
  case label => exact fun _ _ _ _ ih => ih
  case instr =>
    intro _ _ _ _ _ htoks ih vs h
    obtain ⟨x, y, hx, hy, rfl⟩ := resolveAll_append h
    exact (isCode_of_instrTokens htoks hx).append (ih y hy)

end

/-- Settles O58: the prologue and the resolved object program are instructions, and the sentinel follows them. -/
theorem executablesAreInstructions : Obligations.ExecutablesAreInstructions := by
  unfold Obligations.ExecutablesAreInstructions
  intro lines n image h
  obtain ⟨ob, hp, hl⟩ := assemble_ok h
  obtain ⟨-, -, body, hbody, rfl⟩ := link_ok hl
  obtain ⟨is, wf, e⟩ := (isCode_prologue _).append (isCode_of_pass2 (parse_ok hp).2 hbody)
  exact ⟨is, wf, by rw [List.map_append, e]; rfl⟩

end Sys2Proof.Machine
end

section
/-!
PROOFS. The text of an executable (R71, R80): each word is read back from its own decimal line, and no line holds a line
feed.
-/
namespace Sys2Proof.Machine

/-! ### One word -/

theorem unsignedLiteral_decimalDigits {fuel n : Nat} (h : n < fuel) :
    unsignedLiteral (decimalDigits fuel n) = some (n : Int) := by
  obtain ⟨value, nonempty⟩ := decimalValue_decimalDigits h
  have digits : (decimalDigits fuel n).all isDigit = true := List.all_eq_true.2 (decimalDigits_isDigit fuel n)
  simp [unsignedLiteral, value, nonempty, digits]

/-- R94: a sign is no digit. -/
theorem signedLiteral_of_digits {t : Text} (h : ∀ c ∈ t, isDigit c = true) : signedLiteral t = unsignedLiteral t := by
  unfold signedLiteral
  split
  · exact absurd (h '-' (by simp)) (by decide)
  · rfl

theorem signedLiteral_renderInt (v : Int) : signedLiteral (renderInt v) = some v := by
  have abs := unsignedLiteral_decimalDigits v.natAbs.lt_succ_self
  unfold renderInt
  split
  · rw [signedLiteral, abs]
    exact congrArg some (show -(v.natAbs : Int) = v by omega)
  · rw [signedLiteral_of_digits (decimalDigits_isDigit _ _), abs]
    exact congrArg some (by omega)

theorem newline_not_mem_renderInt (v : Int) : '\n' ∉ renderInt v := by
  have digits : '\n' ∉ decimalDigits (v.natAbs + 1) v.natAbs := fun h =>
    absurd (decimalDigits_isDigit _ _ _ h) (by decide)
  unfold renderInt
  split
  · simp [digits]
  · exact digits

/-! ### All the words -/

/-- Up to the next line feed, the characters go to the line being read. -/
theorem splitLines_append {t : Text} (h : '\n' ∉ t) (cur rest : Text) :
    splitLines cur (t ++ rest) = splitLines (t.reverse ++ cur) rest := by
  induction t generalizing cur with
  | nil => rfl
  | cons c t ih =>
    rw [List.cons_append, splitLines, if_neg (List.ne_of_not_mem_cons h).symm, ih (List.not_mem_of_not_mem_cons h)]
    simp

theorem splitLines_renderInt (v : Int) : splitLines [] (renderInt v) = [renderInt v] := by
  have read := splitLines_append (newline_not_mem_renderInt v) [] []
  simpa [splitLines] using read

theorem splitLines_renderInt_newline (v : Int) (rest : Text) :
    splitLines [] (renderInt v ++ '\n' :: rest) = renderInt v :: splitLines [] rest := by
  rw [splitLines_append (newline_not_mem_renderInt v)]
  simp [splitLines]

theorem readInts_cons_renderInt (v : Int) (ts : List Text) :
    readInts (renderInt v :: ts) = (readInts ts).map (v :: ·) := by
  rw [readInts, signedLiteral_renderInt]
  cases readInts ts <;> rfl

/-- R71: the lines of the text of one or more words are read as these words. -/
theorem readInts_splitLines_renderExecutable (v : Int) (vs : List Int) :
    readInts (splitLines [] (renderExecutable (v :: vs))) = some (v :: vs) := by
  induction vs generalizing v with
  | nil =>
    rw [renderExecutable, splitLines_renderInt, readInts_cons_renderInt]
    rfl
  | cons w vs ih =>
    rw [renderExecutable, splitLines_renderInt_newline, readInts_cons_renderInt, ih]
    rfl

/-- Settles O60: no words are the empty text; the text of some words is read line by line, and so it is not empty. -/
theorem executableTextIsReadBack : Obligations.ExecutableTextIsReadBack := by
  unfold Obligations.ExecutableTextIsReadBack
  intro image
  cases image with
  | nil => rfl
  | cons v vs =>
    have read := readInts_splitLines_renderExecutable v vs
    have nonempty : ¬ (renderExecutable (v :: vs)).isEmpty = true := fun h => by
      rw [List.isEmpty_iff.1 h] at read
      cases read
    rw [readExecutable, if_neg nonempty, read]

end Sys2Proof.Machine
end

section
/-!
PROOFS. Steps of three-word instructions that write a register (R79, R152, R174), and the prologue of a loaded image (R110,
R261, R263): every word of an assembled image is a word of the machine, so the image is admitted, and its first two steps
are the two moves.
-/
namespace Sys2Proof.Machine

/-! ### A three-word step that writes a register -/

/-- From `s` to `t`, a step has run an instruction of three words, whose result `v` is in register `r`. -/
structure State.WritesRegister (s t : State) (r : RegId) (v : Word) : Prop where
  fsm : t.fsm = .fetch
  pc : t.pc = s.pc + 3
  result : t.x r = v
  others : ∀ q, q ≠ r → t.x q = s.x q
  mem : t.mem = s.mem

section
variable {s : State} {q r : RegId}

/-- R174: MOVE_IMM_REG, with its three words in memory at PC. -/
theorem step_moveImmReg (hf : s.fsm = .fetch) (operands : s.OperandsInMemory 3)
    (hop : s.mem.read s.pc = Opcode.moveImmReg.word) (hreg : s.mem.read (s.pc + 2) = r.word) :
    ∃ t, step s = .next t ∧ s.WritesRegister t r (s.mem.read (s.pc + 1)) ∧ t.flags = s.flags := by
  have decoded : decode (s.mem.readMany s.pc maxWords) = .ok (.moveImmReg (s.mem.read (s.pc + 1)) (.reg r)) := by
    rw [State.decode_words hop, hreg]
    simp [decodeOperands, takeTwo]
  have inside : s.fetched.OperandsInMemory 2 := operands.tail
  rw [step_of_decode hf operands.inRange decoded, exec, execMoveImmReg, fetchWord_of_inRange inside.inRange,
    fetchReg_of_inRange inside.tail.inRange]
  exact ⟨_, rfl, ⟨rfl, by simp [BitVec.add_assoc], by simp, fun p hp => by simp [State.x_setX, hp], rfl⟩, rfl⟩

/-- R152: ADD_REG_REG, with its three words in memory at PC. -/
theorem step_addRegReg (hf : s.fsm = .fetch) (operands : s.OperandsInMemory 3)
    (hop : s.mem.read s.pc = Opcode.addRegReg.word) (hfirst : s.mem.read (s.pc + 1) = q.word)
    (hsecond : s.mem.read (s.pc + 2) = r.word) :
    ∃ t, step s = .next t ∧ s.WritesRegister t r (addWrap (s.x q) (s.x r)) ∧
      t.flags = flagsOf (addWrap (s.x q) (s.x r)) := by
  have decoded : decode (s.mem.readMany s.pc maxWords) = .ok (.addRegReg (.reg q) (.reg r)) := by
    rw [State.decode_words hop, hfirst, hsecond]
    simp [decodeOperands, takeTwo]
  have inside : s.fetched.OperandsInMemory 2 := operands.tail
  have second : ((s.fetched.setPc (s.fetched.pc + 1)).setDemux q.word).OperandsInMemory 1 := inside.tail
  rw [step_of_decode hf operands.inRange decoded, exec, execAddRegReg, fetchReg_of_inRange inside.inRange,
    fetchReg_of_inRange second.inRange]
  exact ⟨_, rfl, ⟨rfl, by simp [BitVec.add_assoc], by simp, fun p hp => by simp [State.x_writeReg, hp], rfl⟩, rfl⟩

end

/-- R27: the flags of a result say what they are defined to say. -/
theorem flagsFrom_of_flagsOf {t : State} {v : Word} (h : t.flags = flagsOf v) : FlagsFrom t v := by
  rw [FlagsFrom, h, flagsOf_z, flagsOf_n, decide_eq_true_iff, decide_eq_true_iff, toInt_eq_zero_iff]
  exact ⟨Iff.rfl, Iff.rfl⟩

/-- Settles O46: three zero words are ADD_REG_REG of reg0 and reg0. -/
theorem zeroWordsDoubleReg0 : Obligations.ZeroWordsDoubleReg0 := by
  unfold Obligations.ZeroWordsDoubleReg0
  intro s hf size_ok h0 last hop hfirst hsecond
  obtain ⟨t, ht, written, flags⟩ :=
    step_addRegReg (q := .reg0) (r := .reg0) hf ⟨h0, by omega, size_ok.2⟩ hop hfirst hsecond
  exact ⟨t, ht, written.fsm, written.pc, written.result, flagsFrom_of_flagsOf (written.result ▸ flags), written.others,
    written.mem⟩

/-! ### The words of an assembled image -/

theorem fitsWord_of_instrTokens {t : Text} {toks : List Token} (h : instrTokens t = some toks) {x : Int}
    (hx : .number x ∈ toks) : FitsWord x := by
  obtain ⟨o, os, ts, hos, -, rfl⟩ := instrTokens_ok h
  obtain e | hmem := List.mem_cons.1 hx
  · cases e
    exact fits_toInt _
  · obtain ⟨p, hp, e⟩ := List.mem_map.1 hmem
    obtain ⟨-, name, htok⟩ | ⟨-, name, htok⟩ | ⟨-, v, htok, fits⟩ := classifyAll_kind hos p hp
    · cases e.symm.trans htok
    · cases e.symm.trans htok
    · cases e.symm.trans htok
      exact fits

/-- R94: the numbers of an object program are opcode ids and immediates. -/
theorem fitsWord_of_pass2 {ls : List Line} {labels : List (Text × Nat)} {program : List Token}
    (h : pass2 0 ls = .ok (labels, program)) {x : Int} (hx : .number x ∈ program) : FitsWord x := by
  refine pass2_rec (P := fun _ _ program => .number x ∈ program → FitsWord x) ?nil ?label ?instr h hx
  case nil => simp
  case label => exact fun _ _ _ _ ih => ih
  case instr =>
    intro _ _ _ _ _ htoks ih hx
    exact (List.mem_append.1 hx).elim (fitsWord_of_instrTokens htoks) ih

/-- R93: a label stands at a word of the object program or right after the last one. -/
theorem offset_le_of_pass2 {ls : List Line} {labels : List (Text × Nat)} {program : List Token}
    (h : pass2 0 ls = .ok (labels, program)) {p : Text × Nat} (hp : p ∈ labels) : p.2 ≤ program.length := by
  have bound : ∀ p ∈ labels, p.2 ≤ 0 + program.length := by
    refine pass2_rec (P := fun k labels program => ∀ p ∈ labels, p.2 ≤ k + program.length) ?nil ?label ?instr h
    case nil => simp
    case label => exact fun k _ _ _ ih => List.forall_mem_cons.2 ⟨Nat.le_add_right k _, ih⟩
    case instr =>
      intro k _ toks _ program _ ih p hp
      rw [List.length_append, ← Nat.add_assoc]
      exact ih p hp
  simpa using bound p hp

section
variable {n : Nat} {ob : Object}

/-- R98, R99: a name's address is that of a variable or of a label. -/
theorem addressOf_cases {name : Text} {a : Int} (h : addressOf n ob name = some a) :
    (∃ i, i < ob.vars.length ∧ a = (n : Int) - 1 - i) ∨ (∃ k, (name, k) ∈ ob.labels ∧ a = (k : Int) + 6) := by
  unfold addressOf at h
  split at h
  · next i hi =>
    cases h
    exact .inl ⟨i, indexOf_lt hi, rfl⟩
  · obtain ⟨k, hk, rfl⟩ := Option.map_eq_some_iff.1 h
    exact .inr ⟨k, mem_of_labelOffset hk, rfl⟩

theorem exists_token_of_resolveAll {ts : List Token} {vs : List Int} (h : resolveAll n ob ts = .ok vs) {v : Int}
    (hv : v ∈ vs) : ∃ t ∈ ts, resolve n ob t = .ok v := by
  obtain ⟨k, hk⟩ := List.mem_iff_getElem?.1 hv
  have inside : k < ts.length := resolveAll_length h ▸ (List.getElem?_eq_some_iff.1 hk).1
  obtain ⟨w, hw, hr⟩ := resolveAll_getElem? h (List.getElem?_eq_getElem inside)
  cases hk.symm.trans hw
  exact ⟨_, List.getElem_mem inside, hr⟩

end

/-- R7: the integers from 0 to the memory size are words. -/
theorem fitsWord_of_le {v : Int} {n : Nat} (nonneg : 0 ≤ v) (le : v ≤ n) (max : n ≤ maxMemSize) : FitsWord v := by
  simp only [maxMemSize] at max
  simp only [FitsWord, minInt, maxInt]
  omega

/-- R111: the word of a token is that of a number of the source, an address in memory or a register id. -/
theorem fitsWord_of_parse {lines : List Text} {n : Nat} {ob : Object} (hp : parse lines = .ok ob)
    (placed : ob.vars.length ≤ n) (room : ob.program.length + 6 ≤ n) (max : n ≤ maxMemSize) {t : Token}
    (ht : t ∈ ob.program) {v : Int} (h : resolve n ob t = .ok v) : FitsWord v := by
  have hpass := (parse_ok hp).2
  cases t with
  | number x =>
    cases h
    exact fitsWord_of_pass2 hpass ht
  | address name =>
    obtain ⟨i, hi, rfl⟩ | ⟨k, hk, rfl⟩ := addressOf_cases (resolve_address h)
    · exact fitsWord_of_le (by omega) (by omega) max
    · have offset : k ≤ ob.program.length := offset_le_of_pass2 hpass hk
      exact fitsWord_of_le (by omega) (by omega) max
  | register name =>
    obtain ⟨r, rfl⟩ := resolve_register h
    exact fits_toInt _

/-- R110, R261: every word of an assembled image that fits in memory is a word of the machine. -/
theorem fitsWord_of_link {lines : List Text} {n : Nat} {ob : Object} {image : List Int} (hp : parse lines = .ok ob)
    (hl : link n ob = .ok image) (len : image.length ≤ n) (max : n ≤ maxMemSize) : ∀ w ∈ image, FitsWord w := by
  obtain ⟨-, placed, body, hbody, rfl⟩ := link_ok hl
  have room : ob.program.length + 6 ≤ n := by
    rw [← resolveAll_length hbody]
    simp only [prologue, List.length_append, List.length_cons, List.length_nil] at len
    omega
  have stack : FitsWord ((n : Int) - ob.vars.length) := fitsWord_of_le (by omega) (by omega) max
  refine List.forall_mem_append.2 ⟨List.forall_mem_append.2 ⟨?prologue, ?body⟩, by decide⟩
  case prologue =>
    simp only [prologue, List.forall_mem_cons]
    exact ⟨by decide, stack, by decide, by decide, stack, by decide, List.forall_mem_nil _⟩
  case body =>
    intro w hw
    obtain ⟨t, ht, hr⟩ := exists_token_of_resolveAll hbody hw
    exact fitsWord_of_parse hp placed room max ht hr

/-! ### Loading and the prologue -/

section
variable {n : Nat} {ctl : Config.FlagsAfterCtl} {v : StartValues} {image : List Int}

/-- R261: an image of words that fits in memory is admitted. -/
theorem load_of_fitsWord (pos : 1 ≤ n) (max : n ≤ maxMemSize) (len : image.length ≤ n)
    (fits : ∀ w ∈ image, FitsWord w) : load n ctl v image = .ok (State.start n ctl v image) := by
  rw [load, if_neg (not_not.2 ⟨pos, max⟩), if_neg (Nat.not_lt.2 len), (firstOutOfRange_eq_none image).2 fits]

/-- R260: the image's words stand in memory from address 0. -/
theorem State.read_start {a : Word} {w : Int} (h : image[a.toNat]? = some w) :
    (State.start n ctl v image).mem.read a = wrap w := by
  have cell := readCells_imageCells 0 image a.toNat
  rw [Nat.zero_add, h] at cell
  exact cell

end

/-- R110, R263: the prologue at address 0 is two steps that set the stack pointers. -/
theorem steps_of_prologue {s : State} {stack : Word} (hf : s.fsm = .fetch) (hpc : s.pc = 0) (room : 6 ≤ s.mem.size)
    (max : s.mem.size ≤ maxMemSize)
    (words : [s.mem.read 0, s.mem.read 1, s.mem.read 2, s.mem.read 3, s.mem.read 4, s.mem.read 5] =
      [9, stack, 5, 9, stack, 4]) :
    ∃ t u, step s = .next t ∧ step t = .next u ∧ u.fsm = .fetch ∧ u.pc = 6 ∧ u.x .stkBOT = stack ∧
      u.x .stkTOP = stack ∧ u.mem = s.mem ∧ u.flags = s.flags := by
  simp only [List.cons.injEq, and_true] at words
  obtain ⟨h0, h1, h2, h3, h4, h5⟩ := words
  have first : s.OperandsInMemory 3 := ⟨by rw [hpc]; decide, by rw [hpc, show (0 : Word).toInt = 0 from rfl]; omega, max⟩
  obtain ⟨t, ht, bot, flags⟩ := step_moveImmReg (r := .stkBOT) hf first (by rw [hpc]; exact h0)
    (by rw [hpc]; exact h2)
  have pc : t.pc = 3 := by rw [bot.pc, hpc]; rfl
  have second : t.OperandsInMemory 3 :=
    ⟨by rw [pc]; decide, by rw [pc, bot.mem, show (3 : Word).toInt = 3 from rfl]; omega, by rw [bot.mem]; exact max⟩
  obtain ⟨u, hu, top, flags'⟩ := step_moveImmReg (r := .stkTOP) bot.fsm second (by rw [pc, bot.mem]; exact h3)
    (by rw [pc, bot.mem]; exact h5)
  refine ⟨t, u, ht, hu, top.fsm, ?_, ?_, ?_, top.mem.trans bot.mem, flags'.trans flags⟩
  · rw [top.pc, pc]
    rfl
  · rw [top.others _ (by decide), bot.result, hpc]
    exact h1
  · rw [top.result, pc, bot.mem]
    exact h4

/-- Settles O59: the image is admitted, and the loader puts the prologue at address 0. -/
theorem prologueSetsTheStackPointers : Obligations.PrologueSetsTheStackPointers := by
  unfold Obligations.PrologueSetsTheStackPointers
  intro lines n image ob ctl v h hp len max
  obtain ⟨-, hl⟩ := link_of_assemble h hp
  have fits := fitsWord_of_link hp hl len max
  obtain ⟨-, placed, body, -, e⟩ := link_ok hl
  have room : 6 ≤ n := by
    rw [e] at len
    simp only [prologue, List.length_append, List.length_cons, List.length_nil] at len
    omega
  have admitted := load_of_fitsWord (ctl := ctl) (v := v) (by omega) max len fits
  have word {a : Word} {w : Int} (hw : image[a.toNat]? = some w) := State.read_start (n := n) (ctl := ctl) (v := v) hw
  obtain ⟨t, u, ht, hu, fsm, pc, bot, top, mem, flags⟩ := steps_of_prologue (s := State.start n ctl v image)
    (stack := wrap ((n : Int) - ob.vars.length)) rfl rfl room max (by
      subst e
      rw [word (a := 0) rfl, word (a := 1) rfl, word (a := 2) rfl, word (a := 3) rfl, word (a := 4) rfl,
        word (a := 5) rfl]
      rfl)
  have stack : (wrap ((n : Int) - ob.vars.length)).toInt = (n : Int) - ob.vars.length :=
    toInt_wrap_of_fits (fitsWord_of_le (by omega) (by omega) max)
  exact ⟨_, t, u, admitted, load_inv admitted, ht, hu, fsm, pc, bot ▸ stack, top ▸ stack, mem, flags⟩

end Sys2Proof.Machine
end

section
/-!
PROOFS. The control unit's cycle (R130, R133 to R136): the opcode fetch, what each opcode word is dispatched to, and
where a step ends.
-/
namespace Sys2Proof.Machine

section
variable {s : State}

/-! ### The opcode fetch -/

theorem fetchOpcode_of_inRange {k : State → Result} (h : s.mem.InRange s.pc) : fetchOpcode s k = k s.fetched :=
  if_pos h

theorem fetchOpcode_of_not_inRange {k : State → Result} (h : ¬ s.mem.InRange s.pc) :
    fetchOpcode s k = .next (s.halt .haltPcRange) := if_neg h

/-! ### Dispatch -/

/-- R77: the words that are no opcode. -/
theorem Opcode.ofWord_eq_none {w : Word} (h : w.toInt < 0 ∨ 20 < w.toInt) : Opcode.ofWord w = none := by
  rw [← Option.not_isSome_iff_eq_none, Opcode.ofWord_isSome_iff]
  omega

theorem decode_sentinel (ws : List Word) : decode (sentinelWord :: ws) = .error .sentinel := by
  rw [decode, if_pos rfl]

/-- R77: a word that is neither the sentinel nor an opcode, whatever stands after it. -/
theorem decode_badOpcode {w : Word} (hs : w ≠ sentinelWord) (h : w.toInt < 0 ∨ 20 < w.toInt) (ws : List Word) :
    decode (w :: ws) = .error (.badOpcode w) := by
  rw [decode, if_neg hs, Opcode.ofWord_eq_none h]

/-- R70, R76: an opcode word at PC always decodes, to an instruction of that opcode. -/
theorem State.exists_decode_of_opcode {o : Opcode} (hop : s.mem.read s.pc = o.word) :
    ∃ i : Instr, i.opcode = o ∧ decode (s.mem.readMany s.pc maxWords) = .ok i := by
  rw [State.decode_words hop]
  obtain ⟨i, hi, ho⟩ :=
    decodeOperands_window o (s.mem.read (s.pc + 1)) (s.mem.read (s.pc + 2)) (s.mem.read (s.pc + 3))
  exact ⟨i, ho, hi⟩

/-- R133, R231: when dispatch halts, the step halts with the opcode fetched and nothing else done. -/
theorem step_of_decodeExecute_halt {r : Status} (hf : s.fsm = .fetch) (hpc : s.mem.InRange s.pc)
    (h : decodeExecute s.fetched = .next (s.fetched.halt r)) :
    ∃ t, step s = .next t ∧ t.fsm = .halted ∧ t.status = r ∧ t.pc = s.pc + 1 ∧ t.ir = s.mem.read s.pc ∧
      t.flags = s.flags ∧ s.SameRegisters t ∧ t.mem = s.mem := by
  rw [step_of_fetch hf, runInstr_of_inRange hpc, settleResult_of_next h]
  exact ⟨_, rfl, rfl, rfl, rfl, rfl, rfl, fun _ => rfl, rfl⟩

/-! ### Where a step ends -/

/-- R135: a step from FETCH always has a next state: the opcode fetch and dispatch halt or run an instruction, and every
instruction answers one. -/
theorem step_next (hf : s.fsm = .fetch) : ∃ u : State, step s = .next u.settle := by
  rw [step_of_fetch hf]
  by_cases hpc : s.mem.InRange s.pc
  · rw [runInstr_of_inRange hpc]
    obtain ⟨i, -, e⟩ | ⟨r, -, e⟩ := decodeExecute_cases s.fetched
    · obtain ⟨u, hu⟩ := exec_next i s.fetched
      exact ⟨u, settleResult_of_next (e.trans hu)⟩
    · exact ⟨_, settleResult_of_next e⟩
  · exact ⟨_, runInstr_of_not_inRange hpc⟩

/-- R134: a settled state is at FETCH or halted. -/
theorem State.fsm_settle_cases (u : State) : u.settle.fsm = .fetch ∨ u.settle.fsm = .halted := by
  by_cases h : u.fsm = .halted
  · exact .inr (by rw [State.fsm_settle, h]; rfl)
  · exact .inl (State.fsm_settle_of_not_halted h)

end

/-- Settles O4: `step_of_decode`, and the end of the instruction when it answers a next state. -/
theorem stepRunsTheDecodedInstruction : Obligations.StepRunsTheDecodedInstruction := by
  unfold Obligations.StepRunsTheDecodedInstruction
  intro s i hf hpc hd
  have runs := step_of_decode hf hpc hd
  exact ⟨runs, fun t ht => runs.trans (settleResult_of_next ht)⟩

/-- Settles O5: the two branches of the range check; no memory reaches the word that PC would wrap at. -/
theorem opcodeFetch : Obligations.OpcodeFetch := by
  unfold Obligations.OpcodeFetch
  intro s k
  refine ⟨fun h => ?outside, fun h size_ok => ?inMemory⟩
  case outside => exact ⟨_, fetchOpcode_of_not_inRange h, (State.PastOperands.refl s).haltTaken _⟩
  case inMemory =>
    exact ⟨_, fetchOpcode_of_inRange h, rfl, rfl, State.toInt_pc_add_one size_ok h.2, rfl, rfl, rfl, rfl, rfl, rfl, rfl,
      rfl⟩

/-- Settles O8: the decoder's answer for each kind of opcode word. -/
theorem opcodeDispatch : Obligations.OpcodeDispatch := by
  unfold Obligations.OpcodeDispatch
  intro s hf hpc
  refine ⟨fun hs => ?sentinel, fun hs hr => ?badOpcode, fun h0 h20 => ?instruction⟩
  case sentinel =>
    refine step_of_decodeExecute_halt hf hpc ?_
    rw [decodeExecute, State.instrWords, State.ir_fetched, hs, ← sentinelWord, decode_sentinel]
    rfl
  case badOpcode =>
    refine step_of_decodeExecute_halt hf hpc ?_
    rw [decodeExecute, State.instrWords, State.ir_fetched, decode_badOpcode hs hr]
    rfl
  case instruction =>
    obtain ⟨o, ho⟩ := Option.isSome_iff_exists.1 ((Opcode.ofWord_isSome_iff _).2 ⟨h0, h20⟩)
    have hop := Opcode.word_of_ofWord ho
    obtain ⟨i, rfl, hi⟩ := State.exists_decode_of_opcode hop.symm
    have runs := step_of_decode hf hpc hi
    exact ⟨i, hop, hi, runs, fun t ht running =>
      ⟨_, runs.trans (settleResult_of_next ht), State.fsm_settle_of_not_halted running⟩⟩

/-- Settles O9: every step from FETCH ends in a settled state. -/
theorem runningMachineAlwaysSteps : Obligations.RunningMachineAlwaysSteps := by
  unfold Obligations.RunningMachineAlwaysSteps
  intro s hf
  obtain ⟨u, hu⟩ := step_next hf
  exact ⟨_, hu, u.fsm_settle_cases⟩

/-- Settles O10, by induction on the run: its last step would have to leave a halted state. -/
theorem haltedIsFinal : Obligations.HaltedIsFinal := by
  unfold Obligations.HaltedIsFinal
  intro s hs
  have noStep : ∀ t, step s ≠ .next t := fun t ht => by
    rw [step_of_halted hs] at ht
    cases ht
  refine ⟨noStep, fun t ht => ?_⟩
  induction ht with
  | refl => rfl
  | step t u _ hu ih =>
    rw [ih] at hu
    exact absurd hu (noStep u)

end Sys2Proof.Machine
end

section
/-!
PROOFS. The operand fetches (R131, R132): which words select a register, and the first operand word of every instruction
that has one.
-/
namespace Sys2Proof.Machine

/-- R21, R132: the words that select a register are 0..5. -/
theorem RegId.ofWord_isSome_iff (w : Word) : (RegId.ofWord w).isSome = true ↔ 0 ≤ w.toInt ∧ w.toInt ≤ 5 := by
  constructor
  · intro h
    obtain ⟨r, hr⟩ := Option.isSome_iff_exists.1 h
    rw [← RegId.word_of_ofWord hr]
    cases r <;> decide
  · intro h
    have small : w.toNat ≤ 5 := by
      have := BitVec.toInt_eq_toNat_cond w
      split at this <;> omega
    rw [show w = BitVec.ofNat 32 w.toNat by simp]
    generalize w.toNat = n at small
    interval_cases n <;> rfl

theorem RegOperand.ofWord_of_none {w : Word} (h : RegId.ofWord w = none) : RegOperand.ofWord w = .illegal w := by
  rw [RegOperand.ofWord, h]

/-- R131, R234: every instruction but RET starts with the fetch of an operand word. -/
theorem fetchesWord_exec {i : Instr} (h : i.opcode ≠ .ret) : FetchesWord (exec i) := by
  intro u missing
  cases i with
  | addRegReg | addRegMem | subRegReg | subRegMem | moveRegMem | moveRegReg | incReg | jeq | jgt | jlw =>
    simp only [exec, execAddRegReg, execAddRegMem, execSubRegReg, execSubRegMem, execMoveRegMem, execMoveRegReg,
      execIncReg, execJeq, execJgt, execJlw]
    exact fetchReg_of_not_inRange missing
  | addMemReg | subMemReg | moveMemReg | incMem =>
    simp only [exec, execAddMemReg, execSubMemReg, execMoveMemReg, execIncMem]
    exact fetchCell_of_not_inRange missing
  | moveImmReg | jmp | jn | jz | jnz | call =>
    simp only [exec, execMoveImmReg, execJmp, execJn, execJz, execJnz, execCall]
    exact fetchWord_of_not_inRange missing
  | ret => exact absurd rfl h

/-- Settles O6: the two branches of the range check. -/
theorem operandWordFetch : Obligations.OperandWordFetch := by
  unfold Obligations.OperandWordFetch
  intro s k
  exact ⟨fun h => ⟨_, fetchWord_of_not_inRange h, (State.PastOperands.refl s).haltTaken _⟩, fetchWord_of_inRange⟩

/-- Settles O7: the range check, and then the register that the word selects, if any. -/
theorem registerOperandFetch : Obligations.RegisterOperandFetch := by
  unfold Obligations.RegisterOperandFetch
  intro s w k
  refine ⟨fun h => ?missing, fun h hw => ?illegal, fun h h0 h5 => ?legal⟩
  case missing => exact ⟨_, fetchReg_of_not_inRange h, (State.PastOperands.refl s).haltTaken _⟩
  case illegal =>
    have none : RegId.ofWord w = none := by
      rw [← Option.not_isSome_iff_eq_none, RegId.ofWord_isSome_iff]
      omega
    rw [RegOperand.ofWord_of_none none]
    exact fetchReg_illegal_halts (.refl s) h w k
  case legal =>
    obtain ⟨r, hr⟩ := Option.isSome_iff_exists.1 ((RegId.ofWord_isSome_iff w).2 ⟨h0, h5⟩)
    obtain rfl := RegId.word_of_ofWord hr
    rw [RegOperand.ofWord_regWord]
    exact ⟨r, rfl, fetchReg_of_inRange h⟩

/-- Settles O31: the fetch that every instruction but RET starts with halts. -/
theorem firstOperandMissingHalts : Obligations.FirstOperandMissingHalts := by
  unfold Obligations.FirstOperandMissingHalts
  intro s i hi missing
  exact ⟨_, fetchesWord_exec hi s missing, (State.PastOperands.refl s).haltTaken _⟩

end Sys2Proof.Machine
end

section
/-!
PROOFS. Micro-sequences (R120 to R128): the ALU's operations, the selection through the status-selection memory's own
protocol, and the sequence for ADD_REG_REG. The two calls of a pair are one update, as in Laws/Datapath. So is an operand
fetch, and the sequence for an instruction is followed operand by operand, as its meaning is.
-/
namespace Sys2Proof.Machine

/-! ### The ALU -/

section
variable (s : State) (v : Word)

@[simp] theorem State.getAlu_putAlu_same (i : AluReg) : (s.putAlu i v).getAlu i = v := by cases i <;> rfl

@[simp] theorem State.get_put_same (b : Bus) : (s.put b v).get b = v := by cases b <;> rfl

/-- R123: a result lands in A1, and nothing else of the ALU changes, nor does any bus. -/
theorem State.putAlu_a1_frame (c : Bus) :
    (s.putAlu .a1 v).get c = s.get c ∧ (s.putAlu .a1 v).getAlu .a0 = s.getAlu .a0 := by
  cases c <;> exact ⟨rfl, rfl⟩

end

/-- Settles O49: add, sub and inc write A1 alone, and each transfer is one write. -/
theorem aluOperations : Obligations.AluOperations := by
  unfold Obligations.AluOperations
  intro s b i
  refine ⟨rfl, rfl, rfl, ?frame, s.getAlu_putAlu_same _ i, s.get_put_same _ b, s.getAlu_putAlu_same _ i,
    s.get_put_same _ .alu⟩
  simp only [List.forall_mem_cons]
  exact ⟨s.putAlu_a1_frame _, s.putAlu_a1_frame _, s.putAlu_a1_frame _, List.forall_mem_nil _⟩

/-! ### The status-selection memory -/

/-- R54: the address of a cell of the status-selection memory. -/
def selAddress (b : Bool) : Word := BitVec.ofNat 32 b.toNat

/-- R126: the pair of calls that stores to cell `b` the word that `feed` puts on the external bus. -/
def selStoreSeq (b : Bool) (feed : MicroOp) : List MicroOp :=
  [.put .ext (selAddress b), .selStore .haltDataRange, feed, .selStore .haltDataRange]

/-- R126: the pair of calls that reads cell `b`. -/
def selReadSeq (b : Bool) : List MicroOp :=
  [.put .ext (selAddress b), .selRead .haltDataRange, .selRead .haltDataRange]

theorem selectSeq_eq (b : Bool) (t : Word) :
    selectSeq b t =
      selStoreSeq false (.read onExt .pc) ++ (selStoreSeq true (.put .ext t) ++ (selReadSeq b ++ [.store onExt .pc])) :=
  rfl

section
variable {s : State}

/-- R124: the cell's address is on the external bus and latched. -/
def State.selAddressed (s : State) (b : Bool) : State :=
  { s with dp := { s.dp with extBus := selAddress b, selLatch := { phase := .data, addr := selAddress b } } }

/-- R124, R126: `selStoreSeq` as one update. -/
def State.afterSelStore (s : State) (b : Bool) (v : Word) : State :=
  { s with
    sel := s.sel.write b v
    dp := { s.dp with extBus := v, selLatch := { phase := .addr, addr := selAddress b } } }

/-- R124, R126: `selReadSeq` as one update. -/
def State.afterSelRead (s : State) (b : Bool) : State :=
  { s with dp := { s.dp with extBus := s.sel.read b, selLatch := { phase := .addr, addr := selAddress b } } }

/-- R124: the first call of a pair, `store` or `read`, only takes the address. -/
theorem act_selCall_address (hp : s.dp.selLatch.phase = .addr) (b : Bool) {call : MicroOp}
    (hcall : call = .selStore .haltDataRange ∨ call = .selRead .haltDataRange) :
    call.act (MicroOp.act s (.put .ext (selAddress b))) = s.selAddressed b := by
  have addr : (MicroOp.act s (.put .ext (selAddress b))).dp.selLatch.phase = .addr := hp
  obtain rfl | rfl := hcall
  · show State.selStore _ _ = _
    rw [State.selStore, addr]
    rfl
  · show State.selRead _ _ = _
    rw [State.selRead, addr]
    rfl

theorem runMicroOps_selStoreSeq (hf : s.fsm = .decodeExecute) (hp : s.dp.selLatch.phase = .addr) (b : Bool)
    {feed : MicroOp} {v : Word} (hfeed : feed.act (s.selAddressed b) = (s.selAddressed b).put .ext v) :
    runMicroOps (selStoreSeq b feed) s = s.afterSelStore b v := by
  have data : MicroOp.act ((s.selAddressed b).put .ext v) (.selStore .haltDataRange) = s.afterSelStore b v := by
    cases b <;> rfl
  unfold selStoreSeq
  rw [runMicroOps_cons hf, runMicroOps_cons (by exact hf), act_selCall_address hp b (.inl rfl),
    runMicroOps_cons (by exact hf), hfeed, runMicroOps_cons (by exact hf), data, runMicroOps_nil]

theorem runMicroOps_selReadSeq (hf : s.fsm = .decodeExecute) (hp : s.dp.selLatch.phase = .addr) (b : Bool) :
    runMicroOps (selReadSeq b) s = s.afterSelRead b := by
  have data : MicroOp.act (s.selAddressed b) (.selRead .haltDataRange) = s.afterSelRead b := by
    cases b <;> rfl
  unfold selReadSeq
  rw [runMicroOps_cons hf, runMicroOps_cons (by exact hf), act_selCall_address hp b (.inr rfl),
    runMicroOps_cons (by exact hf), data, runMicroOps_nil]

end

/-- Settles O51: PC is stored to cell 0, the target to cell 1, and the cell of the bit is read into PC. -/
theorem selectThroughTheMemoryProtocol : Obligations.SelectThroughTheMemoryProtocol := by
  unfold Obligations.SelectThroughTheMemoryProtocol
  intro s b t hf
  refine ⟨_, runMicro_of_wellPaired rfl s, ?_⟩
  have fallThrough := runMicroOps_selStoreSeq (s := s.latchesAtAddr) (feed := .read onExt .pc) (v := s.pc) hf rfl
    false rfl
  have target := runMicroOps_selStoreSeq (s := s.latchesAtAddr.afterSelStore false s.pc) (feed := .put .ext t) hf rfl
    true rfl
  have chosen := runMicroOps_selReadSeq (s := (s.latchesAtAddr.afterSelStore false s.pc).afterSelStore true t) hf rfl b
  rw [selectSeq_eq, runMicroOps_append, fallThrough, runMicroOps_append, target, runMicroOps_append, chosen,
    runMicroOps_cons (by exact hf), runMicroOps_nil]
  exact State.sameArch_datapath (s.selectPc b t) _

/-! ### Transfers that cannot halt -/

/-- R231: every micro-operation but a memory call and an access to the register that Demux selects goes on. -/
def MicroOp.goesOn : MicroOp → Bool
  | .memRead _ | .memStore _ | .selRead _ | .selStore _ => false
  | .demuxRegRead _ | .demuxRegStore _ | .demuxRegInternalRead _ | .demuxRegInternalStore _ => false
  | _ => true

@[simp] theorem State.fsm_put (s : State) (b : Bus) (v : Word) : (s.put b v).fsm = s.fsm := by cases b <;> rfl

@[simp] theorem State.fsm_putReg (s : State) (q : StorageReg) (v : Word) : (s.putReg q v).fsm = s.fsm := by
  cases q <;> rfl

@[simp] theorem State.fsm_putAlu (s : State) (i : AluReg) (v : Word) : (s.putAlu i v).fsm = s.fsm := by
  cases i <;> rfl

theorem MicroOp.fsm_act {op : MicroOp} (h : op.goesOn = true) (s : State) : (op.act s).fsm = s.fsm := by
  cases op with
  | put | read | internalRead | aluRead | aluInternalRead => exact s.fsm_put _ _
  | store | internalStore => exact s.fsm_putReg _ _
  | aluAdd | aluSub | aluInc | aluStore | aluInternalStore => exact s.fsm_putAlu _ _
  | setFlags | demuxStore => rfl
  | memRead | memStore | selRead | selStore => cases h
  | demuxRegRead | demuxRegStore | demuxRegInternalRead | demuxRegInternalStore => cases h

/-- Such transfers are done one after the other. -/
theorem runMicroOps_of_goesOn {ops : List MicroOp} (h : ∀ op ∈ ops, op.goesOn = true) {s : State}
    (hf : s.fsm = .decodeExecute) : runMicroOps ops s = ops.foldl MicroOp.act s := by
  induction ops generalizing s with
  | nil => rfl
  | cons op ops ih =>
    obtain ⟨hop, hops⟩ := List.forall_mem_cons.1 h
    rw [runMicroOps_cons hf, ih hops ((MicroOp.fsm_act hop s).trans hf), List.foldl_cons]

/-! ### Operand fetches -/

section
variable {s : State}

/-- R131: `fetchWordSeq` as one update: the word at PC is in A0, and PC is past it. -/
def State.wordInA0 (s : State) : State :=
  { s with
    pc := s.pc + 1
    dp :=
      { s.dp with
        extBus := s.pc + 1
        a0 := s.mem.read s.pc
        a1 := s.pc + 1
        memLatch := { phase := .addr, addr := s.pc } } }

/-- R132: `fetchRegSeq` up to the register access: Demux holds the word that was at PC. -/
def State.wordInDemux (s : State) : State :=
  { s.wordInA0 with dp := { s.wordInA0.dp with extBus := s.mem.read s.pc, demux := s.mem.read s.pc } }

/-- R131: `fetchWordSeq` halts at a word that is not in memory, with the address latched. -/
def State.wordMissing (s : State) : State :=
  { s with dp := { s.dp with extBus := s.pc, memLatch := { phase := .data, addr := s.pc } } }.halt .haltOperandRange

theorem runMicroOps_fetchWordSeq (hf : s.fsm = .decodeExecute) (hp : s.dp.memLatch.phase = .addr)
    (h : s.mem.InRange s.pc) : runMicroOps fetchWordSeq s = s.wordInA0 := by
  unfold fetchWordSeq
  rw [runMicroOps_append, runMicroOps_append, runMicroOps_cons hf, runMicroOps_nil,
    runMicroOps_memReadSeq (s := MicroOp.act s (.read onExt .pc)) _ hf hp, afterReadPair, if_pos (by exact h),
    runMicroOps_of_goesOn (by decide) (by exact hf)]
  simp only [List.foldl_cons, List.foldl_nil, MicroOp.act, onExt, State.get, State.put, State.getReg, State.putReg,
    State.getAlu, State.putAlu, State.setPc, State.setMemLatch, State.wordInA0, incWrap_eq]

theorem runMicroOps_fetchWordSeq_missing (hf : s.fsm = .decodeExecute) (hp : s.dp.memLatch.phase = .addr)
    (h : ¬ s.mem.InRange s.pc) : runMicroOps fetchWordSeq s = s.wordMissing := by
  unfold fetchWordSeq
  rw [runMicroOps_append, runMicroOps_append, runMicroOps_cons hf, runMicroOps_nil,
    runMicroOps_memReadSeq (s := MicroOp.act s (.read onExt .pc)) _ hf hp, afterReadPair, if_neg (by exact h),
    runMicroOps_of_halted (by rfl)]
  rfl

theorem runMicroOps_fetchRegSeq (hf : s.fsm = .decodeExecute) (hp : s.dp.memLatch.phase = .addr)
    (h : s.mem.InRange s.pc) :
    runMicroOps fetchRegSeq s = MicroOp.act s.wordInDemux (.demuxRegRead onExt) := by
  unfold fetchRegSeq
  rw [runMicroOps_append, runMicroOps_fetchWordSeq hf hp h, runMicroOps_cons (by exact hf),
    runMicroOps_cons (by exact hf), runMicroOps_cons (by exact hf), runMicroOps_nil]
  rfl

theorem runMicroOps_fetchRegSeq_missing (hf : s.fsm = .decodeExecute) (hp : s.dp.memLatch.phase = .addr)
    (h : ¬ s.mem.InRange s.pc) : runMicroOps fetchRegSeq s = s.wordMissing := by
  unfold fetchRegSeq
  rw [runMicroOps_append, runMicroOps_fetchWordSeq_missing hf hp h, runMicroOps_of_halted (by rfl)]

/-- R23, R125: Demux selects no register. -/
theorem act_demuxRegRead_of_none {w : Wiring} (h : RegId.ofWord s.dp.demux = none) :
    MicroOp.act s (.demuxRegRead w) = s.halt .faultBadRegister := by
  simp only [MicroOp.act, State.withDemuxReg, h]

/-- R38: the machine on another datapath. -/
def State.withDatapath (s : State) (d : Datapath) : State := { s with dp := d }

/-- R132: the datapath after `fetchRegSeq` on the datapath `d`, when the word at PC selects register `r`. -/
def State.regDatapath (s : State) (d : Datapath) (r : RegId) : Datapath :=
  { d with
    extBus := s.x r
    a0 := r.word
    a1 := s.pc + 1
    demux := r.word
    memLatch := { phase := .addr, addr := s.pc } }

/-- R128, R132: `fetchRegSeq` implements `fetchReg` on any datapath whose memory latch is at ADDR. The two halt alike;
when a register is selected, what comes after the fetch is left to compare. -/
theorem fetchReg_implemented {d : Datapath} {ops : List MicroOp} {k : RegId → State → Result}
    (hf : s.fsm = .decodeExecute) (hp : d.memLatch.phase = .addr)
    (hk : ∀ r : RegId, Holds (k r ((s.setPc (s.pc + 1)).setDemux r.word))
      (·.SameArch (runMicroOps ops (((s.setPc (s.pc + 1)).setDemux r.word).withDatapath (s.regDatapath d r))))) :
    Holds (fetchReg (.ofWord (s.mem.read s.pc)) s k)
      (·.SameArch (runMicroOps (fetchRegSeq ++ ops) (s.withDatapath d))) := by
  have hf' : (s.withDatapath d).fsm = .decodeExecute := hf
  rw [runMicroOps_append]
  by_cases h : s.mem.InRange s.pc
  · rw [runMicroOps_fetchRegSeq hf' hp h]
    cases hr : RegId.ofWord (s.mem.read s.pc) with
    | some r =>
      have hword := RegId.word_of_ofWord hr
      have read : MicroOp.act (s.withDatapath d).wordInDemux (.demuxRegRead onExt) =
          ((s.setPc (s.pc + 1)).setDemux r.word).withDatapath (s.regDatapath d r) := by
        rw [(MicroOp.act_demuxReg hr onExt).1, State.regDatapath, hword]
        rfl
      rw [read, ← hword, RegOperand.ofWord_regWord, fetchReg_of_inRange h]
      exact hk r
    | none =>
      rw [act_demuxRegRead_of_none hr, runMicroOps_of_halted (by rfl), RegOperand.ofWord_of_none hr, fetchReg_illegal h,
        holds_next]
      exact State.sameArch_datapath _ _
  · rw [runMicroOps_fetchRegSeq_missing hf' hp h, runMicroOps_of_halted (by rfl), fetchReg_of_not_inRange h,
      holds_next]
    exact State.sameArch_datapath _ _

end

/-! ### ADD_REG_REG -/

/-- R127: the first register's word moves from the external bus to the internal one, which no operand fetch touches. -/
def keepWordSeq : List MicroOp := [.aluStore .a0 .ext, .aluRead .a0 .int]

/-- R123: the sum of the words on the internal and the external bus is put on the external one. -/
def sumSeq : List MicroOp := [.aluStore .a1 .ext, .aluStore .a0 .int, .aluAdd, .aluRead .a1 .ext]

/-- R151: the word on the external bus is the result: it goes to the register that Demux selects and sets the flags. -/
def resultSeq : List MicroOp := [.demuxRegStore onExt, .setFlags .ext]

theorem addRegRegSeq_eq :
    addRegRegSeq = fetchRegSeq ++ (keepWordSeq ++ (fetchRegSeq ++ (sumSeq ++ resultSeq))) := by
  simp only [addRegRegSeq, keepWordSeq, sumSeq, resultSeq, List.append_assoc, List.cons_append, List.nil_append]

section
variable {s : State} {d : Datapath}

theorem runMicroOps_keepWordSeq (hf : s.fsm = .decodeExecute) :
    runMicroOps keepWordSeq (s.withDatapath d) = s.withDatapath { d with a0 := d.extBus, intBus := d.extBus } := by
  rw [keepWordSeq, runMicroOps_of_goesOn (by decide) (by exact hf)]
  rfl

theorem runMicroOps_sumSeq (hf : s.fsm = .decodeExecute) :
    runMicroOps sumSeq (s.withDatapath d) =
      s.withDatapath { d with
        extBus := addWrap d.intBus d.extBus, a0 := d.intBus, a1 := addWrap d.intBus d.extBus } := by
  rw [sumSeq, runMicroOps_of_goesOn (by decide) (by exact hf)]
  simp only [List.foldl_cons, List.foldl_nil, MicroOp.act, State.get, State.put, State.getAlu, State.putAlu,
    State.withDatapath]

theorem resultSeq_implements {r : RegId} {v : Word} (hf : s.fsm = .decodeExecute) (hr : d.demux = r.word)
    (hext : d.extBus = v) : (s.writeReg r v).SameArch (runMicroOps resultSeq (s.withDatapath d)) := by
  have selected : RegId.ofWord d.demux = some r := by rw [hr, RegId.ofWord_word]
  obtain ⟨-, store, -⟩ := MicroOp.act_demuxReg (s := s.withDatapath d) selected onExt
  rw [resultSeq, runMicroOps_cons (by exact hf), store, runMicroOps_cons (by exact hf), runMicroOps_nil, ← hext]
  exact State.sameArch_datapath _ _

end

/-- Settles O52: the two operand fetches are implemented one after the other, and then the sum and its
write are. -/
theorem microSequenceImplementsAddRegReg : Obligations.MicroSequenceImplementsAddRegReg := by
  unfold Obligations.MicroSequenceImplementsAddRegReg
  intro s hf
  have implemented : Holds (exec (.addRegReg (.ofWord (s.mem.read s.pc)) (.ofWord (s.mem.read (s.pc + 1)))) s)
      (·.SameArch (runMicroOps addRegRegSeq s.latchesAtAddr)) := by
    rw [exec, execAddRegReg, addRegRegSeq_eq]
    refine fetchReg_implemented (d := s.dp.latchesAtAddr) hf rfl fun rA => ?_
    rw [runMicroOps_append, runMicroOps_keepWordSeq (by exact hf)]
    refine fetchReg_implemented (s := (s.setPc (s.pc + 1)).setDemux rA.word) hf rfl fun rB => ?_
    rw [holds_next, runMicroOps_append, runMicroOps_sumSeq (by exact hf)]
    exact resultSeq_implements hf rfl rfl
  obtain ⟨t, ht, same⟩ := implemented
  exact ⟨t, _, runMicro_of_wellPaired rfl s, ht, same⟩

end Sys2Proof.Machine
end

section
/-!
PROOFS. ADD and SUB (R150 to R158). Each form is the fetch of its two operands and one write of a result; the fetches are
said once for each form (R138), the writes once for a register and once for a cell (R151), and the result is any function
of the two operands, so that one lemma serves both ADD and SUB.
-/
namespace Sys2Proof.Machine

/-! ### The write of a result -/

section
variable {s t u : State} {n : Nat} {r : RegId} {a v : Word}

theorem State.PastOperands.x_eq (h : s.PastOperands u n) (q : RegId) : u.x q = s.x q := by
  obtain ⟨d, rfl⟩ := h
  rfl

theorem State.PastOperands.mem_eq (h : s.PastOperands u n) : u.mem = s.mem := by
  obtain ⟨d, rfl⟩ := h
  rfl

theorem State.PastOperands.setX_written (h : s.PastOperands u n) (r : RegId) (v : Word) :
    RegisterWritten s (u.setX r v) n r v := by
  obtain ⟨d, rfl⟩ := h
  exact ⟨rfl, State.x_setX_same _ r v, fun q hq => Regs.get_set_ne s.regs v hq, fun _ => rfl,
    ⟨⟨rfl, rfl, rfl, rfl, rfl⟩, rfl, rfl⟩⟩

theorem State.PastOperands.store_written (h : s.PastOperands u n) (wf : s.mem.wf) (a v : Word) :
    CellWritten s (u.store a v) n a v := by
  obtain ⟨d, rfl⟩ := h
  exact ⟨rfl, Memory.read_write_same a v wf, fun b hb => Memory.read_write_ne v wf hb, fun _ => rfl,
    ⟨⟨rfl, rfl, rfl, rfl, rfl⟩, rfl, rfl⟩⟩

theorem State.SameRest.setFlags (h : s.SameRest t) (w : Word) : s.SameRest (t.setFlags w) :=
  ⟨⟨h.core.ir, h.core.fsm, h.core.status, h.core.flagsAfterCtl, h.core.size⟩, h.sel, h.draws⟩

theorem RegisterWritten.setFlags (h : RegisterWritten s t n r v) (w : Word) :
    RegisterWritten s (t.setFlags w) n r v :=
  ⟨h.pc, h.result, h.others, h.memory, h.rest.setFlags w⟩

theorem CellWritten.setFlags (h : CellWritten s t n a v) (w : Word) : CellWritten s (t.setFlags w) n a v :=
  ⟨h.pc, h.result, h.others, h.registers, h.rest.setFlags w⟩

theorem flagsFrom_setFlags (s : State) (v : Word) : FlagsFrom (s.setFlags v) v :=
  flagsFrom_of_flagsOf (s.flags_setFlags v)

/-- R151: the end of a form whose destination is a register. -/
theorem State.PastOperands.writeReg_result (h : s.PastOperands u n) (r : RegId) (v : Word) :
    RegisterWritten s (u.writeReg r v) n r v ∧ FlagsFrom (u.writeReg r v) v :=
  ⟨(h.setX_written r v).setFlags v, flagsFrom_setFlags _ v⟩

/-- R151: the end of a form whose destination is a cell. -/
theorem State.PastOperands.writeCell_result (h : s.PastOperands u n) (wf : s.mem.wf) (a v : Word) :
    CellWritten s (u.writeCell a v) n a v ∧ FlagsFrom (u.writeCell a v) v :=
  ⟨(h.store_written wf a v).setFlags v, flagsFrom_setFlags _ v⟩

end

/-! ### The fetch of two operands -/

section
variable {s : State} {q r : RegId} {a : Word} {P : State → Prop}

/-- R132: two registers are fetched. -/
theorem holds_fetchReg_fetchReg {k : RegId → RegId → State → Result} (operands : s.OperandsInMemory 2)
    (hk : ∀ u, s.PastOperands u 2 → Holds (k q r u) P) :
    Holds (fetchReg (.reg q) s fun x u => fetchReg (.reg r) u (k x)) P := by
  have second : ((s.setPc (s.pc + 1)).setDemux q.word).OperandsInMemory 1 := operands.tail
  rw [fetchReg_of_inRange operands.inRange, fetchReg_of_inRange second.inRange]
  exact hk _ (State.PastOperands.refl s).reg.reg

/-- R138: a cell in memory is read, and then a register is fetched. -/
theorem holds_fetchCell_fetchReg {k : Word → RegId → State → Result} (operands : s.OperandsInMemory 2)
    (ha : s.mem.InRange a) (hk : ∀ u, s.PastOperands u 2 → Holds (k (s.mem.read a) r u) P) :
    Holds (fetchCell a s fun v u => fetchReg (.reg r) u (k v)) P := by
  rw [fetchCell_of_inRange operands.inRange ha, fetchReg_of_inRange operands.tail.inRange]
  exact hk _ (State.PastOperands.refl s).word.reg

/-- R138: a register is fetched, and then a cell in memory is read. -/
theorem holds_fetchReg_fetchCell {k : RegId → Word → State → Result} (operands : s.OperandsInMemory 2)
    (ha : s.mem.InRange a) (hk : ∀ u, s.PastOperands u 2 → Holds (k r (s.mem.read a) u) P) :
    Holds (fetchReg (.reg r) s fun x u => fetchCell a u (k x)) P :=
  holds_fetchReg_fetchAddr operands ha (hk _ (State.PastOperands.refl s).reg.word)

end

/-! ### The three forms -/

section
variable {s : State} {r : RegId} {a : Word}

/-- R152, R155: register and register. -/
theorem regReg_result (f : Word → Word → Word) (q : RegId) (operands : s.OperandsInMemory 2) :
    Holds (fetchReg (.reg q) s fun rA u => fetchReg (.reg r) u fun rB u => .next (u.writeReg rB (f (u.x rA) (u.x rB))))
      fun t => RegisterWritten s t 2 r (f (s.x q) (s.x r)) ∧ FlagsFrom t (f (s.x q) (s.x r)) := by
  refine holds_fetchReg_fetchReg operands fun u past => holds_next.2 ?_
  rw [past.x_eq, past.x_eq]
  exact past.writeReg_result r _

/-- R153, R156: memory and register. -/
theorem memReg_result (f : Word → Word → Word) (operands : s.OperandsInMemory 2) (ha : s.mem.InRange a) :
    Holds (fetchCell a s fun v u => fetchReg (.reg r) u fun rA u => .next (u.writeReg rA (f v (u.x rA))))
      fun t => RegisterWritten s t 2 r (f (s.mem.read a) (s.x r)) ∧ FlagsFrom t (f (s.mem.read a) (s.x r)) := by
  refine holds_fetchCell_fetchReg operands ha fun u past => holds_next.2 ?_
  rw [past.x_eq]
  exact past.writeReg_result r _

/-- R154, R157: register and memory. -/
theorem regMem_result (f : Word → Word → Word) (operands : s.OperandsInMemory 2) (ha : s.mem.InRange a)
    (wf : s.mem.wf) :
    Holds (fetchReg (.reg r) s fun rA u => fetchCell a u fun v u => .next (u.writeCell a (f (u.x rA) v)))
      fun t => CellWritten s t 2 a (f (s.x r) (s.mem.read a)) ∧ FlagsFrom t (f (s.x r) (s.mem.read a)) := by
  refine holds_fetchReg_fetchCell operands ha fun u past => holds_next.2 ?_
  rw [past.x_eq]
  exact past.writeCell_result wf a _

end

/-- Settles O11: two registers are fetched, and the sum or the difference is written to the second. -/
theorem addSubRegRegResult : Obligations.AddSubRegRegResult := by
  unfold Obligations.AddSubRegRegResult
  intro s a b operands
  exact ⟨regReg_result addWrap a operands, regReg_result subWrap a operands⟩

/-- Settles O12: the cell is read and the register fetched, and the sum or the difference is written to the register. -/
theorem addSubMemRegResult : Obligations.AddSubMemRegResult := by
  unfold Obligations.AddSubMemRegResult
  intro s a r operands ha
  exact ⟨memReg_result addWrap operands ha, memReg_result subWrap operands ha⟩

/-- Settles O13: the register is fetched and the cell read, and the sum or the difference is stored to the cell. -/
theorem addSubRegMemResult : Obligations.AddSubRegMemResult := by
  unfold Obligations.AddSubRegMemResult
  intro s r a operands ha wf
  exact ⟨regMem_result addWrap operands ha wf, regMem_result subWrap operands ha wf⟩

/-- Settles O19: each row of the table is computed, and a word minus itself is 0. -/
theorem arithmeticCorners : Obligations.ArithmeticCorners := by
  unfold Obligations.ArithmeticCorners
  refine ⟨?add, ?sub, fun v => ?same⟩
  case add => decide
  case sub => decide
  case same =>
    rw [subWrap_eq, BitVec.sub_self]
    exact ⟨rfl, rfl⟩

end Sys2Proof.Machine
end

section
/-!
PROOFS. MOVE (R170 to R175). Each form is the fetch of its two operands and one write of the word moved, which sets no
flag (R170).
-/
namespace Sys2Proof.Machine

/-! ### The write of the word moved -/

section
variable {s u : State} {n : Nat}

theorem State.PastOperands.flags_eq (h : s.PastOperands u n) : u.flags = s.flags := by
  obtain ⟨d, rfl⟩ := h
  rfl

/-- R170: the end of a MOVE whose destination is a register. -/
theorem State.PastOperands.setX_moved (h : s.PastOperands u n) (r : RegId) (v : Word) :
    RegisterWritten s (u.setX r v) n r v ∧ (u.setX r v).flags = s.flags :=
  ⟨h.setX_written r v, h.flags_eq⟩

/-- R170: the end of a MOVE whose destination is a cell. -/
theorem State.PastOperands.store_moved (h : s.PastOperands u n) (wf : s.mem.wf) (a v : Word) :
    CellWritten s (u.store a v) n a v ∧ (u.store a v).flags = s.flags :=
  ⟨h.store_written wf a v, h.flags_eq⟩

end

/-! ### The four forms -/

section
variable {s : State} {q r : RegId} {a imm : Word} {P : State → Prop}

/-- R131, R132: an immediate word and then a register are fetched. -/
theorem holds_fetchWord_fetchReg {k : RegId → State → Result} (operands : s.OperandsInMemory 2)
    (hk : ∀ u, s.PastOperands u 2 → Holds (k r u) P) :
    Holds (fetchWord s fun u => fetchReg (.reg r) u k) P := by
  rw [fetchWord_of_inRange operands.inRange, fetchReg_of_inRange operands.tail.inRange]
  exact hk _ (State.PastOperands.refl s).word.reg

/-- R171: memory to register. -/
theorem execMoveMemReg_result (operands : s.OperandsInMemory 2) (ha : s.mem.InRange a) :
    Holds (execMoveMemReg a (.reg r) s) fun t => RegisterWritten s t 2 r (s.mem.read a) ∧ t.flags = s.flags :=
  holds_fetchCell_fetchReg operands ha fun _ past => holds_next.2 (past.setX_moved r _)

/-- R172: register to memory. -/
theorem execMoveRegMem_result (operands : s.OperandsInMemory 2) (ha : s.mem.InRange a) (wf : s.mem.wf) :
    Holds (execMoveRegMem (.reg r) a s) fun t => CellWritten s t 2 a (s.x r) ∧ t.flags = s.flags :=
  holds_fetchReg_fetchAddr operands ha
    (holds_next.2 ((State.PastOperands.refl s).reg.word.store_moved wf a _))

/-- R173: register to register. -/
theorem execMoveRegReg_result (operands : s.OperandsInMemory 2) :
    Holds (execMoveRegReg (.reg q) (.reg r) s) fun t => RegisterWritten s t 2 r (s.x q) ∧ t.flags = s.flags := by
  refine holds_fetchReg_fetchReg operands fun u past => holds_next.2 ?_
  rw [past.x_eq]
  exact past.setX_moved r _

/-- R174: an immediate word to a register. -/
theorem execMoveImmReg_result (operands : s.OperandsInMemory 2) :
    Holds (execMoveImmReg imm (.reg r) s) fun t => RegisterWritten s t 2 r imm ∧ t.flags = s.flags :=
  holds_fetchWord_fetchReg operands fun _ past => holds_next.2 (past.setX_moved r imm)

end

/-- Settles O14: the word is read from the cell, the register or the operand, and its write into the register leaves the
flags. -/
theorem moveToRegisterResult : Obligations.MoveToRegisterResult := by
  unfold Obligations.MoveToRegisterResult
  intro s a imm q r operands
  exact ⟨execMoveMemReg_result operands, execMoveRegReg_result operands, execMoveImmReg_result operands⟩

/-- Settles O15: the register and the address are fetched, and the store of the register's word leaves the flags. -/
theorem moveToMemoryResult : Obligations.MoveToMemoryResult := by
  unfold Obligations.MoveToMemoryResult
  intro s r a operands ha wf
  exact execMoveRegMem_result operands ha wf

end Sys2Proof.Machine
end

section
/-!
PROOFS. INC (R180 to R183). Each form is the fetch of its one operand and one write of a result, which is the write that
ends ADD and SUB (R151).
-/
namespace Sys2Proof.Machine

section
variable {s : State} {r : RegId} {a : Word}

/-- R181: INC of a register. -/
theorem execIncReg_result (operands : s.OperandsInMemory 1) :
    Holds (execIncReg (.reg r) s) fun t =>
      RegisterWritten s t 1 r (incWrap (s.x r)) ∧ FlagsFrom t (incWrap (s.x r)) := by
  rw [execIncReg, fetchReg_of_inRange operands.inRange, holds_next]
  exact (State.PastOperands.refl s).reg.writeReg_result r _

/-- R182: INC of a cell. -/
theorem execIncMem_result (operands : s.OperandsInMemory 1) (ha : s.mem.InRange a) (wf : s.mem.wf) :
    Holds (execIncMem a s) fun t =>
      CellWritten s t 1 a (incWrap (s.mem.read a)) ∧ FlagsFrom t (incWrap (s.mem.read a)) := by
  rw [execIncMem, fetchCell_of_inRange operands.inRange ha, holds_next]
  exact (State.PastOperands.refl s).word.writeCell_result wf a _

end

/-- Settles O16: the register is fetched, and its word's increment is written back to it. -/
theorem incRegResult : Obligations.IncRegResult := by
  unfold Obligations.IncRegResult
  intro s r operands
  exact execIncReg_result operands

/-- Settles O17: the cell is read, and its word's increment is stored back to it. -/
theorem incMemResult : Obligations.IncMemResult := by
  unfold Obligations.IncMemResult
  intro s a operands ha wf
  exact execIncMem_result operands ha wf

end Sys2Proof.Machine
end

section
/-!
PROOFS. Jumps (R190 to R200). Each fetches its operand words and moves PC; a conditional jump does so through the
status-selection memory (R190). The three compare-jumps are one lemma about any comparison bit, whatever it draws.
-/
namespace Sys2Proof.Machine

/-! ### The transfer of control -/

section
variable {s t u : State} {n : Nat}

theorem State.PastOperands.setPc_transferred (h : s.PastOperands u n) (a : Word) : Transferred s (u.setPc a) a := by
  obtain ⟨d, rfl⟩ := h
  exact ⟨rfl, fun _ => rfl, fun _ => rfl, ⟨rfl, rfl, rfl, rfl, rfl⟩⟩

/-- R126: the selection goes to the target or to the address after the operand words. -/
theorem State.PastOperands.selectPc_transferred (h : s.PastOperands u n) (b : Bool) (a : Word) :
    Transferred s (u.selectPc b a) (if b then a else s.pc + BitVec.ofNat 32 n) := by
  obtain ⟨d, rfl⟩ := h
  exact ⟨rfl, fun _ => rfl, fun _ => rfl, ⟨rfl, rfl, rfl, rfl, rfl⟩⟩

theorem State.PastOperands.sel_selectPc (h : s.PastOperands u n) (b : Bool) (a : Word) :
    (u.selectPc b a).sel = { slot0 := s.pc + BitVec.ofNat 32 n, slot1 := a } := by
  obtain ⟨d, rfl⟩ := h
  rfl

/-- R28, R196: draws of the flags or of a bit leave a transfer of control as it is. -/
theorem Transferred.redrawn {target : Word} (h : Transferred s t target) (f : Flags) (d : Nat) :
    Transferred s { t with flags := f, draws := d } target :=
  ⟨h.pc, h.registers, h.memory, ⟨h.core.ir, h.core.fsm, h.core.status, h.core.flagsAfterCtl, h.core.size⟩⟩

end

/-- R28, R200: `FlagsAfterCtl()` changes the flags and the count of draws, and under `preserve` not the flags. -/
theorem holds_flagsAfterCtl_of_forall {v : State} {P : State → Prop}
    (h : ∀ f d, (v.flagsAfterCtl = .preserve → f = v.flags) → P { v with flags := f, draws := d }) :
    Holds (flagsAfterCtl v) P :=
  holds_flagsAfterCtl.2 ⟨fun _ => h v.flags v.draws fun _ => rfl,
    fun any => h _ _ fun preserve => nomatch any.symm.trans preserve⟩

/-! ### JMP and the jumps on a flag -/

/-- R192: JMP. -/
theorem execJmp_result {s : State} {a : Word} (operands : s.OperandsInMemory 1) :
    Holds (execJmp a s) fun t => Transferred s t a ∧ t.flags = s.flags ∧ t.sel = s.sel ∧ t.draws = s.draws := by
  rw [execJmp, fetchWord_of_inRange operands.inRange, holds_next]
  exact ⟨(State.PastOperands.refl s).word.setPc_transferred a, rfl, rfl, rfl⟩

/-- Settles O20: the target is fetched, and PC is set to it. -/
theorem jmpResult : Obligations.JmpResult := by
  unfold Obligations.JmpResult
  intro s a operands
  exact execJmp_result operands

/-- R190: `t` is `s` after a jump to `a` on the bit `b`, whose one operand is the target. -/
def FlagJumped (s t : State) (b : Bool) (a : Word) : Prop :=
  Transferred s t (if b then a else s.pc + 1) ∧ t.flags = s.flags ∧ t.sel = { slot0 := s.pc + 1, slot1 := a } ∧
    t.draws = s.draws

/-- R193, R194, R195: the target is fetched, and the bit, which is any function of the flags, selects. -/
theorem flagJump_result (bit : Flags → Bool) {s : State} {a : Word} (operands : s.OperandsInMemory 1) :
    Holds (fetchWord s fun u => .next (u.selectPc (bit u.flags) a)) fun t => FlagJumped s t (bit s.flags) a := by
  rw [fetchWord_of_inRange operands.inRange, holds_next]
  have past := (State.PastOperands.refl s).word
  exact ⟨past.selectPc_transferred _ a, rfl, past.sel_selectPc _ a, rfl⟩

/-- R195: JNZ selects with the complement of Z. -/
theorem FlagJumped.of_not {s t : State} {z : Bool} {a : Word} (h : FlagJumped s t (!z) a) :
    Transferred s t (if z = true then s.pc + 1 else a) ∧ t.flags = s.flags ∧
      t.sel = { slot0 := s.pc + 1, slot1 := a } ∧ t.draws = s.draws := by
  cases z <;> exact h

/-- Settles O21: JN selects with N, JZ with Z and JNZ with the complement of Z. -/
theorem flagJumpResult : Obligations.FlagJumpResult := by
  unfold Obligations.FlagJumpResult
  intro s a operands
  exact ⟨flagJump_result Flags.n operands, flagJump_result Flags.z operands,
    (flagJump_result (!·.z) operands).mono fun _ => FlagJumped.of_not⟩

/-! ### The compare-jumps -/

/-- R196: a comparison hands on a bit of which `p` says what it tells about the two words; it may count one draw. -/
def ComparesBy (bit : Word → Word → State → (Bool → State → Result) → Result) (p : Word → Word → Bool → Prop) : Prop :=
  ∀ x y u k, ∃ c w, p x y c ∧ (w = u ∨ w = u.countDraw) ∧ bit x y u k = k c w

/-- R196: the bit of JEQ, which is exact. -/
def EqualityBit (x y : Word) (c : Bool) : Prop := c = true ↔ x = y

/-- R196: the bit of JGT, exact where the difference fits in a word. -/
def GreaterBit (x y : Word) (c : Bool) : Prop := FitsWord (x.toInt - y.toInt) → (c = true ↔ y.toInt < x.toInt)

/-- R196: the bit of JLW, exact where the difference fits in a word. -/
def LowerBit (x y : Word) (c : Bool) : Prop := FitsWord (x.toInt - y.toInt) → (c = true ↔ x.toInt < y.toInt)

theorem eqBit_comparesBy : ComparesBy (fun x y u k => k (eqBit x y) u) EqualityBit := fun x y u _ =>
  ⟨_, u, by rw [EqualityBit, eqBit_eq, decide_eq_true_iff], .inl rfl, rfl⟩

theorem gtBit_comparesBy : ComparesBy gtBit GreaterBit := fun x y u _ => by
  by_cases fits : FitsWord (x.toInt - y.toInt)
  · exact ⟨_, u, fun _ => decide_eq_true_iff, .inl rfl, if_pos fits⟩
  · exact ⟨_, u.countDraw, fun h => absurd h fits, .inr rfl, if_neg fits⟩

theorem lwBit_comparesBy : ComparesBy lwBit LowerBit := fun x y u _ => by
  by_cases fits : FitsWord (x.toInt - y.toInt)
  · exact ⟨_, u, fun _ => decide_eq_true_iff, .inl rfl, if_pos fits⟩
  · exact ⟨_, u.countDraw, fun h => absurd h fits, .inr rfl, if_neg fits⟩

/-- R190, R200: `t` is `s` after a jump to `a` on the bit `c`, whose operands are two registers and the target. -/
def CompareJumped (s t : State) (c : Bool) (a : Word) : Prop :=
  Transferred s t (if c then a else s.pc + 3) ∧ t.sel = { slot0 := s.pc + 3, slot1 := a } ∧
    (s.flagsAfterCtl = .preserve → t.flags = s.flags)

/-- A jump whose bit says whether `p` is taken iff `p`. -/
theorem CompareJumped.of_iff {s t : State} {c : Bool} {a : Word} (h : CompareJumped s t c a) {p : Prop} [Decidable p]
    (hc : c = true ↔ p) :
    Transferred s t (if p then a else s.pc + 3) ∧ t.sel = { slot0 := s.pc + 3, slot1 := a } ∧
      (s.flagsAfterCtl = .preserve → t.flags = s.flags) := by
  rw [← if_congr hc rfl rfl]
  exact h

/-- A jump goes to its target or to the fall-through address, whatever its bit is. -/
theorem CompareJumped.exists_target {s t : State} {c : Bool} {a : Word} (h : CompareJumped s t c a) :
    ∃ target, (target = a ∨ target = s.pc + 3) ∧ Transferred s t target ∧
      (s.flagsAfterCtl = .preserve → t.flags = s.flags) := by
  obtain ⟨transferred, -, flags⟩ := h
  exact ⟨_, ite_eq_or_eq .., transferred, flags⟩

section
variable {s u w : State} {q r : RegId} {a : Word}

/-- R131, R132: two registers and then the target are fetched. -/
theorem holds_fetchReg_fetchReg_fetchWord {P : State → Prop} {k : RegId → RegId → State → Result}
    (operands : s.OperandsInMemory 3) (hk : ∀ u, s.PastOperands u 3 → Holds (k q r u) P) :
    Holds (fetchReg (.reg q) s fun x u => fetchReg (.reg r) u fun y v => fetchWord v (k x y)) P := by
  have second : ((s.setPc (s.pc + 1)).setDemux q.word).OperandsInMemory 2 := operands.tail
  have third : ((((s.setPc (s.pc + 1)).setDemux q.word).setPc (s.pc + 1 + 1)).setDemux r.word).OperandsInMemory 1 :=
    second.tail
  rw [fetchReg_of_inRange operands.inRange, fetchReg_of_inRange second.inRange]
  exact fetchWord_of_inRange third.inRange ▸ hk _ (State.PastOperands.refl s).reg.reg.word

/-- R196, R200: the end of a compare-jump, after the draw of its bit if there was one. -/
theorem selectPc_compareJumped (past : s.PastOperands u 3) (hw : w = u ∨ w = u.countDraw) (c : Bool) :
    Holds (flagsAfterCtl (w.selectPc c a)) fun t => CompareJumped s t c a := by
  refine holds_flagsAfterCtl_of_forall fun f d hf => ?_
  have redrawn : ({ w.selectPc c a with flags := f, draws := d } : State) =
      { u.selectPc c a with flags := f, draws := d } := by rcases hw with rfl | rfl <;> rfl
  have preserve : s.flagsAfterCtl = .preserve → f = s.flags := by
    obtain ⟨dp, rfl⟩ := past
    rcases hw with rfl | rfl <;> exact hf
  rw [redrawn]
  exact ⟨(past.selectPc_transferred c a).redrawn f d, past.sel_selectPc c a, preserve⟩

/-- R197, R198, R199: the operands are fetched, the two registers are compared, and the bit selects. -/
theorem compareJump_result {bit : Word → Word → State → (Bool → State → Result) → Result}
    {p : Word → Word → Bool → Prop} (hbit : ComparesBy bit p) (operands : s.OperandsInMemory 3) :
    Holds
      (fetchReg (.reg q) s fun rA u => fetchReg (.reg r) u fun rB u => fetchWord u fun u =>
        bit (u.x rA) (u.x rB) u fun c u => flagsAfterCtl (u.selectPc c a))
      fun t => ∃ c, p (s.x q) (s.x r) c ∧ CompareJumped s t c a := by
  refine holds_fetchReg_fetchReg_fetchWord operands fun u past => ?_
  rw [past.x_eq, past.x_eq]
  obtain ⟨c, w, hc, hw, e⟩ := hbit (s.x q) (s.x r) u fun c u => flagsAfterCtl (u.selectPc c a)
  rw [e]
  exact (selectPc_compareJumped past hw c).mono fun _ jumped => ⟨c, hc, jumped⟩

theorem execJeq_result (operands : s.OperandsInMemory 3) :
    Holds (execJeq (.reg q) (.reg r) a s) fun t => ∃ c, EqualityBit (s.x q) (s.x r) c ∧ CompareJumped s t c a :=
  compareJump_result eqBit_comparesBy operands

theorem execJgt_result (operands : s.OperandsInMemory 3) :
    Holds (execJgt (.reg q) (.reg r) a s) fun t => ∃ c, GreaterBit (s.x q) (s.x r) c ∧ CompareJumped s t c a :=
  compareJump_result gtBit_comparesBy operands

theorem execJlw_result (operands : s.OperandsInMemory 3) :
    Holds (execJlw (.reg q) (.reg r) a s) fun t => ∃ c, LowerBit (s.x q) (s.x r) c ∧ CompareJumped s t c a :=
  compareJump_result lwBit_comparesBy operands

end

/-- Settles O22: the bit of JEQ is exact for all words. -/
theorem jeqResult : Obligations.JeqResult := by
  unfold Obligations.JeqResult
  intro s q r a operands
  exact (execJeq_result operands).mono fun _ ⟨_, hc, jumped⟩ => jumped.of_iff hc

/-- Settles O23: where the difference fits, the bits of JGT and JLW are the signed order. -/
theorem orderJumpResult : Obligations.OrderJumpResult := by
  unfold Obligations.OrderJumpResult
  intro s q r a operands fits
  exact ⟨(execJgt_result operands).mono fun _ ⟨_, hc, jumped⟩ => jumped.of_iff (hc fits),
    (execJlw_result operands).mono fun _ ⟨_, hc, jumped⟩ => jumped.of_iff (hc fits)⟩

/-- Settles O24: whatever bit is drawn, the selection goes to the target or to the fall-through address. -/
theorem orderJumpOverflow : Obligations.OrderJumpOverflow := by
  unfold Obligations.OrderJumpOverflow
  intro s q r a operands _
  obtain ⟨t, ht, c, -, gt⟩ := execJgt_result (q := q) (r := r) (a := a) operands
  obtain ⟨u, hu, d, -, lw⟩ := execJlw_result (q := q) (r := r) (a := a) operands
  obtain ⟨x, hx, greater⟩ := gt.exists_target
  obtain ⟨y, hy, lower⟩ := lw.exists_target
  exact ⟨⟨t, x, ht, hx, greater⟩, ⟨u, y, hu, hy, lower⟩⟩

end Sys2Proof.Machine
end

section
/-!
PROOFS. Targets are not checked by the instruction that jumps to them (R191): the step of a jump, CALL or RET goes back to
FETCH at any target, and the opcode fetch of the next step is what halts where the target is outside memory (R130).
-/
namespace Sys2Proof.Machine

/-! ### The step to a target and the fetch after it -/

/-- R130: at FETCH with PC outside memory, the step halts and changes nothing. -/
theorem haltsAtFetch_of_not_inRange {t : State} (hf : t.fsm = .fetch) (h : ¬ t.mem.InRange t.pc) : HaltsAtFetch t := by
  rw [HaltsAtFetch, step_of_fetch hf, runInstr_of_not_inRange h]
  exact ⟨_, rfl, rfl, rfl, rfl, rfl, fun _ => rfl, rfl, rfl⟩

/-- `u` is inside the instruction that `s` fetches: nothing has halted, and the memory has its size. -/
structure State.Executing (s u : State) : Prop where
  fsm : u.fsm = .decodeExecute
  size : u.mem.size = s.mem.size

theorem State.SameCore.executing {s u : State} (h : s.fetched.SameCore u) : s.Executing u := ⟨h.fsm, h.size⟩

/-- R134, R191: the step of a decoded instruction that completes goes back to FETCH, and PC is checked by the next. -/
theorem step_then_fetch {s : State} {i : Instr} {P : State → Prop} (hf : s.fsm = .fetch) (hpc : s.mem.InRange s.pc)
    (hd : decode (s.mem.readMany s.pc maxWords) = .ok i)
    (h : Holds (exec i s.fetched) fun u => s.Executing u ∧ P u) :
    ∃ u : State, step s = .next u.settle ∧ u.settle.fsm = .fetch ∧ P u ∧
      (¬ s.mem.InRange u.pc → HaltsAtFetch u.settle) := by
  obtain ⟨u, hu, executing, hP⟩ := h
  have fetch : u.settle.fsm = .fetch := State.fsm_settle_of_not_halted (by simp [executing.fsm])
  refine ⟨u, ?_, fetch, hP, fun outside => haltsAtFetch_of_not_inRange fetch ?_⟩
  · rw [step_of_decode hf hpc hd, settleResult_of_next hu]
  · rw [State.mem_settle, State.pc_settle, Memory.InRange, executing.size]
    exact outside

/-! ### Where a jump, CALL or RET leaves PC -/

/-- R190: a jump from `s` with `n` operand words has left PC at `a` or at the fall-through address, at the first if `yes`
and at the second if `no`. -/
def State.JumpTaken (s t : State) (n : Nat) (a : Word) (yes no : Prop) : Prop :=
  (yes → t.pc = a) ∧ (no → t.pc = s.pc + BitVec.ofNat 32 n) ∧ (t.pc = a ∨ t.pc = s.pc + BitVec.ofNat 32 n)

theorem Transferred.jumpTaken {s t : State} {n : Nat} {a : Word} {c : Bool} {yes no : Prop}
    (h : Transferred s t (if c then a else s.pc + BitVec.ofNat 32 n)) (hyes : yes → c = true) (hno : no → c = false) :
    s.SameCore t ∧ s.JumpTaken t n a yes no := by
  rw [State.JumpTaken, h.pc]
  exact ⟨h.core, fun h => if_pos (hyes h), fun h => if_neg (by simp [hno h]), ite_eq_or_eq ..⟩

/-- R191: where its operand words are in memory, the jump `i` to `a` completes from `s`, whatever `a` is; it is taken if
`yes` and not taken if `no`. -/
def JumpsFrom (s : State) (i : Instr) (a : Word) (yes no : Prop) : Prop :=
  s.OperandsInMemory i.operandWords.length →
    Holds (exec i s) fun t => s.SameCore t ∧ s.JumpTaken t i.operandWords.length a yes no

section
variable {s : State} {q r : RegId} {a : Word}

theorem jumpsFrom_jmp : JumpsFrom s (.jmp a) a True False := fun operands =>
  (execJmp_result operands).mono fun _ ⟨transferred, _⟩ =>
    transferred.jumpTaken (c := true) (fun _ => rfl) False.elim

theorem jumpsFrom_jn : JumpsFrom s (.jn a) a (s.flags.n = true) (s.flags.n = false) := fun operands =>
  (flagJump_result Flags.n operands).mono fun _ ⟨transferred, _⟩ => transferred.jumpTaken id id

theorem jumpsFrom_jz : JumpsFrom s (.jz a) a (s.flags.z = true) (s.flags.z = false) := fun operands =>
  (flagJump_result Flags.z operands).mono fun _ ⟨transferred, _⟩ => transferred.jumpTaken id id

theorem jumpsFrom_jnz : JumpsFrom s (.jnz a) a (s.flags.z = false) (s.flags.z = true) := fun operands =>
  (flagJump_result (!·.z) operands).mono fun _ ⟨transferred, _⟩ => transferred.jumpTaken (by simp) (by simp)

theorem jumpsFrom_jeq : JumpsFrom s (.jeq (.reg q) (.reg r) a) a (s.x q = s.x r) (s.x q ≠ s.x r) := fun operands =>
  (execJeq_result operands).mono fun _ ⟨_, hc, transferred, _⟩ =>
    transferred.jumpTaken hc.2 fun ne => Bool.eq_false_iff.2 (mt hc.1 ne)

theorem jumpsFrom_jgt : JumpsFrom s (.jgt (.reg q) (.reg r) a) a
    (FitsWord ((s.x q).toInt - (s.x r).toInt) ∧ (s.x r).toInt < (s.x q).toInt)
    (FitsWord ((s.x q).toInt - (s.x r).toInt) ∧ (s.x q).toInt ≤ (s.x r).toInt) := fun operands =>
  (execJgt_result operands).mono fun _ ⟨_, hc, transferred, _⟩ =>
    transferred.jumpTaken (fun ⟨fits, gt⟩ => (hc fits).2 gt) fun ⟨fits, le⟩ =>
      Bool.eq_false_iff.2 (mt (hc fits).1 (not_lt.2 le))

theorem jumpsFrom_jlw : JumpsFrom s (.jlw (.reg q) (.reg r) a) a
    (FitsWord ((s.x q).toInt - (s.x r).toInt) ∧ (s.x q).toInt < (s.x r).toInt)
    (FitsWord ((s.x q).toInt - (s.x r).toInt) ∧ (s.x r).toInt ≤ (s.x q).toInt) := fun operands =>
  (execJlw_result operands).mono fun _ ⟨_, hc, transferred, _⟩ =>
    transferred.jumpTaken (fun ⟨fits, lt⟩ => (hc fits).2 lt) fun ⟨fits, le⟩ =>
      Bool.eq_false_iff.2 (mt (hc fits).1 (not_lt.2 le))

/-- R191: the step of a jump, and the opcode fetch after it. -/
theorem step_of_jumpsFrom {i : Instr} {yes no : Prop} (hf : s.fsm = .fetch) (hpc : s.mem.InRange s.pc)
    (h : JumpsFrom s.fetched i a yes no) (hd : decode (s.mem.readMany s.pc maxWords) = .ok i)
    (operands : s.fetched.OperandsInMemory i.operandWords.length) :
    ∃ t, step s = .next t ∧ t.fsm = .fetch ∧ (yes → t.pc = a) ∧
      (no → t.pc = s.pc + 1 + BitVec.ofNat 32 i.operandWords.length) ∧
      (t.pc = a ∨ t.pc = s.pc + 1 + BitVec.ofNat 32 i.operandWords.length) ∧
      (¬ s.mem.InRange t.pc → HaltsAtFetch t) := by
  obtain ⟨u, hu, fetch, ⟨taken, notTaken, either⟩, halts⟩ :=
    step_then_fetch hf hpc hd ((h operands).mono fun _ ⟨core, pc⟩ => ⟨core.executing, pc⟩)
  exact ⟨_, hu, fetch, taken, notTaken, either, halts⟩

/-- R215: RET where the pop is allowed goes to the popped word. -/
theorem exec_ret_popped (pop : s.PopAllowed) :
    Holds (exec .ret s) fun t => s.SameCore t ∧ t.pc = s.mem.read (s.x .stkTOP) := by
  rw [exec, execRet, holds_popWord]
  exact ⟨fun _ => holds_flagsAfterCtl_of_forall fun _ _ _ => ⟨⟨rfl, rfl, rfl, rfl, rfl⟩, rfl⟩,
    fun fault => absurd pop fault⟩

end

/-- Settles O25: each of them completes wherever it leaves PC, and the next opcode fetch checks it. -/
theorem targetsAreCheckedAtTheNextFetch : Obligations.TargetsAreCheckedAtTheNextFetch := by
  unfold Obligations.TargetsAreCheckedAtTheNextFetch
  intro s q r a hf hpc
  refine ⟨?jumps, fun hd operands wf push => ?call, fun hd pop => ?ret⟩
  case jumps =>
    have row {i : Instr} {yes no : Prop} (h : JumpsFrom s.fetched i a yes no) := step_of_jumpsFrom hf hpc h
    simp only [List.forall_mem_cons]
    exact ⟨row jumpsFrom_jmp, row jumpsFrom_jn, row jumpsFrom_jz, row jumpsFrom_jnz, row jumpsFrom_jeq,
      row jumpsFrom_jgt, row jumpsFrom_jlw, List.forall_mem_nil _⟩
  case call =>
    obtain ⟨u, hu, fetch, stored, halts⟩ := step_then_fetch hf hpc hd ((exec_call_stored operands push).mono
      fun _ stored => ⟨⟨stored.executing, by rw [stored.mem, Memory.size_write]⟩, stored⟩)
    have pushed : u.mem.read (wrap ((s.x .stkTOP).toInt - 1)) = s.pc + 1 + 1 := by
      rw [stored.mem, Memory.read_write_same _ _ wf, BitVec.add_assoc]
      rfl
    exact ⟨_, hu, fetch, stored.pc, pushed, stored.pc ▸ halts⟩
  case ret =>
    obtain ⟨u, hu, fetch, pc, halts⟩ := step_then_fetch hf hpc hd
      ((exec_ret_popped (s := s.fetched) pop).mono fun _ ⟨core, pc⟩ => ⟨core.executing, pc⟩)
    exact ⟨_, hu, fetch, pc, fun outside => halts (pc ▸ outside)⟩

end Sys2Proof.Machine
end

section
/-!
PROOFS. CALL and RET (R210 to R217). What each completes with is said once, as is the fault of each outside its stack
bound; the bounds (R211, R214) and the call and return law (R213) are read off these.
-/
namespace Sys2Proof.Machine

/-! ### StkTOP down by one and up by one -/

/-- R213: the increment of RET undoes the decrement of CALL, whether or not either wraps. -/
theorem wrap_add_one_wrap_sub_one (w : Word) : wrap ((wrap (w.toInt - 1)).toInt + 1) = w :=
  calc wrap ((wrap (w.toInt - 1)).toInt + 1)
    _ = incWrap (subWrap w 1) := rfl
    _ = w := by rw [incWrap_eq, subWrap_eq, BitVec.sub_add_cancel]

section
variable {s : State} {v : Word}

/-- R211: an allowed push goes to `StkTOP - 1` on integers, without wrapping. -/
theorem State.PushAllowed.toInt_wrap (push : s.PushAllowed) :
    (wrap ((s.x .stkTOP).toInt - 1)).toInt = (s.x .stkTOP).toInt - 1 := by
  have lower : minInt ≤ (s.x .stkTOP).toInt - 1 := le_trans (by decide) push.1
  have upper := (fits_toInt (s.x .stkTOP)).2
  exact toInt_wrap_of_fits ⟨lower, by omega⟩

/-- R214: the stack is empty when StkTOP is StkBOT. -/
theorem State.not_popAllowed_of_empty (empty : s.x .stkTOP = s.x .stkBOT) : ¬ s.PopAllowed := by
  rintro ⟨-, below⟩
  rw [empty] at below
  exact absurd (lt_min_iff.1 below).1 (lt_irrefl _)

/-! ### The push and the pop, inside the bound and outside it -/

theorem pushWord_of_pushAllowed {k : State → Result} (push : s.PushAllowed) :
    pushWord v s k =
      k ((s.setX .stkTOP (wrap ((s.x .stkTOP).toInt - 1))).store (wrap ((s.x .stkTOP).toInt - 1)) v) := if_pos push

theorem pushWord_of_not_pushAllowed {k : State → Result} (fault : ¬ s.PushAllowed) :
    pushWord v s k = .next (s.halt .faultStack) := if_neg fault

theorem popWord_of_popAllowed {k : Word → State → Result} (pop : s.PopAllowed) :
    popWord s k = k (s.mem.read (s.x .stkTOP)) (s.setX .stkTOP (wrap ((s.x .stkTOP).toInt + 1))) := if_pos pop

theorem popWord_of_not_popAllowed {k : Word → State → Result} (fault : ¬ s.PopAllowed) :
    popWord s k = .next (s.halt .faultStack) := if_neg fault

end

/-! ### CALL -/

/-- R212: `t` is `s` after a CALL of `a` that has pushed its return address. -/
structure Called (s t : State) (a : Word) : Prop where
  pc : t.pc = a
  top : t.x .stkTOP = wrap ((s.x .stkTOP).toInt - 1)
  others : ∀ q, q ≠ .stkTOP → t.x q = s.x q
  pushed : t.mem.read (wrap ((s.x .stkTOP).toInt - 1)) = s.pc + 1
  cells : ∀ b, b ≠ wrap ((s.x .stkTOP).toInt - 1) → t.mem.read b = s.mem.read b
  core : s.SameCore t
  sel : t.sel = s.sel
  flags : s.flagsAfterCtl = .preserve → t.flags = s.flags

section
variable {s t : State} {a : Word}

theorem exec_call_called (operands : s.OperandsInMemory 1) (wf : s.mem.wf) (push : s.PushAllowed) :
    Holds (exec (.call a) s) (Called s · a) := by
  rw [exec, execCall, fetchWord_of_inRange operands.inRange, pushWord_of_pushAllowed (s := s.setPc (s.pc + 1)) push]
  exact holds_flagsAfterCtl_of_forall fun _ _ flags =>
    { pc := rfl
      top := Regs.get_set_same s.regs .stkTOP _
      others := fun _ hq => Regs.get_set_ne s.regs _ hq
      pushed := Memory.read_write_same _ _ wf
      cells := fun _ hb => Memory.read_write_ne _ wf hb
      core := ⟨rfl, rfl, rfl, rfl, rfl⟩
      sel := rfl
      flags := flags }

/-- R211: outside the bound, CALL faults before any write, its operand fetched. -/
theorem exec_call_fault (operands : s.OperandsInMemory 1) (fault : ¬ s.PushAllowed) :
    Holds (exec (.call a) s) (HaltTaken s · 1 .faultStack) := by
  rw [exec, execCall, fetchWord_of_inRange operands.inRange,
    pushWord_of_not_pushAllowed (s := s.setPc (s.pc + 1)) fault, holds_next]
  exact (State.PastOperands.refl s).word.haltTaken .faultStack

/-- R211: a CALL that has not halted has pushed. -/
theorem Called.of_not_halted (operands : s.OperandsInMemory 1) (wf : s.mem.wf) (ht : exec (.call a) s = .next t)
    (running : t.fsm ≠ .halted) : Called s t a := by
  by_cases push : s.PushAllowed
  · exact (exec_call_called operands wf push).of_eq ht
  · exact absurd ((exec_call_fault operands push).of_eq ht).fsm running

end

/-- Settles O26: the target is fetched, the push is done, and PC is set to the target. -/
theorem callResult : Obligations.CallResult := by
  unfold Obligations.CallResult
  intro s a operands wf push
  exact (exec_call_called operands wf push).mono fun _ called => ⟨called.pc, called.top, called.others, called.pushed,
    called.cells, called.core, called.sel, called.flags⟩

/-! ### RET -/

/-- R215: `t` is `s` after a RET that has popped the word at StkTOP. -/
structure Returned (s t : State) : Prop where
  pc : t.pc = s.mem.read (s.x .stkTOP)
  top : t.x .stkTOP = wrap ((s.x .stkTOP).toInt + 1)
  others : ∀ q, q ≠ .stkTOP → t.x q = s.x q
  memory : s.SameMemory t
  core : s.SameCore t
  sel : t.sel = s.sel
  flags : s.flagsAfterCtl = .preserve → t.flags = s.flags

section
variable {s : State}

theorem exec_ret_returned (pop : s.PopAllowed) : Holds (exec .ret s) (Returned s) := by
  rw [exec, execRet, popWord_of_popAllowed pop]
  exact holds_flagsAfterCtl_of_forall fun _ _ flags =>
    { pc := rfl
      top := Regs.get_set_same s.regs .stkTOP _
      others := fun _ hq => Regs.get_set_ne s.regs _ hq
      memory := fun _ => rfl
      core := ⟨rfl, rfl, rfl, rfl, rfl⟩
      sel := rfl
      flags := flags }

/-- R214: outside the bound, RET faults and changes nothing. -/
theorem exec_ret_fault (fault : ¬ s.PopAllowed) : Holds (exec .ret s) (HaltTaken s · 0 .faultStack) := by
  rw [exec, execRet, popWord_of_not_popAllowed fault, holds_next]
  exact (State.PastOperands.refl s).haltTaken .faultStack

end

/-- Settles O27: the word at StkTOP is popped, and PC is set to it. -/
theorem retResult : Obligations.RetResult := by
  unfold Obligations.RetResult
  intro s pop
  exact (exec_ret_returned pop).mono fun _ returned => ⟨returned.pc, returned.top, returned.others, returned.memory,
    returned.core, returned.sel, returned.flags⟩

/-! ### The bounds, and the call and return law -/

/-- Settles O28: inside the bound the decrement of StkTOP does not wrap; outside it CALL faults. -/
theorem pushBound : Obligations.PushBound := by
  unfold Obligations.PushBound
  intro s a operands wf
  refine ⟨fun push => (exec_call_called operands wf push).mono fun t called => ?_, exec_call_fault operands⟩
  rw [called.top]
  exact ⟨push.toInt_wrap, called.pushed, called.core.status⟩

/-- Settles O29: an empty stack is outside the bound. -/
theorem popBound : Obligations.PopBound := by
  unfold Obligations.PopBound
  intro s
  exact ⟨fun pop => (exec_ret_returned pop).mono fun _ returned => ⟨returned.pc, returned.core.status⟩,
    exec_ret_fault, fun empty => exec_ret_fault (State.not_popAllowed_of_empty empty)⟩

/-- Settles O30: the CALL has pushed, so RET pops the word that CALL pushed, and its increment of StkTOP undoes CALL's
decrement. -/
theorem retUndoesCall : Obligations.RetUndoesCall := by
  unfold Obligations.RetUndoesCall
  intro s t u a operands wf ht running htop hword pop
  have called := Called.of_not_halted operands wf ht running
  refine (exec_ret_returned pop).mono fun v returned => ⟨?pc, ?top⟩
  case pc => rw [returned.pc, hword, called.top, called.pushed]
  case top => rw [returned.top, htop, called.top, wrap_add_one_wrap_sub_one]

end Sys2Proof.Machine
end

section
/-!
PROOFS. The loader (R260, R261): the start state of an admitted image, and which images are admitted.
-/
namespace Sys2Proof.Machine

section
variable {n : Nat} {ctl : Config.FlagsAfterCtl} {v : StartValues} {image : List Int}

/-- R260: the cells above the image hold 0. -/
theorem State.read_start_of_length_le {a : Word} (above : image.length ≤ a.toNat) :
    (State.start n ctl v image).mem.read a = 0 := by
  have cell := readCells_imageCells 0 image a.toNat
  rw [Nat.zero_add, List.getElem?_eq_none above] at cell
  exact cell

/-- R261: for a memory size that R7 admits, an image is admitted exactly if it fits and its integers are words. -/
theorem exists_load_iff (pos : 1 ≤ n) (max : n ≤ maxMemSize) :
    (∃ s, load n ctl v image = .ok s) ↔ image.length ≤ n ∧ ∀ w ∈ image, FitsWord w := by
  constructor
  · rintro ⟨s, admitted⟩
    obtain ⟨-, -, len, words, -⟩ := load_ok admitted
    exact ⟨len, (firstOutOfRange_eq_none image).1 words⟩
  · rintro ⟨len, fits⟩
    exact ⟨_, load_of_fitsWord pos max len fits⟩

end

/-- Settles O47: an admitted image is loaded into `State.start`, whose memory is the image's cells. -/
theorem loadedStartState : Obligations.LoadedStartState := by
  unfold Obligations.LoadedStartState
  intro n ctl v image s admitted
  obtain ⟨-, -, -, -, rfl⟩ := load_ok admitted
  exact ⟨rfl, rfl, rfl, rfl, rfl, rfl, rfl, rfl, rfl, rfl, rfl, fun _ _ _ hw => State.read_start hw,
    fun _ above => State.read_start_of_length_le above⟩

/-- Settles O48: the bounds of `FitsWord` are -2^31 and 2^31 - 1. -/
theorem loaderAdmission : Obligations.LoaderAdmission := by
  unfold Obligations.LoaderAdmission
  intro n ctl v image pos max
  exact exists_load_iff pos max

end Sys2Proof.Machine
end
